-- ==== Sys2Proof/Word.lean ====
section
/-! DEFINITION. The words of the machine: bytes, the 64-bit container of an XLEN-bit value, and the fields of an
instruction word that name a register or a CSR (R11, R67, R80; log 5). -/

namespace Sys2Proof

/-- The unit of memory: an address holds 8 bits. The byte size is not in the source (R81): DESIGN CHOICE, with which a
32-bit instruction is the 4 bytes that `pc + 4` steps over (R68, log 54). -/
abbrev Byte := BitVec 8

/-- An XLEN-bit value (R11). With XLEN = 32 the high half is unused (log 5). -/
abbrev XWord := BitVec 64

/-- A register number x0 to x31 (R67), or the five bits 19:15 read as an immediate (R109). -/
abbrev RegIdx := BitVec 5

/-- A CSR number, 12 bits (R80). -/
abbrev CsrNum := BitVec 12

end Sys2Proof
end

