-- ==== Sys2Proof/Syntax.lean ====
section
/-! DEFINITION. The instructions: one constructor per row of spec/opcode_table.json (R118), with every field the
encoding lets vary, and the three instructions that rules describe and the table does not list. -/

namespace Sys2Proof

/-- Four set bits of a FENCE (R103): device input, device output, memory reads, memory writes. -/
structure AccessSet where
  i : Bool
  o : Bool
  r : Bool
  w : Bool
deriving DecidableEq, Repr

/-- The rows of the opcode table. -/
inductive Instr where
  /-- CSRRW (R101, R128) -/
  | csrrw (rd : RegIdx) (csr : CsrNum) (rs1 : RegIdx)
  /-- CSRRS (R129) -/
  | csrrs (rd : RegIdx) (csr : CsrNum) (rs1 : RegIdx)
  /-- CSRRC (R130) -/
  | csrrc (rd : RegIdx) (csr : CsrNum) (rs1 : RegIdx)
  /-- CSRRWI (R131); bits 19:15 are the immediate (R109) -/
  | csrrwi (rd : RegIdx) (csr : CsrNum) (uimm : RegIdx)
  /-- CSRRSI (R132) -/
  | csrrsi (rd : RegIdx) (csr : CsrNum) (uimm : RegIdx)
  /-- CSRRCI (R133) -/
  | csrrci (rd : RegIdx) (csr : CsrNum) (uimm : RegIdx)
  /-- FENCE (R103, R148); `rs1` and `rd` are ignored fields of the word -/
  | fence (fm : BitVec 4) (pred succ : AccessSet) (rs1 rd : RegIdx)
  /-- The class of word-sized atomics (R104, R149) -/
  | amoW (funct5 : BitVec 5) (aq rl : Bool) (rs2 rs1 rd : RegIdx)
  /-- The class of doubleword-sized atomics (R104, R149) -/
  | amoD (funct5 : BitVec 5) (aq rl : Bool) (rs2 rs1 rd : RegIdx)
  /-- SFENCE.VMA (R105, R160) -/
  | sfenceVma (rs1 rs2 : RegIdx)
  /-- CBO.INVAL (R106, R194) -/
  | cboInval (rs1 : RegIdx)
  /-- CBO.CLEAN (R106, R192) -/
  | cboClean (rs1 : RegIdx)
  /-- CBO.FLUSH (R106, R193) -/
  | cboFlush (rs1 : RegIdx)
  /-- CBO.ZERO (R106, R191) -/
  | cboZero (rs1 : RegIdx)
  /-- LPAD (R107, R210) -/
  | lpad (label : BitVec 20)
  /-- SSAMOSWAP.W (R104, R218) -/
  | ssamoswapW (aq rl : Bool) (rs2 rs1 rd : RegIdx)
  /-- SSAMOSWAP.D (R104, R218) -/
  | ssamoswapD (aq rl : Bool) (rs2 rs1 rd : RegIdx)
  /-- SSPUSH (R108, R213); `rs2` is x1 or x5 -/
  | sspush (rs2 : RegIdx)
  /-- SSPOPCHK (R108, R213); `rs1` is x1 or x5 -/
  | sspopchk (rs1 : RegIdx)
  /-- SSRDP (R108, R213); `rd` is not x0 -/
  | ssrdp (rd : RegIdx)
  /-- C.SSPUSH x1, 16 bits (R108, R214) -/
  | cSspush
  /-- C.SSPOPCHK x5, 16 bits (R108, R214) -/
  | cSspopchk
deriving DecidableEq, Repr

/-- Instructions that rules describe and the table does not list: the trap returns (R240), the fence that closes the
G-stage windows (R161), and the Zimop and Zcmop instructions (R215). Their words are PRESUMED (logs 33, 45). -/
inductive HartInstr where
  | mret
  | sret
  | hfenceGvma (rs1 rs2 : RegIdx)
  /-- MOP.R.n -/
  | mopR (n : BitVec 5) (rs1 rd : RegIdx)
  /-- MOP.RR.n -/
  | mopRr (n : BitVec 3) (rs2 rs1 rd : RegIdx)
  /-- C.MOP.n, with n = 2k + 1 -/
  | cMop (k : BitVec 3)
deriving DecidableEq, Repr

end Sys2Proof
end

