-- ==== Sys2Proof/WellFormed.lean ====
section
/-! DEFINITION. Which instruction terms have a word of their own: the operand restrictions of R104 and R108. -/

namespace Sys2Proof

/-- `funct5` of SSAMOSWAP.W and SSAMOSWAP.D (R104). -/
def ssamoswapFunct5 : BitVec 5 := 0b01001#5

/-- x1 and x5, the operands of SSPUSH and SSPOPCHK (R108). -/
def isLinkReg (r : RegIdx) : Bool := r == 1#5 || r == 5#5

/-- The operand restrictions: an atomic of the two classes has a `funct5` that is not SSAMOSWAP's, SSPUSH and SSPOPCHK
name x1 or x5, SSRDP does not name x0 (R104, R108). -/
def Instr.wellFormed : Instr → Bool
  | .csrrw _ _ _ => true
  | .csrrs _ _ _ => true
  | .csrrc _ _ _ => true
  | .csrrwi _ _ _ => true
  | .csrrsi _ _ _ => true
  | .csrrci _ _ _ => true
  | .fence _ _ _ _ _ => true
  | .amoW f _ _ _ _ _ => f != ssamoswapFunct5
  | .amoD f _ _ _ _ _ => f != ssamoswapFunct5
  | .sfenceVma _ _ => true
  | .cboInval _ => true
  | .cboClean _ => true
  | .cboFlush _ => true
  | .cboZero _ => true
  | .lpad _ => true
  | .ssamoswapW _ _ _ _ _ => true
  | .ssamoswapD _ _ _ _ _ => true
  | .sspush rs2 => isLinkReg rs2
  | .sspopchk rs1 => isLinkReg rs1
  | .ssrdp rd => rd != 0#5
  | .cSspush => true
  | .cSspopchk => true

end Sys2Proof
end

