-- ==== Sys2Proof/Decode.lean ====
section
/-! DEFINITION. Decoding, total on any bytes, and the encoder, both written from 30_encoding.md (R100 to R108). Fetch is
little-endian (G22, log 36). -/

namespace Sys2Proof

/-- Why bytes are no instruction of the table. -/
inductive DecodeError where
  /-- fewer bytes than the length R100 reads from bits 1:0 -/
  | truncated
  /-- a 16-bit encoding other than the two of R108 -/
  | unknownHalfword
  /-- an opcode field of no row -/
  | unknownOpcode
  /-- SYSTEM, funct3 000, and not SFENCE.VMA (R105) -/
  | unknownPrivileged
  /-- SYSTEM, funct3 100, and none of the words of R108 -/
  | unknownMop
  /-- MISC-MEM with a funct3 other than 000 and 010 (R103, R106) -/
  | unknownMiscMem
  /-- funct3 010 of MISC-MEM and no cache-block word of R106 -/
  | unknownCbo
  /-- AMO with a funct3 other than 010 and 011 (R104) -/
  | unknownAmoWidth
  /-- the AUIPC encoding with `rd` other than x0 (R107) -/
  | auipc
deriving DecidableEq, Repr

/-! Opcodes, bits 6:0. -/

def opSystem : BitVec 7 := 0b1110011#7
def opMiscMem : BitVec 7 := 0b0001111#7
def opAmo : BitVec 7 := 0b0101111#7
def opAuipc : BitVec 7 := 0b0010111#7

/-- Bits 31:25 of SFENCE.VMA (R105). -/
def funct7SfenceVma : BitVec 7 := 0b0001001#7

/-- Bits 31:25 of MOP.RR.7, the encoding of SSPUSH (R108: word 0xCE104073). -/
def funct7MopRr7 : BitVec 7 := 0b1100111#7

/-- Bits 31:20 of MOP.R.28, the encoding of SSPOPCHK and SSRDP (R108: word 0xCDC04073). -/
def immMopR28 : BitVec 12 := 0xCDC#12

/-- Bits 27:24 or 23:20 of a FENCE, in the order I, O, R, W (R103). -/
def AccessSet.toBits (a : AccessSet) : BitVec 4 :=
  BitVec.ofBool a.i ++ BitVec.ofBool a.o ++ BitVec.ofBool a.r ++ BitVec.ofBool a.w

def AccessSet.ofBits (b : BitVec 4) : AccessSet :=
  ⟨b.getLsbD 3, b.getLsbD 2, b.getLsbD 1, b.getLsbD 0⟩

/-- The SYSTEM opcode: the six CSR instructions (R102), SFENCE.VMA (R105) and the Zimop encodings (R108). -/
def decodeSystem (funct7 : BitVec 7) (imm : BitVec 12) (rs2 rs1 : RegIdx) (funct3 : BitVec 3) (rd : RegIdx) :
    Except DecodeError Instr :=
  if funct3 = 1#3 then .ok (.csrrw rd imm rs1)
  else if funct3 = 2#3 then .ok (.csrrs rd imm rs1)
  else if funct3 = 3#3 then .ok (.csrrc rd imm rs1)
  else if funct3 = 5#3 then .ok (.csrrwi rd imm rs1)
  else if funct3 = 6#3 then .ok (.csrrsi rd imm rs1)
  else if funct3 = 7#3 then .ok (.csrrci rd imm rs1)
  else if funct3 = 0#3 then
    if funct7 = funct7SfenceVma ∧ rd = 0#5 then .ok (.sfenceVma rs1 rs2) else .error .unknownPrivileged
  else if funct7 = funct7MopRr7 ∧ rs1 = 0#5 ∧ rd = 0#5 ∧ isLinkReg rs2 = true then .ok (.sspush rs2)
  else if imm = immMopR28 ∧ rd = 0#5 ∧ isLinkReg rs1 = true then .ok (.sspopchk rs1)
  else if imm = immMopR28 ∧ rs1 = 0#5 ∧ rd ≠ 0#5 then .ok (.ssrdp rd)
  else .error .unknownMop

/-- The MISC-MEM opcode: FENCE (R103) and the cache-block instructions (R106). -/
def decodeMiscMem (imm : BitVec 12) (rs1 : RegIdx) (funct3 : BitVec 3) (rd : RegIdx) : Except DecodeError Instr :=
  if funct3 = 0#3 then
    .ok (.fence (imm.extractLsb' 8 4) (.ofBits (imm.extractLsb' 4 4)) (.ofBits (imm.extractLsb' 0 4)) rs1 rd)
  else if funct3 = 2#3 then
    if rd = 0#5 ∧ imm = 0#12 then .ok (.cboInval rs1)
    else if rd = 0#5 ∧ imm = 1#12 then .ok (.cboClean rs1)
    else if rd = 0#5 ∧ imm = 2#12 then .ok (.cboFlush rs1)
    else if rd = 0#5 ∧ imm = 4#12 then .ok (.cboZero rs1)
    else .error .unknownCbo
  else .error .unknownMiscMem

/-- The AMO opcode (R104): funct5 01001 is SSAMOSWAP, every other one is of the class (log 11). -/
def decodeAmo (funct7 : BitVec 7) (rs2 rs1 : RegIdx) (funct3 : BitVec 3) (rd : RegIdx) : Except DecodeError Instr :=
  let funct5 := funct7.extractLsb' 2 5
  let aq := funct7.getLsbD 1
  let rl := funct7.getLsbD 0
  if funct3 = 2#3 then
    if funct5 = ssamoswapFunct5 then .ok (.ssamoswapW aq rl rs2 rs1 rd) else .ok (.amoW funct5 aq rl rs2 rs1 rd)
  else if funct3 = 3#3 then
    if funct5 = ssamoswapFunct5 then .ok (.ssamoswapD aq rl rs2 rs1 rd) else .ok (.amoD funct5 aq rl rs2 rs1 rd)
  else .error .unknownAmoWidth

/-- A 32-bit word (R101 to R108). -/
def decodeWord (w : BitVec 32) : Except DecodeError Instr :=
  let op := w.extractLsb' 0 7
  let rd := w.extractLsb' 7 5
  let funct3 := w.extractLsb' 12 3
  let rs1 := w.extractLsb' 15 5
  let rs2 := w.extractLsb' 20 5
  let funct7 := w.extractLsb' 25 7
  let imm := w.extractLsb' 20 12
  if op = opSystem then decodeSystem funct7 imm rs2 rs1 funct3 rd
  else if op = opMiscMem then decodeMiscMem imm rs1 funct3 rd
  else if op = opAmo then decodeAmo funct7 rs2 rs1 funct3 rd
  else if op = opAuipc then
    if rd = 0#5 then .ok (.lpad (w.extractLsb' 12 20)) else .error .auipc
  else .error .unknownOpcode

/-- A 16-bit encoding: the two words of R108. -/
def decodeHalfword (h : BitVec 16) : Except DecodeError Instr :=
  if h = 0x6081#16 then .ok .cSspush
  else if h = 0x6281#16 then .ok .cSspopchk
  else .error .unknownHalfword

/-- Two bytes as the hardware stores a halfword, the low byte first. -/
def halfwordOf (b0 b1 : Byte) : BitVec 16 := b1 ++ b0

/-- Four bytes as the hardware stores a word, the low byte first. -/
def wordOf (b0 b1 b2 b3 : Byte) : BitVec 32 := b3 ++ b2 ++ b1 ++ b0

/-- Bits 1:0 tell the two lengths apart: 11 is a 32-bit instruction (R100). -/
def isWide (b0 : Byte) : Bool := b0.extractLsb' 0 2 == 3#2

/-- The instruction at the head of a list of bytes, with the bytes after it. -/
def decode : List Byte → Except DecodeError (Instr × List Byte)
  | b0 :: b1 :: rest =>
    if isWide b0 then
      match rest with
      | b2 :: b3 :: rest' =>
        match decodeWord (wordOf b0 b1 b2 b3) with
        | .ok i => .ok (i, rest')
        | .error e => .error e
      | _ => .error .truncated
    else
      match decodeHalfword (halfwordOf b0 b1) with
      | .ok i => .ok (i, rest)
      | .error e => .error e
  | _ => .error .truncated

/-- The words that rules describe and no row lists. PRESUMED: MRET 0x30200073, SRET 0x10200073, HFENCE.GVMA with bits
31:25 0110001 in the format of R105 (R240, R161; log 33). PRESUMED: MOP.R.n and MOP.RR.n in the SYSTEM format with
funct3 100, bit 31 one, bits 29:28 zero, and bits 25:22 0111 with n in bits 30, 27:26, 21:20, or bit 25 one with n in
bits 30, 27:26, of which the words of R108 are instances (R215; log 45). -/
def decodeHart (w : BitVec 32) : Option HartInstr :=
  if w = 0x30200073#32 then some .mret
  else if w = 0x10200073#32 then some .sret
  else if w.extractLsb' 25 7 = 0b0110001#7 ∧ w.extractLsb' 0 15 = 0x0073#15 then
    some (.hfenceGvma (w.extractLsb' 15 5) (w.extractLsb' 20 5))
  else if w.extractLsb' 0 7 = opSystem ∧ w.extractLsb' 12 3 = 0b100#3 ∧ w.extractLsb' 31 1 = 1#1
      ∧ w.extractLsb' 28 2 = 0#2 then
    if w.extractLsb' 25 1 = 1#1 then
      some (.mopRr (w.extractLsb' 30 1 ++ w.extractLsb' 26 2) (w.extractLsb' 20 5) (w.extractLsb' 15 5)
        (w.extractLsb' 7 5))
    else if w.extractLsb' 22 4 = 0b0111#4 then
      some (.mopR (w.extractLsb' 30 1 ++ w.extractLsb' 26 2 ++ w.extractLsb' 20 2) (w.extractLsb' 15 5)
        (w.extractLsb' 7 5))
    else none
  else none

/-- C.MOP.n with n = 2k + 1. PRESUMED: bits 15:11 01100, k in bits 10:8, bits 7:0 10000001, of which the two halfwords of
R108 are instances (R215; log 45). -/
def decodeHartHalfword (h : BitVec 16) : Option HartInstr :=
  if h.extractLsb' 11 5 = 0b01100#5 ∧ h.extractLsb' 0 8 = 0b10000001#8 then some (.cMop (h.extractLsb' 8 3)) else none

/-- Bytes that are no row of the table, with the word they spell. -/
def decodeOther : List Byte → Option (HartInstr × BitVec 32)
  | [b0, b1] => (decodeHartHalfword (halfwordOf b0 b1)).map fun i => (i, (halfwordOf b0 b1).setWidth 32)
  | [b0, b1, b2, b3] => (decodeHart (wordOf b0 b1 b2 b3)).map fun i => (i, wordOf b0 b1 b2 b3)
  | _ => none

/-- The 32-bit formats: bits 31:25, 24:20, 19:15, 14:12, 11:7, 6:0 (R101, R104). -/
def rType (funct7 : BitVec 7) (rs2 rs1 : RegIdx) (funct3 : BitVec 3) (rd : RegIdx) (op : BitVec 7) : BitVec 32 :=
  funct7 ++ rs2 ++ rs1 ++ funct3 ++ rd ++ op

/-- Bits 31:20, 19:15, 14:12, 11:7, 6:0 (R101, R103, R106). -/
def iType (imm : BitVec 12) (rs1 : RegIdx) (funct3 : BitVec 3) (rd : RegIdx) (op : BitVec 7) : BitVec 32 :=
  imm ++ rs1 ++ funct3 ++ rd ++ op

/-- Bits 31:12, 11:7, 6:0 (R107). -/
def uType (imm : BitVec 20) (rd : RegIdx) (op : BitVec 7) : BitVec 32 :=
  imm ++ rd ++ op

/-- Bits 31:20 of a FENCE (R103). -/
def fenceImm (fm : BitVec 4) (pred succ : AccessSet) : BitVec 12 :=
  fm ++ pred.toBits ++ succ.toBits

/-- Bits 31:25 of an atomic (R104). -/
def amoFunct7 (funct5 : BitVec 5) (aq rl : Bool) : BitVec 7 :=
  funct5 ++ BitVec.ofBool aq ++ BitVec.ofBool rl

/-- The word of an instruction; a 16-bit one stands in the low half. -/
def encodeWord : Instr → BitVec 32
  | .csrrw rd csr rs1 => iType csr rs1 1#3 rd opSystem
  | .csrrs rd csr rs1 => iType csr rs1 2#3 rd opSystem
  | .csrrc rd csr rs1 => iType csr rs1 3#3 rd opSystem
  | .csrrwi rd csr uimm => iType csr uimm 5#3 rd opSystem
  | .csrrsi rd csr uimm => iType csr uimm 6#3 rd opSystem
  | .csrrci rd csr uimm => iType csr uimm 7#3 rd opSystem
  | .fence fm pred succ rs1 rd => iType (fenceImm fm pred succ) rs1 0#3 rd opMiscMem
  | .amoW funct5 aq rl rs2 rs1 rd => rType (amoFunct7 funct5 aq rl) rs2 rs1 2#3 rd opAmo
  | .amoD funct5 aq rl rs2 rs1 rd => rType (amoFunct7 funct5 aq rl) rs2 rs1 3#3 rd opAmo
  | .sfenceVma rs1 rs2 => rType funct7SfenceVma rs2 rs1 0#3 0#5 opSystem
  | .cboInval rs1 => iType 0#12 rs1 2#3 0#5 opMiscMem
  | .cboClean rs1 => iType 1#12 rs1 2#3 0#5 opMiscMem
  | .cboFlush rs1 => iType 2#12 rs1 2#3 0#5 opMiscMem
  | .cboZero rs1 => iType 4#12 rs1 2#3 0#5 opMiscMem
  | .lpad label => uType label 0#5 opAuipc
  | .ssamoswapW aq rl rs2 rs1 rd => rType (amoFunct7 ssamoswapFunct5 aq rl) rs2 rs1 2#3 rd opAmo
  | .ssamoswapD aq rl rs2 rs1 rd => rType (amoFunct7 ssamoswapFunct5 aq rl) rs2 rs1 3#3 rd opAmo
  | .sspush rs2 => rType funct7MopRr7 rs2 0#5 4#3 0#5 opSystem
  | .sspopchk rs1 => iType immMopR28 rs1 4#3 0#5 opSystem
  | .ssrdp rd => iType immMopR28 0#5 4#3 rd opSystem
  | .cSspush => 0x6081#32
  | .cSspopchk => 0x6281#32

/-- The length in bytes (R100). -/
def Instr.size : Instr → Nat
  | .cSspush => 2
  | .cSspopchk => 2
  | _ => 4

/-- Byte k of a word. -/
def byteOf (w : BitVec 32) (k : Nat) : Byte := w.extractLsb' (8 * k) 8

/-- The four bytes of a word, the low byte first. -/
def wordBytes (w : BitVec 32) : List Byte := [byteOf w 0, byteOf w 1, byteOf w 2, byteOf w 3]

/-- The bytes of an instruction as they stand in memory, lowest address first. -/
def encode (i : Instr) : List Byte := (wordBytes (encodeWord i)).take i.size

/-- The four bytes that a table row's word of `nbits` bits, zero above them, occupies in memory. -/
def tableBytes (nbits w : Nat) : List Byte := wordBytes (BitVec.ofNat 32 (w % 2 ^ nbits))

/-- What the decoder reads from a word numbered as spec/opcode_table.json numbers it. -/
def decodeTableWord (nbits w : Nat) : Option Instr :=
  match decode (tableBytes nbits w) with
  | .ok (i, _) => some i
  | .error _ => none

end Sys2Proof
end

