-- ==== Sys2Proof/Config.lean ====
section
/-! DEFINITION. The implementation parameters of the hart (R11 to R30, 92_eei_decisions.md) as plain data, the BASE
configuration, and the free values: uninterpreted constants with no body, for what the spec leaves open. -/

namespace Sys2Proof

/-- XLEN, "one of 32 or 64" (R11). -/
inductive Xlen where
  | rv32
  | rv64
deriving DecidableEq, Repr

/-- A region ordered as device I/O (R30, R81): `size` bytes from `base`. -/
structure IoRegion where
  base : Nat
  size : Nat
deriving DecidableEq, Repr

/-- MISALIGNED_POLICY (R84, D18): what an access at an address that is no multiple of its size does. That one value
decides for every kind, size and address alike is the model's choice (log 65). -/
inductive MisalignedPolicy where
  /-- it is performed -/
  | perform
  /-- it raises the address-misaligned exception of its kind (code PRESUMED, log 36) -/
  | addressMisaligned
  /-- it raises the access-fault exception of its kind (code PRESUMED, log 36) -/
  | accessFault
deriving DecidableEq, Repr

/-- The parameters of the hart. Every configuration the spec allows is a value of this type; State carries one, and no
step changes it (log 1). -/
structure HartConfig where
  /-- R11 -/
  xlen : Xlen
  /-- R12 -/
  uImplemented : Bool
  /-- R13 -/
  sImplemented : Bool
  /-- R14 -/
  hImplemented : Bool
  /-- R15 -/
  satpModeReadOnlyZero : Bool
  /-- R16 -/
  fiomReadOnlyZero : Bool
  /-- R17 -/
  svpbmt : Bool
  /-- R18 -/
  svadu : Bool
  /-- R19 -/
  smcdeleg : Bool
  /-- R20 -/
  sstc : Bool
  /-- R21 -/
  zicboz : Bool
  /-- R22 -/
  zicbom : Bool
  /-- R23 -/
  forceUpgradeCboInvalToFlush : Bool
  /-- R24 -/
  smnpm : Bool
  /-- R25 -/
  zicfilp : Bool
  /-- R26 -/
  zicfiss : Bool
  /-- R27 -/
  ssdbltrp : Bool
  /-- POS_CDE of R28 -/
  posCde : Fin 64
  /-- POS_DTE of R28 -/
  posDte : Fin 64
  /-- The low bit of the two-bit range POS_PMM of R28 -/
  posPmm : Fin 63
  /-- POS_SSE of R28 -/
  posSse : Fin 64
  /-- POS_LPE of R28 -/
  posLpe : Fin 64
  /-- The number of `menvcfgh`, OPEN as CSR_MENVCFGH (D12) -/
  csrMenvcfgh : CsrNum
  /-- `region_kind` of R30: the regions ordered as device I/O; every other address is main memory -/
  ioRegions : List IoRegion
  /-- MISALIGNED_POLICY of R84 -/
  misaligned : MisalignedPolicy
  /-- The fetch-coherence rule of the base ISA (R93, D1): whether every store is seen by the next fetch (log 37) -/
  fetchCoherent : Bool
  /-- The "implementation-defined reset vector" of R261 (log 4) -/
  resetVector : XWord
  /-- The cache block of CBO.ZERO is 2^zeroBlockBits bytes; the size is not in the source (R76, log 14) -/
  zeroBlockBits : Fin 64
  /-- The cache block of CBO.CLEAN, CBO.FLUSH and CBO.INVAL is 2^manageBlockBits bytes (R76, log 14) -/
  manageBlockBits : Fin 64
  /-- "the instruction word, or zero, in the trap value register" (R231): true for the word (log 44) -/
  tvalIsWord : Bool
  /-- CSR numbers of registers of the enclosing hart that the spec does not describe (log 8) -/
  otherCsrs : List CsrNum
  /-- CSR numbers that Smcdeleg and Ssccfg add; "The source does not list them" (R177, log 9) -/
  smcdelegCsrs : List CsrNum
deriving DecidableEq, Repr

/-- The BASE configuration at the end of 92_eei_decisions.md. The values it does not name (reset vector, block size,
device regions, misaligned policy, fetch coherence, trap value, CSR lists) are the model's (logs 1, 4, 14, 36, 37, 44,
8). -/
def HartConfig.base : HartConfig where
  xlen := .rv64
  uImplemented := true
  sImplemented := true
  hImplemented := false
  satpModeReadOnlyZero := false
  fiomReadOnlyZero := false
  svpbmt := true
  svadu := true
  smcdeleg := false
  sstc := true
  zicboz := true
  zicbom := true
  forceUpgradeCboInvalToFlush := false
  smnpm := false
  zicfilp := false
  zicfiss := false
  ssdbltrp := false
  posCde := 60
  posDte := 59
  posPmm := 32
  posSse := 3
  posLpe := 2
  csrMenvcfgh := 0x31A#12
  ioRegions := []
  misaligned := .perform
  fetchCoherent := true
  resetVector := 0#64
  zeroBlockBits := 6
  manageBlockBits := 6
  tvalIsWord := true
  otherCsrs := []
  smcdelegCsrs := []

/-- What a memory access is for: it selects the page-fault kind (R233). -/
inductive AccessKind where
  | fetch
  | load
  | store
deriving DecidableEq, Repr

/-- A page-table entry as a translation meets it, reduced to what the rules read: which table it stands in, its PBMT
field (R157), its X, W and R bits in this order (R216), its A and D bits (R165, R166), where it stands and its bytes
once the needed A and D bits are set (R163). The format itself is not in the source (log 22). -/
structure Pte where
  gStage : Bool
  pbmt : BitVec 2
  xwr : BitVec 3
  a : Bool
  d : Bool
  address : XWord
  updated : List Byte
deriving DecidableEq, Repr, Inhabited

/-- The result of one walk: the physical address (64 bits at every XLEN, log 54), the PTEs used, in order, and whether
the hart's own translation rules, outside the source, end it in a page fault (`some true` for a G-stage one). -/
structure Walk where
  pa : XWord
  ptes : List Pte
  ownFault : Option Bool
deriving DecidableEq, Repr, Inhabited

/-- ELP (R75): the idle value the source names, and the other value it does not name (name PRESUMED, log 21). -/
inductive Elp where
  | noLpExpected
  | lpExpected
deriving DecidableEq, Repr, Inhabited

/-- What an activated Zicfiss or Zicfilp does, "outside the source" (R210, R212): an exception of its own, or an effect
on the shadow stack pointer, memory and ELP (logs 17, 20). -/
structure HartEffect where
  trap : Option (BitVec 6 × XWord)
  ssp : XWord
  elp : Elp
  stores : List (XWord × Byte)
deriving DecidableEq, Repr, Inhabited

namespace Config

/-! The free values (log 48). Each is indexed by the draw counter of State, so that two steps do not share a value. -/

/-- RESET_DRAW before it is made legal (R29, R66; log 2). -/
opaque resetDraw : BitVec 64

/-- A word the spec leaves open: what an atomic loads, what a CSR it does not describe reads. -/
opaque freeWord : Nat → XWord

/-- A byte of memory the spec leaves open, by draw and position (logs 10, 13). -/
opaque freeByte : Nat → Nat → Byte

/-- A coupled field when the `menvcfg` field returns to 1 (U11, log 42), and SDT after a trap return (log 30). -/
opaque freeBit : Nat → Nat → Bool

/-- The value of `svpbmt_available` a translation uses inside a PBMTE window, the old or the new one, "chosen freely per
translation" (R159, D22; log 23). -/
opaque windowPbmte : Nat → AccessKind → Bool

/-- The value of `adue_active` a translation uses inside an ADUE window (R168, D23; log 23). -/
opaque windowAdue : Nat → AccessKind → Bool

/-- A counter of the enclosing hart at the end of a step, by its number in R247: 0 is `cycle`, 2 is `instret`, 3 to 31
are `hpmcounter3` to `hpmcounter31` (log 57). -/
opaque counterDraw : Nat → Nat → BitVec 64

/-- The addresses whose bytes the fetch keeps at the end of a step, on a hart without coherent fetch (log 37). -/
opaque fetchKeeps : Nat → List Nat

/-- The addresses whose kept bytes the fetch drops at the end of a step (log 37). -/
opaque fetchDrops : Nat → List Nat

/-- The walk of the enclosing hart (D1, R88; log 22). -/
opaque walk : Nat → AccessKind → Walk

/-- The activated extensions of the enclosing hart (logs 17, 20). -/
opaque hartEffect : Nat → HartEffect

/-- ELP after a change of mode under Zicfilp (log 21). -/
opaque freeElp : Nat → Elp

/-- The `time` counter at the end of a step, before it is kept from decreasing (R270, log 32). -/
opaque timeDraw : Nat → BitVec 64

end Config

end Sys2Proof
end

