-- ==== Sys2Proof/Machine/Menvcfg.lean ====
section
/-! DEFINITION. The register `menvcfg` as a 64-bit value: its fields (R43 to R55), the writable mask (R57), the
software-write function (R125) and its legal values (R60, R66). -/

namespace Sys2Proof.Machine

/-- XLEN in bits. -/
def xlenBits (c : HartConfig) : Nat :=
  match c.xlen with
  | .rv32 => 32
  | .rv64 => 64

/-- An XLEN-bit value in its container: with XLEN = 32 the high half is 0 (R11, log 5). -/
def trunc (c : HartConfig) (v : XWord) : XWord :=
  match c.xlen with
  | .rv32 => (v.setWidth 32).setWidth 64
  | .rv64 => v

/-- `m` when the field exists, else 0. -/
def maskIf (present : Bool) (m : BitVec 64) : BitVec 64 := if present then m else 0#64

/-- WMASK (R57). -/
def wmask (c : HartConfig) : BitVec 64 :=
  maskIf c.sstc (1#64 <<< 63) ||| maskIf c.svpbmt (1#64 <<< 62) ||| maskIf c.svadu (1#64 <<< 61)
    ||| maskIf c.smcdeleg (1#64 <<< c.posCde.val) ||| maskIf c.ssdbltrp (1#64 <<< c.posDte.val)
    ||| maskIf c.zicboz (1#64 <<< 7) ||| maskIf c.zicbom ((1#64 <<< 6) ||| (3#64 <<< 4))
    ||| maskIf c.zicfiss (1#64 <<< c.posSse.val) ||| maskIf c.zicfilp (1#64 <<< c.posLpe.val)
    ||| maskIf (!c.fiomReadOnlyZero) (1#64 <<< 0)

/-- Bits 5:4, the raw CBIE field (R48). -/
def rawCbie (v : BitVec 64) : BitVec 2 := v.extractLsb' 4 2

/-- `v` with bits 5:4 replaced. -/
def setRawCbie (v : BitVec 64) (b : BitVec 2) : BitVec 64 :=
  (v &&& ~~~(3#64 <<< 4)) ||| (b.setWidth 64 <<< 4)

/-- The CBIE values a write stores: 0, 1, and 3 without FORCE_UPGRADE_CBO_INVAL_TO_FLUSH (R125, R126). -/
def cbieStorable (c : HartConfig) (b : BitVec 2) : Bool :=
  b == 0#2 || b == 1#2 || (!c.forceUpgradeCboInvalToFlush && b == 3#2)

/-- `sw_write(old, v)` of R125. -/
def swWrite (c : HartConfig) (old v : BitVec 64) : BitVec 64 :=
  let cbie := if cbieStorable c (rawCbie v) then rawCbie v else rawCbie old
  setRawCbie (v &&& wmask c) (if c.zicbom then cbie else 0#2)

/-- The legal values: the invariants (a), (b), (c) of R60, which are the law of RESET_DRAW too (R66). -/
def legalValue (c : HartConfig) (v : BitVec 64) : Bool :=
  v &&& ~~~(wmask c) == 0#64 && rawCbie v != 2#2 && (!c.forceUpgradeCboInvalToFlush || rawCbie v != 3#2)

/-! The fields. A field that is read-only zero in the configuration reads 0 (R34, R43 to R55). -/

def fieldStce (c : HartConfig) (v : BitVec 64) : Bool := c.sstc && v.getLsbD 63
def fieldPbmte (c : HartConfig) (v : BitVec 64) : Bool := c.svpbmt && v.getLsbD 62
def fieldAdue (c : HartConfig) (v : BitVec 64) : Bool := c.svadu && v.getLsbD 61
def fieldCde (c : HartConfig) (v : BitVec 64) : Bool := c.smcdeleg && v.getLsbD c.posCde.val
def fieldDte (c : HartConfig) (v : BitVec 64) : Bool := c.ssdbltrp && v.getLsbD c.posDte.val
def fieldCbze (c : HartConfig) (v : BitVec 64) : Bool := c.zicboz && v.getLsbD 7
def fieldCbcfe (c : HartConfig) (v : BitVec 64) : Bool := c.zicbom && v.getLsbD 6
def fieldCbie (c : HartConfig) (v : BitVec 64) : BitVec 2 := if c.zicbom then rawCbie v else 0#2
def fieldSse (c : HartConfig) (v : BitVec 64) : Bool := c.zicfiss && v.getLsbD c.posSse.val
def fieldLpe (c : HartConfig) (v : BitVec 64) : Bool := c.zicfilp && v.getLsbD c.posLpe.val
def fieldFiom (c : HartConfig) (v : BitVec 64) : Bool := !c.fiomReadOnlyZero && v.getLsbD 0

/-- PMM (R54): read-only zero without Smnpm; with Smnpm the configuration is refused (R24, log 38). -/
def fieldPmm (c : HartConfig) (v : BitVec 64) : BitVec 2 := if c.smnpm then v.extractLsb' c.posPmm.val 2 else 0#2

/-- The configurations that run. The spec has a model refuse two kinds: FIOM read-only zero where S-mode is implemented and
`satp.MODE` is not read-only zero ("the model refuses it", R16), and Smnpm ("with `true` the model refuses", R24, R54,
U4). Every other one runs (log 38). -/
def configLegal (c : HartConfig) : Bool :=
  (!c.fiomReadOnlyZero || !c.sImplemented || c.satpModeReadOnlyZero) && !c.smnpm

end Sys2Proof.Machine
end

