-- ==== Sys2Proof/Machine/State.lean ====
section
/-! DEFINITION. The state of the hart as plain data (INVENTORY.md, ## State), the reasons a step stops, and reset. -/

namespace Sys2Proof.Machine

/-- The privilege modes (R32, R69, R243): with the hypervisor extension `s` is HS-mode. -/
inductive Mode where
  | m
  | s
  | u
  | vs
  | vu
deriving DecidableEq, Repr

/-- The fields of `mstatus` that the spec names (R169, R222, R239); `sstatus` shows the S-level ones. `mpp` and `spp`
hold "the mode the trap came from" (R239), virtualised modes included (log 27). -/
structure Mstatus where
  mie : Bool
  mpie : Bool
  mpp : Mode
  mprv : Bool
  sie : Bool
  spie : Bool
  spp : Mode
  sdt : Bool
deriving DecidableEq, Repr

/-- Whether address-translation caches may still hold the interpretation from before a change of PBMTE or of ADUE
(R74, R159, R168), for S-stage and VS-stage tables, and for G-stage tables (R161). -/
structure Windows where
  pbmteS : Bool
  pbmteG : Bool
  adueS : Bool
  adueG : Bool
deriving DecidableEq, Repr

/-- Which kinds of region an access is ordered as accessing (R149). -/
structure RegionKinds where
  device : Bool
  memory : Bool
deriving DecidableEq, Repr

/-- An ordering requirement handed to the base memory model, which is a parameter (R89, log 41). -/
inductive OrderEvent where
  /-- FENCE with its effective sets (R146, R148) and its untouched `fm` field -/
  | fence (fm : BitVec 4) (pred succ : AccessSet)
  /-- an atomic, its aq and rl bits, and what it is ordered as accessing (R149, R150) -/
  | atomic (aq rl : Bool) (kinds : RegionKinds)
deriving DecidableEq, Repr

/-- The cache-block operations (R76, R191 to R194). -/
inductive CacheOp where
  | zero
  | clean
  | flush
  | inval
deriving DecidableEq, Repr

/-- A cache-block operation the hart performed, and the address of its block. -/
structure CacheEvent where
  op : CacheOp
  block : XWord
deriving DecidableEq, Repr

/-- The counters of R247 beside `time`; what they count and how wide they are is not in the source (log 57). -/
structure Counters where
  cycle : BitVec 64
  instret : BitVec 64
  /-- `hpmcounter3` to `hpmcounter31` -/
  hpm : Vector (BitVec 64) 29
deriving DecidableEq, Repr

/-- Memory: (address, byte) pairs, addresses strictly rising. An address that is not listed has no value (log 35). -/
abbrev Memory := List Host.Cell

/-- The hart. -/
structure State where
  /-- the implementation parameters, constant during a run -/
  cfg : HartConfig
  /-- x0 to x31 (R67) -/
  x : Vector XWord 32
  /-- R68 -/
  pc : XWord
  /-- R69 -/
  priv : Mode
  /-- the register, 64 bits at every XLEN (R40) -/
  menvcfg : BitVec 64
  windows : Windows
  mstatus : Mstatus
  /-- `vsstatus.SDT` (R222) -/
  vsSdt : Bool
  /-- R242 -/
  medeleg : XWord
  /-- the supervisor-timer bit of `mideleg` (R236, log 31) -/
  midelegSti : Bool
  /-- the supervisor-timer enable of `mie` (R236, log 31) -/
  mieStie : Bool
  /-- what software last wrote to `mip.STIP` (R184, R186) -/
  mipStip : Bool
  mtvec : XWord
  mepc : XWord
  mcause : XWord
  mtval : XWord
  stvec : XWord
  sepc : XWord
  scause : XWord
  stval : XWord
  /-- R70, R217 -/
  senvcfg : BitVec 64
  /-- R70, R71, R217, R222 -/
  henvcfg : BitVec 64
  satp : XWord
  hgatp : XWord
  /-- R181 -/
  stimecmp : BitVec 64
  /-- R181, R270 -/
  time : BitVec 64
  /-- R247 -/
  counters : Counters
  /-- R75 -/
  elp : Elp
  /-- the shadow stack pointer (R213) -/
  ssp : XWord
  /-- newest first -/
  ordering : List OrderEvent
  /-- newest first -/
  cacheOps : List CacheEvent
  mem : Memory
  /-- bytes the fetch keeps from earlier, read on a hart without coherent fetch (R93, log 37) -/
  fetchCache : Memory
  /-- the model's own counter of free values (log 48) -/
  draws : Nat
deriving DecidableEq, Repr

/-- Why the machine stops. -/
inductive Fault where
  /-- Raised by step when it fetches a byte that nothing has written. Safe: the hardware reads some value (log 35). -/
  | unwrittenFetch (address : Nat)
deriving DecidableEq, Repr

/-- Why the model answers nothing. -/
inductive Refusal where
  /-- Raised by an arm of exec whose instruction has no meaning yet; no arm is left. Safe. -/
  | notModelled (mnemonic : String)
  /-- Raised by step in a configuration that R16, R24 and R54 have a model refuse (log 38). Safe. -/
  | illegalConfiguration
  /-- Raised by CBO.INVAL below M when CBIE holds the reserved value 2, a state no run reaches (U2, log 39). Safe. -/
  | reservedCbie
  /-- Raised by step on a word that is no row of the table and none of R161, R215 and R240: an instruction of the
  enclosing hart, outside the scope (R10 (a), R114; log 34). Safe. -/
  | outsideSpec
deriving DecidableEq, Repr

/-- The hart after reset (R260, R261), for a configuration and a draw. The draw is made legal by the write rule, which
gives every legal value and no other (R66, log 2). Every register the spec gives no reset value holds 0 (log 3). -/
def State.resetOf (c : HartConfig) (draw : BitVec 64) : State where
  cfg := c
  x := Vector.replicate 32 0#64
  pc := trunc c c.resetVector
  priv := .m
  menvcfg := swWrite c 0#64 draw
  windows := ⟨false, false, false, false⟩
  mstatus := { mie := false, mpie := false, mprv := false, sie := false, spie := false, sdt := false,
               mpp := if c.uImplemented then .u else if c.sImplemented then .s else .m,
               spp := if c.uImplemented then .u else if c.sImplemented then .s else .m }
  vsSdt := false
  medeleg := 0#64
  midelegSti := false
  mieStie := false
  mipStip := false
  mtvec := 0#64
  mepc := 0#64
  mcause := 0#64
  mtval := 0#64
  stvec := 0#64
  sepc := 0#64
  scause := 0#64
  stval := 0#64
  senvcfg := 0#64
  henvcfg := 0#64
  satp := 0#64
  hgatp := 0#64
  stimecmp := 0#64
  time := 0#64
  counters := ⟨0#64, 0#64, Vector.replicate 29 0#64⟩
  elp := .noLpExpected
  ssp := 0#64
  ordering := []
  cacheOps := []
  mem := []
  fetchCache := []
  draws := 0

/-- The machine right after reset: the BASE configuration (log 1) and RESET_DRAW (log 2). -/
def State.reset : State := State.resetOf HartConfig.base Config.resetDraw

end Sys2Proof.Machine
end

