-- ==== Sys2Proof/Machine/Flags.lean ====
section
/-! DEFINITION. The hardware has no condition codes (G23, R10 (a)). What instructions test instead are the predicates
that `menvcfg` defines; this file holds all of them, and the gates of `senvcfg` and `henvcfg` beside them. -/

namespace Sys2Proof.Machine

/-- "priv < M", every mode but M (R32). -/
def Mode.belowM : Mode → Bool
  | .m => false
  | .s => true
  | .u => true
  | .vs => true
  | .vu => true

/-- A virtualised mode (R36). -/
def Mode.virt : Mode → Bool
  | .m => false
  | .s => false
  | .u => false
  | .vs => true
  | .vu => true

/-- The modes the configuration has. -/
def modeLegal (c : HartConfig) : Mode → Bool
  | .m => true
  | .s => c.sImplemented
  | .u => c.uImplemented
  | .vs => c.hImplemented
  | .vu => c.hImplemented

/-- "the least privileged supported mode" (R240). -/
def leastMode (c : HartConfig) : Mode :=
  if c.uImplemented then .u else if c.sImplemented then .s else .m

/-- `fiom_active` (R145, R151). -/
def fiomActive (s : State) : Bool := s.priv.belowM && fieldFiom s.cfg s.menvcfg

/-- `svpbmt_available` (R155). -/
def svpbmtAvailable (s : State) : Bool := fieldPbmte s.cfg s.menvcfg

/-- `adue_active` (R162). -/
def adueActive (s : State) : Bool := fieldAdue s.cfg s.menvcfg

/-- `smcdeleg_enabled` (R175). On a hart without U-mode "there is no such state" as `menvcfg` (R41): CDE is taken as 0
there (log 52). -/
def smcdelegEnabled (s : State) : Bool := s.cfg.uImplemented && fieldCde s.cfg s.menvcfg

/-- `stce_on` (R180). -/
def stceOn (s : State) : Bool := fieldStce s.cfg s.menvcfg

/-- `lp_mode` (R206). -/
def lpMode (c : HartConfig) : Mode := if c.sImplemented then .s else .u

/-- `lpe_on` (R206). -/
def lpeOn (s : State) : Bool := fieldLpe s.cfg s.menvcfg

/-- `sse_on` (R212). -/
def sseOn (s : State) : Bool := fieldSse s.cfg s.menvcfg

/-- `dte_on` (R220). -/
def dteOn (s : State) : Bool := fieldDte s.cfg s.menvcfg

/-- The fields of `senvcfg` and `henvcfg` that can be read now: FIOM 0, SSE 3, CBIE 5:4 if `cbie`, CBCFE 6, CBZE 7, and
in `henvcfg` DTE 59, ADUE 61, PBMTE 62 (positions PRESUMED, log 6), and LPE 2, which no `menvcfg` field governs (R211,
log 70). A coupled field is in the mask only while its `menvcfg` field is 1 (R71, R217, R222); DTE has no effect beyond
its own value (log 64). -/
def envMask (hyp cbie : Bool) (s : State) : BitVec 64 :=
  1#64 ||| maskIf s.cfg.zicfilp (1#64 <<< 2) ||| maskIf (sseOn s) (1#64 <<< 3) ||| maskIf cbie (3#64 <<< 4)
    ||| maskIf s.cfg.zicbom (1#64 <<< 6) ||| maskIf s.cfg.zicboz (1#64 <<< 7)
    ||| maskIf (hyp && dteOn s) (1#64 <<< 59) ||| maskIf (hyp && adueActive s) (1#64 <<< 61)
    ||| maskIf (hyp && svpbmtAvailable s) (1#64 <<< 62)

/-- What a read of `senvcfg` shows (R217). -/
def senvcfgView (s : State) : BitVec 64 := s.senvcfg &&& envMask false s.cfg.zicbom s

/-- What a read of `henvcfg` shows (R71, R217, R222). -/
def henvcfgView (s : State) : BitVec 64 := s.henvcfg &&& envMask true s.cfg.zicbom s

/-- `sstatus.SDT` as it reads: 0 while DTE is 0 (R222). -/
def sdtView (s : State) : Bool := dteOn s && s.mstatus.sdt

/-- `vsstatus.SDT` as it reads (R222). What `henvcfg.DTE` governs while `menvcfg.DTE` is 1 is not in the spec (R223, N11):
DESIGN CHOICE, `vsstatus.SDT` does not depend on it (log 64). -/
def vsSdtView (s : State) : Bool := dteOn s && s.vsSdt

/-- STIP as `mip` shows it: the comparison `time >= stimecmp` with STCE on (R181, R184), else what M-mode software last
wrote (R183, R184, R186). -/
def stipPending (s : State) : Bool := if stceOn s then decide (s.stimecmp ≤ s.time) else s.mipStip

/-- Whether Zicfiss is active in the current mode below M: S-mode by SSE, the modes below S by the fields of `senvcfg`
and `henvcfg` that SSE unlocks (R212, R219; log 16). DESIGN CHOICE: without S-mode there is no `senvcfg`, and U-mode does
not have Zicfiss (R26, log 60). -/
def shadowStackActive (s : State) : Bool :=
  sseOn s &&
    match s.priv with
    | .m => false
    | .s => true
    | .u => s.cfg.sImplemented && (senvcfgView s).getLsbD 3
    | .vs => (henvcfgView s).getLsbD 3
    | .vu => (henvcfgView s).getLsbD 3 && (senvcfgView s).getLsbD 3

/-- MODE of `satp` or `hgatp` is not 0, Bare (R36). PRESUMED: bits 63:60, with XLEN = 32 bit 31 (log 51). -/
def atpOn (c : HartConfig) (v : XWord) : Bool :=
  match c.xlen with
  | .rv32 => v.getLsbD 31
  | .rv64 => v.extractLsb' 60 4 != 0#4

end Sys2Proof.Machine
end

