-- ==== Sys2Proof/Machine/Ops.lean ====
section
/-! DEFINITION. The shared operations: registers, memory, the program counter, taking an exception or interrupt (R239,
R246) and returning from one (R240), and writing `menvcfg` with what follows from the write. -/

namespace Sys2Proof.Machine

/-! ## Registers and the program counter -/

/-- `x[i]`: x0 reads 0 (R32, R67). -/
def getReg (s : State) (r : RegIdx) : XWord := if r = 0#5 then 0#64 else trunc s.cfg (s.x[r.toNat]'r.isLt)

/-- `x[i] <- v`: a write to x0 is dropped (R32, R67). -/
def setReg (r : RegIdx) (v : XWord) (s : State) : State :=
  if r = 0#5 then s else { s with x := s.x.set r.toNat (trunc s.cfg v) r.isLt }

/-- `pc <- pc + n` (R68, R128, D3). The wrap-around is open: DESIGN CHOICE, it is modulo 2^XLEN (log 62). -/
def advance (n : Nat) (s : State) : State := { s with pc := trunc s.cfg (s.pc + BitVec.ofNat 64 n) }

/-! ## Memory -/

/-- The canonical form: addresses strictly rising. -/
def memoryWf : Memory → Bool
  | [] => true
  | [_] => true
  | (a, _) :: (b, w) :: m => decide (a < b) && memoryWf ((b, w) :: m)

/-- The byte at an address; none where nothing has been written (log 35). -/
def readByte : Memory → Nat → Option Byte
  | [], _ => none
  | (k, v) :: m, a => if a = k then some v else readByte m a

/-- Writing a byte, in place. -/
def writeByte : Memory → Nat → Byte → Memory
  | [], a, b => [(a, b)]
  | (k, v) :: m, a, b =>
    if a < k then (a, b) :: (k, v) :: m
    else if a = k then (a, b) :: m
    else (k, v) :: writeByte m a b

/-- Writing bytes at rising addresses, computed in 64 bits (log 36). -/
def writeBytes (m : Memory) (a : XWord) : List Byte → Memory
  | [] => m
  | b :: bs => writeBytes (writeByte m a.toNat b) (a + 1#64) bs

/-- Writing a list of (address, byte) pairs. -/
def writeCells (m : Memory) : List (XWord × Byte) → Memory
  | [] => m
  | (a, b) :: cs => writeCells (writeByte m a.toNat b) cs

/-- Dropping the byte at an address. -/
def dropByte : Memory → Nat → Memory
  | [], _ => []
  | (k, v) :: m, a => if k = a then m else (k, v) :: dropByte m a

/-- Dropping the bytes at a list of addresses. -/
def dropAll (m : Memory) : List Nat → Memory
  | [] => m
  | a :: as => dropAll (dropByte m a) as

/-- Dropping the `n` bytes from an address. -/
def dropBytes (m : Memory) (a : XWord) : Nat → Memory
  | 0 => m
  | n + 1 => dropBytes (dropByte m a.toNat) (a + 1#64) n

/-- `cache` with the bytes that `m` has at a list of addresses. -/
def keepBytes (m cache : Memory) : List Nat → Memory
  | [] => cache
  | a :: as =>
    match readByte m a with
    | none => keepBytes m cache as
    | some b => keepBytes m (writeByte cache a b) as

/-- Memory with every byte of `cache` in place of its own. -/
def overlay (m : Memory) : Memory → Memory
  | [] => m
  | (a, b) :: cache => overlay (writeByte m a b) cache

/-- The bytes from an address, while all of them have been written. -/
def readBytes (m : Memory) (a : XWord) : Nat → Option (List Byte)
  | 0 => some []
  | n + 1 =>
    match readByte m a.toNat with
    | none => none
    | some b =>
      match readBytes m (a + 1#64) n with
      | none => none
      | some bs => some (b :: bs)

/-- `n` bytes the spec leaves open (log 10). -/
def freeBytes (draw : Nat) : Nat → List Byte
  | 0 => []
  | n + 1 => Config.freeByte draw n :: freeBytes draw n

/-! ## Exceptions -/

/-- The exceptions (R230, R235), those of MISALIGNED_POLICY (R84; PRESUMED codes, log 36); `hart` is one that an
activated Zicfiss or Zicfilp raises (logs 17, 20). -/
inductive Exception where
  | instrAddressMisaligned
  | instrAccessFault
  | illegalInstruction
  | loadAddressMisaligned
  | loadAccessFault
  | storeAddressMisaligned
  | storeAccessFault
  | instrPageFault
  | loadPageFault
  | storePageFault
  | doubleTrap
  | instrGuestPageFault
  | loadGuestPageFault
  | virtualInstruction
  | storeGuestPageFault
  | hart (code : BitVec 6)
deriving DecidableEq, Repr

/-- Cause codes (R235). -/
def Exception.code : Exception → Nat
  | .instrAddressMisaligned => 0
  | .instrAccessFault => 1
  | .illegalInstruction => 2
  | .loadAddressMisaligned => 4
  | .loadAccessFault => 5
  | .storeAddressMisaligned => 6
  | .storeAccessFault => 7
  | .instrPageFault => 12
  | .loadPageFault => 13
  | .storePageFault => 15
  | .doubleTrap => 16
  | .instrGuestPageFault => 20
  | .loadGuestPageFault => 21
  | .virtualInstruction => 22
  | .storeGuestPageFault => 23
  | .hart c => c.toNat

/-- The supervisor timer interrupt (R236). -/
def supervisorTimerCode : Nat := 5

/-- `mcause` or `scause`: the code, "top bit 1 for an interrupt" (R239). -/
def causeWord (c : HartConfig) (interrupt : Bool) (code : Nat) : XWord :=
  trunc c (BitVec.ofNat 64 code) ||| maskIf interrupt (1#64 <<< (xlenBits c - 1))

/-- The handler's address: BASE, "plus 4 * code for an interrupt in vectored mode" (R239). PRESUMED: BASE is the vector
register with bits 1:0 zero, vectored mode is bits 1:0 = 1 (log 6). -/
def handlerPc (c : HartConfig) (tvec : XWord) (interrupt : Bool) (code : Nat) : XWord :=
  trunc c ((tvec &&& ~~~3#64)
    + maskIf (interrupt && tvec.extractLsb' 0 2 == 1#2) (BitVec.ofNat 64 (4 * code)))

/-- ELP on entering a mode: the governed mode with LPE off holds NO_LP_EXPECTED, and nothing executed in it changes ELP
(R209); otherwise Zicfilp decides, outside the source, a free value (log 21). -/
def elpEntering (mode : Mode) (s : State) : Elp :=
  if mode = lpMode s.cfg ∧ lpeOn s = false then .noLpExpected
  else if s.priv = lpMode s.cfg ∧ lpeOn s = false then s.elp
  else if s.cfg.zicfilp then Config.freeElp s.draws
  else s.elp

/-- A trap taken to M-mode (R239). -/
def enterM (interrupt : Bool) (code : Nat) (tval : XWord) (s : State) : State :=
  { s with
    mepc := s.pc
    mcause := causeWord s.cfg interrupt code
    mtval := tval
    mstatus := { s.mstatus with mpp := s.priv, mpie := s.mstatus.mie, mie := false }
    priv := .m
    elp := elpEntering .m s
    pc := handlerPc s.cfg s.mtvec interrupt code }

/-- A trap taken to S-mode (R239); with DTE on it sets SDT (R223). -/
def enterS (interrupt : Bool) (code : Nat) (tval : XWord) (s : State) : State :=
  { s with
    sepc := s.pc
    scause := causeWord s.cfg interrupt code
    stval := tval
    mstatus := { s.mstatus with
                 spp := s.priv, spie := s.mstatus.sie, sie := false, sdt := s.mstatus.sdt || dteOn s }
    priv := .s
    elp := elpEntering .s s
    pc := handlerPc s.cfg s.stvec interrupt code }

/-- TAKING AN EXCEPTION OR INTERRUPT (log 26). To M-mode, or to S-mode where it is delegated; a trap that would be
taken into S-mode while SDT is set is a double trap, delivered to M-mode (R223, R234, R240). What the double trap
records in `mtval` is not stated: a free value (log 29). -/
def takeTrap (toS interrupt : Bool) (code : Nat) (tval : XWord) (s : State) : State :=
  if toS then
    if sdtView s then enterM false Exception.doubleTrap.code (trunc s.cfg (Config.freeWord s.draws)) s
    else enterS interrupt code tval s
  else enterM interrupt code tval s

/-- Whether an exception is delegated to S-mode: by `medeleg`, from a mode below M (R242, log 28). -/
def delegated (code : Nat) (s : State) : Bool := s.cfg.sImplemented && s.priv.belowM && s.medeleg.getLsbD code

/-- `raise E(info)` (R246): nothing but the trap happens. -/
def raise (e : Exception) (info : XWord) (s : State) : State := takeTrap (delegated e.code s) false e.code info s

/-- What an illegal or virtual instruction records: "the instruction word, or zero" (R231, log 44). -/
def instrInfo (c : HartConfig) (word : BitVec 32) : XWord := if c.tvalIsWord then word.setWidth 64 else 0#64

/-- `raise IllegalInstruction(instruction word)`, as an outcome. -/
def illegal (word : BitVec 32) (s : State) : Host.Outcome State Fault Refusal :=
  .next (raise .illegalInstruction (instrInfo s.cfg word) s)

/-! ## Returns -/

/-- SDT after a return: R240 does not say; a free value while DTE is on (log 30). -/
def sdtAfterReturn (s : State) : Bool := if dteOn s then Config.freeBit s.draws 0 else s.mstatus.sdt

/-- The mode that SRET in VS-mode enters, a free choice of the two (log 33). -/
def virtualReturnMode (s : State) : Mode := if Config.freeBit s.draws 9 then .vs else .vu

/-- MRET (R240). PRESUMED: leaving M-mode clears MPRV (log 25). -/
def trapReturnM (s : State) : State :=
  { s with
    priv := s.mstatus.mpp
    pc := trunc s.cfg s.mepc
    elp := elpEntering s.mstatus.mpp s
    mstatus := { s.mstatus with
                 mie := s.mstatus.mpie, mpie := true, mpp := leastMode s.cfg,
                 mprv := s.mstatus.mprv && s.mstatus.mpp == .m, sdt := sdtAfterReturn s } }

/-- SRET: "likewise with the S-level fields" (R240). PRESUMED: it clears MPRV (log 25). -/
def trapReturnS (s : State) : State :=
  { s with
    priv := s.mstatus.spp
    pc := trunc s.cfg s.sepc
    elp := elpEntering s.mstatus.spp s
    mstatus := { s.mstatus with
                 sie := s.mstatus.spie, spie := true, spp := leastMode s.cfg, mprv := false, sdt := sdtAfterReturn s } }

/-- SRET in VS-mode: the mode, `pc` and the enables come from the virtual supervisor's own registers, of which the spec
has only `vsstatus.SDT`: VS or VU, a free `pc`, and SDT as after any return (R240; logs 30, 33). -/
def trapReturnV (s : State) : State :=
  { s with
    priv := virtualReturnMode s
    pc := trunc s.cfg (Config.freeWord s.draws)
    elp := elpEntering (virtualReturnMode s) s
    vsSdt := if dteOn s then Config.freeBit s.draws 8 else s.vsSdt
    mstatus := { s.mstatus with mprv := false } }

/-! ## Writing `menvcfg` -/

/-- A field that goes from 0 to 1. -/
def rises (field : BitVec 64 → Bool) (old new : BitVec 64) : Bool := !field old && field new

/-- Bit `pos` of `v` replaced by a free bit where `on` holds. -/
def drawBit (on : Bool) (pos : Nat) (bit : Bool) (v : BitVec 64) : BitVec 64 :=
  if on then (v &&& ~~~(1#64 <<< pos)) ||| maskIf bit (1#64 <<< pos) else v

/-- `henvcfg` after a write of `menvcfg`: a coupled field whose `menvcfg` field returns to 1 is a draw (U11, D29). -/
def coupledHenvcfg (new : BitVec 64) (s : State) : BitVec 64 :=
  drawBit (rises (fieldPbmte s.cfg) s.menvcfg new) 62 (Config.freeBit s.draws 1)
    (drawBit (rises (fieldAdue s.cfg) s.menvcfg new) 61 (Config.freeBit s.draws 2)
      (drawBit (rises (fieldDte s.cfg) s.menvcfg new) 59 (Config.freeBit s.draws 3)
        (drawBit (rises (fieldSse s.cfg) s.menvcfg new) 3 (Config.freeBit s.draws 4) s.henvcfg)))

/-- The windows after a write of `menvcfg`: a change of PBMTE or ADUE opens them (R159, R168), the G-stage ones only
with the hypervisor extension (R161). -/
def openedWindows (new : BitVec 64) (s : State) : Windows :=
  let pbmte := fieldPbmte s.cfg s.menvcfg != fieldPbmte s.cfg new
  let adue := fieldAdue s.cfg s.menvcfg != fieldAdue s.cfg new
  { pbmteS := s.windows.pbmteS || pbmte
    pbmteG := s.windows.pbmteG || (s.cfg.hImplemented && pbmte)
    adueS := s.windows.adueS || adue
    adueG := s.windows.adueG || (s.cfg.hImplemented && adue) }

/-- `menvcfg <- sw_write(menvcfg, v)` (R124, R125), the windows it opens and the coupled fields it frees. -/
def writeMenvcfg (v : BitVec 64) (s : State) : State :=
  let new := swWrite s.cfg s.menvcfg v
  { s with
    menvcfg := new
    windows := openedWindows new s
    henvcfg := coupledHenvcfg new s
    senvcfg := drawBit (rises (fieldSse s.cfg) s.menvcfg new) 3 (Config.freeBit s.draws 5) s.senvcfg
    mstatus := { s.mstatus with
                 sdt := if rises (fieldDte s.cfg) s.menvcfg new then Config.freeBit s.draws 6 else s.mstatus.sdt }
    vsSdt := if rises (fieldDte s.cfg) s.menvcfg new then Config.freeBit s.draws 7 else s.vsSdt }

end Sys2Proof.Machine
end

