-- ==== Sys2Proof/Machine/Operands.lean ====
section
/-! DEFINITION. The operand forms: a register, a zero-extended immediate (R109), a CSR number with the rights it encodes
(R111), the half of a 64-bit register that a CSR number reaches (R61 to R63), and a memory operand, translated where
the mode's accesses are (R155 to R170, R216). -/

namespace Sys2Proof.Machine

/-- `zext_XLEN(uimm)` (R109). -/
def uimmValue (uimm : RegIdx) : XWord := uimm.setWidth 64

/-! ## CSR numbers -/

/-- Bits 11:10 of a CSR number are 11 for a read-only one (R111). -/
def csrReadOnly (n : CsrNum) : Bool := n.extractLsb' 10 2 == 3#2

/-- Bits 9:8: "the lowest privilege that may access it" (R111). -/
def csrLevel (n : CsrNum) : Nat := (n.extractLsb' 8 2).toNat

/-- The level of a mode in the order of R111: U 0, S 1, hypervisor 2, M 3. With H, S-mode is HS-mode (R243). -/
def modeLevel (c : HartConfig) : Mode → Nat
  | .m => 3
  | .s => if c.hImplemented then 2 else 1
  | .u => 0
  | .vs => 1
  | .vu => 0

/-! ## The halves of a 64-bit CSR -/

/-- The view through the base number: all 64 bits, with XLEN = 32 bits 31:0 (R61, R123). -/
def lowView (c : HartConfig) (v : BitVec 64) : XWord := trunc c v

/-- The view through the number of the upper half: bits 63:32 (R62, R123). -/
def highView (v : BitVec 64) : XWord := (v.extractLsb' 32 32).setWidth 64

/-- The 64-bit value a write of `w` through the base number presents: with XLEN = 32 the upper half "presented as it
is" (R124). -/
def presentLow (c : HartConfig) (old : BitVec 64) (w : XWord) : BitVec 64 :=
  match c.xlen with
  | .rv32 => old.extractLsb' 32 32 ++ w.extractLsb' 0 32
  | .rv64 => w

/-- The 64-bit value a write of `w` through the upper number presents: the lower half "presented as it is" (R124). -/
def presentHigh (old : BitVec 64) (w : XWord) : BitVec 64 := w.extractLsb' 0 32 ++ old.extractLsb' 0 32

/-! ## Shadow-stack operands -/

/-- The exception where Zicfiss is not active below M, for SSAMOSWAP (R218) and for an access to `ssp`: an illegal
instruction with SSE = 0 and on a hart without Zicfiss (log 46); where SSE = 1 and a lower register withholds it from a
virtualised mode, a virtual instruction, by the rule of R195 (PRESUMED, logs 16, 69). -/
def zicfissDenied (s : State) : Exception :=
  if sseOn s && s.priv.virt then .virtualInstruction else .illegalInstruction

/-! ## Memory operands -/

/-- The mode whose privilege a data access has: "M-mode loads and stores made with the privilege of a lower mode"
(R169). PRESUMED: MPRV with MPP (log 25). -/
def dataMode (s : State) : Mode := if s.priv = .m ∧ s.mstatus.mprv = true then s.mstatus.mpp else s.priv

/-- Whether the accesses of a mode are translated: S and U while `satp.MODE` is not Bare (R169). In a virtualised mode
the walk decides which of the two stages there is (R82, log 22). -/
def translationOn (mode : Mode) (s : State) : Bool :=
  match mode with
  | .m => false
  | .s => atpOn s.cfg s.satp
  | .u => s.cfg.sImplemented && atpOn s.cfg s.satp
  | .vs => true
  | .vu => true

/-- The table a PTE stands in: S-stage, or with V = 1 VS-stage or G-stage (R82). -/
inductive Stage where
  | s
  | vs
  | g
deriving DecidableEq, Repr

def stageOf (virt : Bool) (p : Pte) : Stage := if virt then (if p.gStage then .g else .vs) else .s

/-- The page-fault exception of an access, by kind and stage (R233). -/
def pageFault (kind : AccessKind) (gStage : Bool) : Exception :=
  match kind, gStage with
  | .fetch, false => .instrPageFault
  | .load, false => .loadPageFault
  | .store, false => .storePageFault
  | .fetch, true => .instrGuestPageFault
  | .load, true => .loadGuestPageFault
  | .store, true => .storeGuestPageFault

/-- Whether Svpbmt is available for a stage (R155, R156, R158); in an open window the one value the translation uses, old
or new (R159), for the VS-stage whatever `henvcfg` holds (log 23). A change of `henvcfg` is seen at once (log 53). An
accepted PBMT field has no effect on the access (log 56). -/
def svpbmtFor (kind : AccessKind) (stage : Stage) (s : State) : Bool :=
  s.cfg.svpbmt &&
    match stage with
    | .s => if s.windows.pbmteS then Config.windowPbmte s.draws kind else svpbmtAvailable s
    | .vs => if s.windows.pbmteS then Config.windowPbmte s.draws kind else (henvcfgView s).getLsbD 62
    | .g => if s.windows.pbmteG then Config.windowPbmte s.draws kind else svpbmtAvailable s

/-- Whether hardware updates A and D bits for a stage (R162 to R165, R167); in an open window the one value the
translation uses, old or new (R168), for the VS-stage whatever `henvcfg` holds (log 23). A change of `henvcfg` is seen at
once (log 53). -/
def adueFor (kind : AccessKind) (stage : Stage) (s : State) : Bool :=
  s.cfg.svadu &&
    match stage with
    | .s => if s.windows.adueS then Config.windowAdue s.draws kind else adueActive s
    | .vs => if s.windows.adueS then Config.windowAdue s.draws kind else (henvcfgView s).getLsbD 61
    | .g => if s.windows.adueG then Config.windowAdue s.draws kind else adueActive s

/-- A PTE encoding that is reserved now: PBMT bits set without Svpbmt (R157), or xwr = 010 in a VS/S-stage table with
SSE = 0 (R216). DESIGN CHOICE: with SSE = 1 it is not reserved in a VS-stage table either, whatever `henvcfg.SSE` holds
(log 68). -/
def pteReserved (kind : AccessKind) (stage : Stage) (p : Pte) (s : State) : Bool :=
  (p.pbmt != 0#2 && !svpbmtFor kind stage s) || (stage != .g && p.xwr == 0b010#3 && !sseOn s)

/-- A or D "need be set": A for any access, D for a store or AMO (R166). DESIGN CHOICE: the kind is that of the instruction's
own access for a G-stage PTE too, also where the hart writes a VS-stage PTE through it (log 22). -/
def needsAd (kind : AccessKind) (p : Pte) : Bool := !p.a || (kind == .store && !p.d)

/-- One PTE of a translation: a page fault for a reserved encoding (R157, R216) and for a needed A or D bit without
hardware updating (R165); with it, the bits are set in memory and the access goes on (R163, R164). -/
def checkPte (kind : AccessKind) (virt : Bool) (p : Pte) (s : State) : Except Exception State :=
  let stage := stageOf virt p
  if pteReserved kind stage p s then .error (pageFault kind (stage == .g))
  else if needsAd kind p then
    if adueFor kind stage s then .ok { s with mem := writeBytes s.mem p.address p.updated }
    else .error (pageFault kind (stage == .g))
  else .ok s

/-- The PTEs of a translation, in order. DESIGN CHOICE: where one page-faults, the A and D bits of those before it are not
set (R170, log 73). -/
def checkPtes (kind : AccessKind) (virt : Bool) : List Pte → State → Except Exception State
  | [], s => .ok s
  | p :: ps, s =>
    match checkPte kind virt p s with
    | .error e => .error e
    | .ok s' => checkPtes kind virt ps s'

/-- Translating an address: the physical address, and the state with A and D bits set, or a page fault. DESIGN CHOICE: a
translation that page-faults sets no bit, and one that answers sets all it needs at once, before the access (R170, log
73). -/
def translate (kind : AccessKind) (mode : Mode) (va : XWord) (s : State) : Except Exception (XWord × State) :=
  if translationOn mode s then
    let walk := Config.walk s.draws kind
    match checkPtes kind mode.virt walk.ptes s with
    | .error e => .error e
    | .ok s' =>
      match walk.ownFault with
      | some g => .error (pageFault kind (mode.virt && g))
      | none => .ok (walk.pa, s')
  else .ok (va, s)

/-- MISALIGNED_POLICY (R84): the exception of an access of `n` bytes, or none where it is aligned or performed. The codes
are PRESUMED (log 36); that one value decides for every access is the model's choice (log 65). -/
def misalignedFault (c : HartConfig) (kind : AccessKind) (n : Nat) (va : XWord) : Option Exception :=
  if va.toNat % n = 0 then none
  else
    match c.misaligned, kind with
    | .perform, _ => none
    | .addressMisaligned, .fetch => some .instrAddressMisaligned
    | .addressMisaligned, .load => some .loadAddressMisaligned
    | .addressMisaligned, .store => some .storeAddressMisaligned
    | .accessFault, .fetch => some .instrAccessFault
    | .accessFault, .load => some .loadAccessFault
    | .accessFault, .store => some .storeAccessFault

/-- A memory operand of `n` bytes: its alignment, then its translation in the mode the access has. DESIGN CHOICE:
an access performed misaligned is translated once, at its first byte, and goes on in physical memory, also across a page
(R84, R233; log 24). -/
def dataAccess (kind : AccessKind) (n : Nat) (va : XWord) (s : State) : Except Exception (XWord × State) :=
  match misalignedFault s.cfg kind n va with
  | some e => .error e
  | none => translate kind (dataMode s) va s

/-- `region_kind(address) = device_io` (R30), by the physical address alone: what memory type a PBMT value selects is not
in the source (R156, log 56). -/
def isDevice (c : HartConfig) (pa : XWord) : Bool :=
  c.ioRegions.any fun r => decide (r.base ≤ pa.toNat) && decide (pa.toNat < r.base + r.size)

/-- The size of the block an operation acts on, as a power of two; CBO.ZERO may have a size of its own (R76, log 14). -/
def blockBits (op : CacheOp) (c : HartConfig) : Nat :=
  match op with
  | .zero => c.zeroBlockBits.val
  | .clean => c.manageBlockBits.val
  | .flush => c.manageBlockBits.val
  | .inval => c.manageBlockBits.val

/-- The address of "the block of x[rs1]" (R191, log 14): the aligned block of physical memory around it (log 66). -/
def blockBase (op : CacheOp) (c : HartConfig) (pa : XWord) : XWord := (pa >>> blockBits op c) <<< blockBits op c

end Sys2Proof.Machine
end

