-- ==== Sys2Proof/Machine/Atomic.lean ====
section
/-! DEFINITION. The atomics (R149, R150). What they load and store is base semantics, "outside the source": free values
(log 10). -/

namespace Sys2Proof.Machine

/-- What an atomic is ordered as accessing: with `fiom_active`, to a device I/O region, and with aq or rl, "both device
I/O and memory" (R149); otherwise the kind of its own region (R150).
DESIGN CHOICE: its region is that of its first byte, also where a misaligned one reaches into another (log 67). -/
def orderedKinds (s : State) (pa : XWord) (aq rl : Bool) : RegionKinds :=
  if isDevice s.cfg pa then { device := true, memory := fiomActive s && (aq || rl) }
  else { device := false, memory := true }

/-- LR only loads (PRESUMED: funct5 00010); every other atomic may store (log 12). -/
def atomicKind (funct5 : BitVec 5) : AccessKind := if funct5 = 0b00010#5 then .load else .store

/-- Memory after an atomic of `n` bytes: the bytes it may store are free (log 10); LR stores nothing (log 12). -/
def atomicMemory (n : Nat) (kind : AccessKind) (pa : XWord) (draw : Nat) (m : Memory) : Memory :=
  match kind with
  | .store => writeBytes m pa (freeBytes draw n)
  | .load => m
  | .fetch => m

/-- An atomic of `n` bytes at the address in `rs1`: its operand is aligned or MISALIGNED_POLICY decides (R84), and
translated at its first byte (log 24), the address a page fault records; the bytes stored and `rd` take free values, and
the base ordering model is told its aq, rl and kinds (log 10). -/
def atomicAccess (n : Nat) (kind : AccessKind) (aq rl : Bool) (rs1 rd : RegIdx) (s : State) :
    Host.Outcome State Fault Refusal :=
  match dataAccess kind n (getReg s rs1) s with
  | .error e => .next (raise e (getReg s rs1) s)
  | .ok (pa, s') =>
    .next (advance 4 (setReg rd (Config.freeWord s.draws)
      { s' with
        mem := atomicMemory n kind pa s.draws s'.mem
        ordering := .atomic aq rl (orderedKinds s pa aq rl) :: s'.ordering }))

/-- A word-sized atomic (R149). -/
def execAmoW (funct5 : BitVec 5) (aq rl : Bool) (_rs2 rs1 rd : RegIdx) (s : State) :
    Host.Outcome State Fault Refusal :=
  atomicAccess 4 (atomicKind funct5) aq rl rs1 rd s

/-- A doubleword-sized atomic (R149); with XLEN = 32 there is none (log 46). -/
def execAmoD (funct5 : BitVec 5) (aq rl : Bool) (rs2 rs1 rd : RegIdx) (s : State) :
    Host.Outcome State Fault Refusal :=
  match s.cfg.xlen with
  | .rv32 => illegal (encodeWord (.amoD funct5 aq rl rs2 rs1 rd)) s
  | .rv64 => atomicAccess 8 (atomicKind funct5) aq rl rs1 rd s

end Sys2Proof.Machine
end

