-- ==== Sys2Proof/Machine/Cbo.lean ====
section
/-! DEFINITION. The cache-block instructions (R190 to R198): the enables of `menvcfg` in every mode below M, the further
gates of `senvcfg` and `henvcfg`, and the operation on the block. -/

namespace Sys2Proof.Machine

/-- The exception that keeps a cache-block instruction from executing, or none: M-mode is not governed; a 0 in `menvcfg`
is an illegal instruction in every mode below M (R190, R195); where `menvcfg` enables it, a 0 in `senvcfg` stops U-mode
under S-mode, and in `henvcfg` or `senvcfg` a virtualised mode, the latter with a virtual-instruction exception
(R190, R195, G19; log 16). -/
def cboDenied (mEnabled sEnabled hEnabled : Bool) (s : State) : Option Exception :=
  match s.priv with
  | .m => none
  | .s => if mEnabled then none else some .illegalInstruction
  | .u => if mEnabled && (!s.cfg.sImplemented || sEnabled) then none else some .illegalInstruction
  | .vs => if mEnabled then (if hEnabled then none else some .virtualInstruction) else some .illegalInstruction
  | .vu =>
    if mEnabled then (if hEnabled && sEnabled then none else some .virtualInstruction)
    else some .illegalInstruction

/-- Memory after an operation (log 13): zero writes 0 to the block, clean and flush leave what the hart reads, and an
invalidate "may discard the dirty data" (R194), so its bytes are free. -/
def blockEffect (op : CacheOp) (block : XWord) (s : State) : Memory :=
  match op with
  | .zero => writeBytes s.mem block (List.replicate (2 ^ blockBits op s.cfg) 0#8)
  | .clean => s.mem
  | .flush => s.mem
  | .inval => writeBytes s.mem block (freeBytes s.draws (2 ^ blockBits op s.cfg))

/-- Performing an operation on the block of x[rs1], a translated access (log 15). DESIGN CHOICE: x[rs1] is translated once
and the block lies in physical memory around the result, also where it is larger than a page (log 66). Its own faults
"are not in the source" (R191), and every address is memory (log 54). -/
def cboPerform (op : CacheOp) (rs1 : RegIdx) (s : State) : Host.Outcome State Fault Refusal :=
  match translate .store (dataMode s) (getReg s rs1) s with
  | .error e => .next (raise e (getReg s rs1) s)
  | .ok (pa, s') =>
    .next (advance 4
      { s' with
        mem := blockEffect op (blockBase op s.cfg pa) s'
        cacheOps := ⟨op, blockBase op s.cfg pa⟩ :: s'.cacheOps })

/-- A cache-block instruction: absent with its extension (log 46), then the enable check, which comes before the address
is translated (R198), then the operation. -/
def cboGuarded (word : BitVec 32) (present : Bool) (denied : Option Exception) (op : CacheOp) (rs1 : RegIdx)
    (s : State) : Host.Outcome State Fault Refusal :=
  if present then
    match denied with
    | some e => .next (raise e (instrInfo s.cfg word) s)
    | none => cboPerform op rs1 s
  else illegal word s

/-- Whether `senvcfg` and `henvcfg` enable CBO.ZERO (bit 7, log 16). -/
def lowerCbze (v : BitVec 64) : Bool := v.getLsbD 7

/-- Whether they enable CBO.CLEAN and CBO.FLUSH (bit 6, log 16). -/
def lowerCbcfe (v : BitVec 64) : Bool := v.getLsbD 6

/-- Whether they enable CBO.INVAL (bits 5:4 not 0, log 16). -/
def lowerCbie (v : BitVec 64) : Bool := rawCbie v != 0#2

/-- The operation CBO.INVAL performs: below M by CBIE, 1 a flush and 3 an invalidate; in M-mode an invalidate, upgraded
to a flush under FORCE_UPGRADE_CBO_INVAL_TO_FLUSH (R194, R197). -/
def invalOp (s : State) : CacheOp :=
  if s.priv.belowM then (if fieldCbie s.cfg s.menvcfg = 1#2 then .flush else .inval)
  else if s.cfg.forceUpgradeCboInvalToFlush then .flush else .inval

/-- CBO.ZERO (R191). -/
def execCboZero (rs1 : RegIdx) (s : State) : Host.Outcome State Fault Refusal :=
  cboGuarded (encodeWord (.cboZero rs1)) s.cfg.zicboz
    (cboDenied (fieldCbze s.cfg s.menvcfg) (lowerCbze (senvcfgView s)) (lowerCbze (henvcfgView s)) s) .zero rs1 s

/-- CBO.CLEAN (R192). -/
def execCboClean (rs1 : RegIdx) (s : State) : Host.Outcome State Fault Refusal :=
  cboGuarded (encodeWord (.cboClean rs1)) s.cfg.zicbom
    (cboDenied (fieldCbcfe s.cfg s.menvcfg) (lowerCbcfe (senvcfgView s)) (lowerCbcfe (henvcfgView s)) s) .clean rs1 s

/-- CBO.FLUSH (R193): the same bit as CBO.CLEAN. -/
def execCboFlush (rs1 : RegIdx) (s : State) : Host.Outcome State Fault Refusal :=
  cboGuarded (encodeWord (.cboFlush rs1)) s.cfg.zicbom
    (cboDenied (fieldCbcfe s.cfg s.menvcfg) (lowerCbcfe (senvcfgView s)) (lowerCbcfe (henvcfgView s)) s) .flush rs1 s

/-- CBO.INVAL (R194). CBIE = 2 below M "cannot occur"; a state that holds it is refused (U2, log 39). -/
def execCboInval (rs1 : RegIdx) (s : State) : Host.Outcome State Fault Refusal :=
  if s.priv.belowM && fieldCbie s.cfg s.menvcfg == 2#2 then .refused .reservedCbie
  else
    cboGuarded (encodeWord (.cboInval rs1)) s.cfg.zicbom
      (cboDenied (fieldCbie s.cfg s.menvcfg != 0#2) (lowerCbie (senvcfgView s)) (lowerCbie (henvcfgView s)) s)
      (invalOp s) rs1 s

end Sys2Proof.Machine
end

