-- ==== Sys2Proof/Machine/CsrFile.lean ====
section
/-! DEFINITION. The CSR space (R80, R110, R111): which register a number names, who may access it, what a read shows and
what a write stores. -/

namespace Sys2Proof.Machine

/-- The registers reached by CSR number. -/
inductive CsrReg where
  | menvcfg
  | menvcfgh
  | stimecmp
  | stimecmph
  | senvcfg
  | henvcfg
  | henvcfgh
  | satp
  | hgatp
  | mstatus
  | sstatus
  | vsstatus
  | medeleg
  | mideleg
  | mie
  | sie
  | mip
  | sip
  | mtvec
  | mepc
  | mcause
  | mtval
  | stvec
  | sepc
  | scause
  | stval
  | time
  | timeh
  /-- a counter of R247 by its number, and its upper half -/
  | counter (k : BitVec 5)
  | counterh (k : BitVec 5)
  | ssp
  /-- a register of the enclosing hart that the spec does not describe (logs 8, 9, 43) -/
  | hart
deriving DecidableEq, Repr

/-- `r` when it exists, else none. -/
def existsIf (present : Bool) (r : CsrReg) : Option CsrReg := if present then some r else none

/-- XLEN = 32, where the upper halves exist (R62, R63). -/
def isRv32 (c : HartConfig) : Bool :=
  match c.xlen with
  | .rv32 => true
  | .rv64 => false

/-- The register a number names, and whether the hart has it. The numbers of the first nine are R110's; the others are
PRESUMED (log 6). That `stimecmp` needs Sstc is R185's; what the registers beside `menvcfg`, `menvcfgh` and `stimecmp`
need, and that `henvcfgh` reaches bits 63:32 of `henvcfg`, is PRESUMED (log 63). DESIGN CHOICE: `stimecmp` exists with
Sstc also without S-mode (log 61). A number that CSR_MENVCFGH shares with another register is that of `menvcfgh` (R63, log
38), but for 0x30A, which stays that of `menvcfg`: such a hart has no number of `menvcfgh` (R1, DESIGN CHOICE, log 38). -/
def csrNamed (n : CsrNum) (c : HartConfig) : Option (Bool × CsrReg) :=
  if n = 0x30A#12 then some (c.uImplemented, .menvcfg)
  else if n = c.csrMenvcfgh then some (c.uImplemented && isRv32 c, .menvcfgh)
  else if n = 0x14D#12 then some (c.sstc, .stimecmp)
  else if n = 0x15D#12 then some (c.sstc && isRv32 c, .stimecmph)
  else if n = 0x10A#12 then some (c.sImplemented, .senvcfg)
  else if n = 0x60A#12 then some (c.hImplemented, .henvcfg)
  else if n = 0x61A#12 then some (c.hImplemented && isRv32 c, .henvcfgh)
  else if n = 0x180#12 then some (c.sImplemented, .satp)
  else if n = 0x680#12 then some (c.hImplemented, .hgatp)
  else if n = 0x300#12 then some (true, .mstatus)
  else if n = 0x302#12 then some (c.sImplemented, .medeleg)
  else if n = 0x303#12 then some (c.sImplemented, .mideleg)
  else if n = 0x304#12 then some (true, .mie)
  else if n = 0x305#12 then some (true, .mtvec)
  else if n = 0x341#12 then some (true, .mepc)
  else if n = 0x342#12 then some (true, .mcause)
  else if n = 0x343#12 then some (true, .mtval)
  else if n = 0x344#12 then some (true, .mip)
  else if n = 0x100#12 then some (c.sImplemented, .sstatus)
  else if n = 0x104#12 then some (c.sImplemented, .sie)
  else if n = 0x105#12 then some (c.sImplemented, .stvec)
  else if n = 0x141#12 then some (c.sImplemented, .sepc)
  else if n = 0x142#12 then some (c.sImplemented, .scause)
  else if n = 0x143#12 then some (c.sImplemented, .stval)
  else if n = 0x144#12 then some (c.sImplemented, .sip)
  else if n = 0x200#12 then some (c.hImplemented, .vsstatus)
  else if n = 0xC01#12 then some (true, .time)
  else if n = 0xC81#12 then some (isRv32 c, .timeh)
  else if n.extractLsb' 5 7 = 0b1100000#7 then some (true, .counter (n.extractLsb' 0 5))
  else if n.extractLsb' 5 7 = 0b1100100#7 then some (isRv32 c, .counterh (n.extractLsb' 0 5))
  else if n = 0x011#12 then some (c.zicfiss, .ssp)
  else none

/-- The register that a CSR instruction reaches, none where it "does not exist" (R121): `menvcfg` without U-mode (R41),
`menvcfgh` without U-mode or with XLEN = 64 (R63), `stimecmp` without Sstc (R185), what Smcdeleg adds while CDE is 0
(R177), and a number of no register. -/
def csrLookup (n : CsrNum) (s : State) : Option CsrReg :=
  match csrNamed n s.cfg with
  | some (present, r) => existsIf present r
  | none =>
    if n ∈ s.cfg.smcdelegCsrs then existsIf (smcdelegEnabled s) .hart
    else if n ∈ s.cfg.otherCsrs then some .hart
    else none

/-- In VS-mode an S-level number reaches the virtual supervisor's own copy. The spec has only `vsstatus`; the other
copies are registers of the enclosing hart (PRESUMED, log 43). Of `senvcfg` there is no such copy: in VS-mode its number
reaches the hart's one `senvcfg`, which governs VU-mode too (R70 is silent, PRESUMED, log 43). -/
def substituted (mode : Mode) (r : CsrReg) : CsrReg :=
  if mode = .vs then
    match r with
    | .sstatus => .vsstatus
    | .stimecmp => .hart
    | .stimecmph => .hart
    | .satp => .hart
    | .sie => .hart
    | .sip => .hart
    | .stvec => .hart
    | .sepc => .hart
    | .scause => .hart
    | .stval => .hart
    | other => other
  else r

/-- The exception of an access, or none: existence (R121), the privilege of the register (R120), the STCE rule (R182),
the rights the number encodes (R111): that a write of a read-only number is an illegal instruction is PRESUMED (log
55). From a virtualised mode a hypervisor or supervisor CSR gives a virtual-instruction exception (G16, log 43). The
shadow stack pointer below M needs an active Zicfiss (PRESUMED, log 6), else the access raises the exception of
`zicfissDenied` (PRESUMED, log 69). DESIGN CHOICE: a register that the spec does not describe, one that Smcdeleg adds with
CDE = 1 among them (R176, N9), has no check of its own (logs 8, 9), and with STCE = 1 no further gate of the hypervisor, such
as a bit of `henvcfg`, stops `stimecmp` in VS-mode (R182, N29, D28; log 75). -/
def csrDenied (n : CsrNum) (writes : Bool) (s : State) : Option Exception :=
  match csrLookup n s with
  | none => some .illegalInstruction
  | some r =>
    if (r == .menvcfg || r == .menvcfgh) && s.priv.belowM then some .illegalInstruction
    else if (r == .stimecmp || r == .stimecmph) && s.priv.belowM && !stceOn s then some .illegalInstruction
    else if writes && csrReadOnly n then some .illegalInstruction
    else if modeLevel s.cfg s.priv < csrLevel n then
      if s.priv.virt && csrLevel n != 3 then some .virtualInstruction else some .illegalInstruction
    else if r == .ssp && s.priv.belowM && !shadowStackActive s then some (zicfissDenied s)
    else none

/-- The counter of a number of R247: 0 `cycle`, 1 `time`, 2 `instret`, 3 to 31 `hpmcounter3` to `hpmcounter31`. -/
def counterValue (s : State) (k : BitVec 5) : BitVec 64 :=
  if h : 3 ≤ k.toNat then s.counters.hpm[k.toNat - 3]'(by have := k.isLt; omega)
  else if k = 2#5 then s.counters.instret
  else if k = 1#5 then s.time
  else s.counters.cycle

/-- A bit in its place. -/
def placeBit (pos : Nat) (b : Bool) : BitVec 64 := maskIf b (1#64 <<< pos)

/-- The two-bit encoding of a mode in MPP (R243: 0, 1, 3); V is not part of it (log 27). -/
def modeBits : Mode → BitVec 2
  | .m => 3#2
  | .s => 1#2
  | .u => 0#2
  | .vs => 1#2
  | .vu => 0#2

/-- `sstatus` (R222, R239). PRESUMED: SIE 1, SPIE 5, SPP 8, SDT 24 (log 6); every other bit reads 0 (G5, log 7). -/
def sstatusView (s : State) : XWord :=
  placeBit 1 s.mstatus.sie ||| placeBit 5 s.mstatus.spie
    ||| placeBit 8 (modeBits s.mstatus.spp == 1#2) ||| placeBit 24 (sdtView s)

/-- `mstatus` (R239). PRESUMED: MIE 3, MPIE 7, MPP 12:11, MPRV 17, and the bits of `sstatus` with S-mode (log 6). -/
def mstatusView (s : State) : XWord :=
  placeBit 3 s.mstatus.mie ||| placeBit 7 s.mstatus.mpie ||| ((modeBits s.mstatus.mpp).setWidth 64 <<< 11)
    ||| placeBit 17 s.mstatus.mprv ||| maskIf s.cfg.sImplemented (sstatusView s)

/-- `vsstatus`: SDT only, the one bit the spec names (R222); `henvcfg.DTE` has no part in it (log 64). -/
def vsstatusView (s : State) : XWord := placeBit 24 (vsSdtView s)

/-- The mode of a two-bit encoding, keeping V: no CSR write makes a saved mode virtualised, so no run from reset enters VS
or VU (DESIGN CHOICE, log 27); none for an encoding of no supported mode. -/
def modeOfBits (c : HartConfig) (old : Mode) (b : BitVec 2) : Mode :=
  if b = 3#2 then .m
  else if b = 1#2 ∧ c.sImplemented = true then (if old.virt then .vs else .s)
  else if b = 0#2 ∧ c.uImplemented = true then (if old.virt then .vu else .u)
  else old

/-- Writing the S-level fields; SDT ignores writes while DTE is 0 (R222). What else an enabled Ssdbltrp does to the write is
not in the source (R223, N11): DESIGN CHOICE, SIE is stored as written, whatever SDT holds or becomes (log 74). -/
def writeSstatusFields (w : XWord) (s : State) (f : Mstatus) : Mstatus :=
  if s.cfg.sImplemented then
    { f with
      sie := w.getLsbD 1
      spie := w.getLsbD 5
      spp := modeOfBits s.cfg f.spp (if w.getLsbD 8 then 1#2 else 0#2)
      sdt := if dteOn s then w.getLsbD 24 else f.sdt }
  else f

/-- Writing `mstatus`; an encoding of no supported mode leaves MPP as it was (log 6). -/
def writeMstatusFields (w : XWord) (s : State) : Mstatus :=
  writeSstatusFields w s
    { s.mstatus with
      mie := w.getLsbD 3
      mpie := w.getLsbD 7
      mpp := modeOfBits s.cfg s.mstatus.mpp (w.extractLsb' 11 2)
      mprv := s.cfg.uImplemented && w.getLsbD 17 }

/-- The value a CSR read returns, XLEN bits (R58, R123, R181, R184, R217, R222). PRESUMED: `sip` and `sie` show and
write the timer bits only while bit 5 of `mideleg` is set (log 58). DESIGN CHOICE: without S-mode bit 5 of `mip` and of
`mie` reads 0, also with Sstc (log 61). A register the spec does not describe reads a free
value (logs 8, 9). -/
def readCsr (r : CsrReg) (s : State) : XWord :=
  match r with
  | .menvcfg => lowView s.cfg s.menvcfg
  | .menvcfgh => highView s.menvcfg
  | .stimecmp => lowView s.cfg s.stimecmp
  | .stimecmph => highView s.stimecmp
  | .senvcfg => lowView s.cfg (senvcfgView s)
  | .henvcfg => lowView s.cfg (henvcfgView s)
  | .henvcfgh => highView (henvcfgView s)
  | .satp => trunc s.cfg s.satp
  | .hgatp => trunc s.cfg s.hgatp
  | .mstatus => mstatusView s
  | .sstatus => sstatusView s
  | .vsstatus => vsstatusView s
  | .medeleg => trunc s.cfg s.medeleg
  | .mideleg => placeBit 5 s.midelegSti
  | .mie => placeBit 5 (s.cfg.sImplemented && s.mieStie)
  | .sie => placeBit 5 (s.midelegSti && s.mieStie)
  | .mip => placeBit 5 (s.cfg.sImplemented && stipPending s)
  | .sip => placeBit 5 (s.midelegSti && stipPending s)
  | .mtvec => trunc s.cfg s.mtvec
  | .mepc => trunc s.cfg s.mepc
  | .mcause => trunc s.cfg s.mcause
  | .mtval => trunc s.cfg s.mtval
  | .stvec => trunc s.cfg s.stvec
  | .sepc => trunc s.cfg s.sepc
  | .scause => trunc s.cfg s.scause
  | .stval => trunc s.cfg s.stval
  | .time => lowView s.cfg s.time
  | .timeh => highView s.time
  | .counter k => lowView s.cfg (counterValue s k)
  | .counterh k => highView (counterValue s k)
  | .ssp => trunc s.cfg s.ssp
  | .hart => trunc s.cfg (Config.freeWord s.draws)

/-- A write of `senvcfg` or `henvcfg`: writable bits take the written bit, the others keep theirs, and CBIE follows the
rule of R126 (PRESUMED for these two registers, log 16). -/
def envWrite (hyp : Bool) (old v : BitVec 64) (s : State) : BitVec 64 :=
  let mask := envMask hyp (s.cfg.zicbom && cbieStorable s.cfg (rawCbie v)) s
  (old &&& ~~~mask) ||| (v &&& mask)

/-- `satp.MODE` is read-only zero where the configuration says so (R15); any other value is stored (log 51). -/
def satpWrite (c : HartConfig) (w : XWord) : XWord :=
  if c.satpModeReadOnlyZero then
    trunc c w &&& ~~~(match c.xlen with | .rv32 => 1#64 <<< 31 | .rv64 => 0xF#64 <<< 60)
  else trunc c w

/-- What a CSR write of the XLEN-bit value `w` does; `sie` stores only while bit 5 of `mideleg` is set (log 58), `mie` only
with S-mode (log 61), SDT of `vsstatus` by `menvcfg.DTE` alone (log 64). -/
def writeCsr (r : CsrReg) (w : XWord) (s : State) : State :=
  match r with
  | .menvcfg => writeMenvcfg (presentLow s.cfg s.menvcfg w) s
  | .menvcfgh => writeMenvcfg (presentHigh s.menvcfg w) s
  | .stimecmp => { s with stimecmp := presentLow s.cfg s.stimecmp w }
  | .stimecmph => { s with stimecmp := presentHigh s.stimecmp w }
  | .senvcfg => { s with senvcfg := envWrite false s.senvcfg (presentLow s.cfg s.senvcfg w) s }
  | .henvcfg => { s with henvcfg := envWrite true s.henvcfg (presentLow s.cfg s.henvcfg w) s }
  | .henvcfgh => { s with henvcfg := envWrite true s.henvcfg (presentHigh s.henvcfg w) s }
  | .satp => { s with satp := satpWrite s.cfg w }
  | .hgatp => { s with hgatp := trunc s.cfg w }
  | .mstatus => { s with mstatus := writeMstatusFields w s }
  | .sstatus => { s with mstatus := writeSstatusFields w s s.mstatus }
  | .vsstatus => { s with vsSdt := if dteOn s then w.getLsbD 24 else s.vsSdt }
  | .medeleg => { s with medeleg := trunc s.cfg w }
  | .mideleg => { s with midelegSti := w.getLsbD 5 }
  | .mie => { s with mieStie := if s.cfg.sImplemented then w.getLsbD 5 else s.mieStie }
  | .sie => { s with mieStie := if s.midelegSti then w.getLsbD 5 else s.mieStie }
  -- STIP is read-only in `mip` with STCE on, and written by M-mode software without (R184)
  | .mip => { s with mipStip := if stceOn s then s.mipStip else w.getLsbD 5 }
  -- STIP is read-only in `sip` (R184)
  | .sip => s
  | .mtvec => { s with mtvec := trunc s.cfg (w &&& ~~~2#64) }
  | .mepc => { s with mepc := trunc s.cfg (w &&& ~~~1#64) }
  | .mcause => { s with mcause := trunc s.cfg w }
  | .mtval => { s with mtval := trunc s.cfg w }
  | .stvec => { s with stvec := trunc s.cfg (w &&& ~~~2#64) }
  | .sepc => { s with sepc := trunc s.cfg (w &&& ~~~1#64) }
  | .scause => { s with scause := trunc s.cfg w }
  | .stval => { s with stval := trunc s.cfg w }
  -- the counters have read-only numbers: a write is an illegal instruction (R111, log 55)
  | .time => s
  | .timeh => s
  | .counter _ => s
  | .counterh _ => s
  | .ssp => { s with ssp := trunc s.cfg w }
  -- the register is not part of State (logs 8, 9)
  | .hart => s

end Sys2Proof.Machine
end

