-- ==== Sys2Proof/Machine/Csr.lean ====
section
/-! DEFINITION. The six CSR instructions (R122, R128 to R134). -/

namespace Sys2Proof.Machine

/-- The shared form of R122: the checks, the read, the write of `f` of the value read, `x[rd]`, and the program counter.
`reads` and `writes` are the columns of R134. -/
def csrAccess (word : BitVec 32) (n : CsrNum) (rd : RegIdx) (reads writes : Bool) (f : XWord → XWord) (s : State) :
    Host.Outcome State Fault Refusal :=
  match csrDenied n writes s with
  | some e => .next (raise e (instrInfo s.cfg word) s)
  | none =>
    match (csrLookup n s).map (substituted s.priv) with
    | none => illegal word s
    | some r =>
      let old := readCsr r s
      let written := if writes then writeCsr r (f old) s else s
      .next (advance 4 (if reads then setReg rd old written else written))

/-- CSRRW (R128): no read where `rd` is x0, always a write. -/
def execCsrrw (rd : RegIdx) (csr : CsrNum) (rs1 : RegIdx) (s : State) : Host.Outcome State Fault Refusal :=
  csrAccess (encodeWord (.csrrw rd csr rs1)) csr rd (rd != 0#5) true (fun _ => getReg s rs1) s

/-- CSRRS (R129): no write where `rs1` is x0, the register number. -/
def execCsrrs (rd : RegIdx) (csr : CsrNum) (rs1 : RegIdx) (s : State) : Host.Outcome State Fault Refusal :=
  csrAccess (encodeWord (.csrrs rd csr rs1)) csr rd true (rs1 != 0#5) (fun r => r ||| getReg s rs1) s

/-- CSRRC (R130). -/
def execCsrrc (rd : RegIdx) (csr : CsrNum) (rs1 : RegIdx) (s : State) : Host.Outcome State Fault Refusal :=
  csrAccess (encodeWord (.csrrc rd csr rs1)) csr rd true (rs1 != 0#5) (fun r => r &&& ~~~(getReg s rs1)) s

/-- CSRRWI (R131). -/
def execCsrrwi (rd : RegIdx) (csr : CsrNum) (uimm : RegIdx) (s : State) : Host.Outcome State Fault Refusal :=
  csrAccess (encodeWord (.csrrwi rd csr uimm)) csr rd (rd != 0#5) true (fun _ => uimmValue uimm) s

/-- CSRRSI (R132): no write where `uimm` is 0. -/
def execCsrrsi (rd : RegIdx) (csr : CsrNum) (uimm : RegIdx) (s : State) : Host.Outcome State Fault Refusal :=
  csrAccess (encodeWord (.csrrsi rd csr uimm)) csr rd true (uimm != 0#5) (fun r => r ||| uimmValue uimm) s

/-- CSRRCI (R133). -/
def execCsrrci (rd : RegIdx) (csr : CsrNum) (uimm : RegIdx) (s : State) : Host.Outcome State Fault Refusal :=
  csrAccess (encodeWord (.csrrci rd csr uimm)) csr rd true (uimm != 0#5) (fun r => r &&& ~~~(uimmValue uimm)) s

end Sys2Proof.Machine
end

