-- ==== Sys2Proof/Machine/Fence.lean ====
section
/-! DEFINITION. FENCE under FIOM (R145 to R148) and SFENCE.VMA (R159, R160). -/

namespace Sys2Proof.Machine

/-- Table 1 on one set: device input implies memory reads, device output implies memory writes (R146). -/
def impliedSet (a : AccessSet) : AccessSet := { a with r := a.r || a.i, w := a.w || a.o }

/-- The set the base model is to use: changed with `fiom_active`, else unmodified (R146, R147). -/
def effectiveSet (s : State) (a : AccessSet) : AccessSet := if fiomActive s then impliedSet a else a

/-- FENCE (R148): its effective sets go to the base ordering model (log 41); the `fm` field is untouched. -/
def execFence (fm : BitVec 4) (pred succ : AccessSet) (_rs1 _rd : RegIdx) (s : State) :
    Host.Outcome State Fault Refusal :=
  .next (advance 4
    { s with ordering := .fence fm (effectiveSet s pred) (effectiveSet s succ) :: s.ordering })

/-- SFENCE.VMA (R160): the form with both register numbers 0 closes the PBMTE and the ADUE window; with the hypervisor
extension the G-stage windows stay open (R161). Any other form closes nothing (log 40). -/
def execSfenceVma (rs1 rs2 : RegIdx) (s : State) : Host.Outcome State Fault Refusal :=
  .next (advance 4
    (if rs1 = 0#5 ∧ rs2 = 0#5 then { s with windows := { s.windows with pbmteS := false, adueS := false } } else s))

end Sys2Proof.Machine
end

