-- ==== Sys2Proof/Machine/Zicfilp.lean ====
section
/-! DEFINITION. LPAD (R206 to R211). -/

namespace Sys2Proof.Machine

/-- LPAD where Zicfilp is enabled or another register governs it: "the Zicfilp behaviour of LPAD, outside the source"
(R210, R211): an exception of its own, or a new ELP and the next instruction, a free choice (log 20). -/
def landingPadBehaviour (s : State) : State :=
  match (Config.hartEffect s.draws).trap with
  | some (code, info) => raise (.hart code) (trunc s.cfg info) s
  | none => advance 4 { s with elp := (Config.hartEffect s.draws).elp }

/-- LPAD (R210): a no-op in the governed mode with LPE off, and on a hart without Zicfilp, where the word "writes
nothing ... either". -/
def execLpad (_label : BitVec 20) (s : State) : Host.Outcome State Fault Refusal :=
  if (s.priv = lpMode s.cfg ∧ lpeOn s = false) ∨ s.cfg.zicfilp = false then .next (advance 4 s)
  else .next (landingPadBehaviour s)

end Sys2Proof.Machine
end

