-- ==== Sys2Proof/Machine/Zicfiss.lean ====
section
/-! DEFINITION. The Zicfiss instructions (R212 to R219): what they do with SSE = 0 is the spec's; an active Zicfiss is
outside the source and answers with free values (log 17). -/

namespace Sys2Proof.Machine

/-- What governs a Zicfiss instruction now. -/
inductive ShadowStack where
  /-- Zimop or Zcmop behaviour: no Zicfiss, or below M without it (R213, R214, R219; log 18) -/
  | reverted
  /-- Zicfiss is active (R212, R219) -/
  | active
  /-- M-mode on a hart with Zicfiss, which SSE does not govern (R219): outside the source (log 19) -/
  | ungoverned
deriving DecidableEq, Repr

/-- With SSE = 0 below M the words revert (R213, R214). PRESUMED: they revert too in a mode below S from which `senvcfg` or
`henvcfg` withholds Zicfiss while SSE = 1, for which R219 says only that the mode does not have it (log 71). -/
def shadowStack (s : State) : ShadowStack :=
  if s.cfg.zicfiss = false then .reverted
  else if s.priv = .m then .ungoverned
  else if shadowStackActive s then .active
  else .reverted

/-- A push or a pop check where it is not reverted: an exception of its own, or an effect on the shadow stack pointer
and memory and the next instruction, a free choice (log 17). DESIGN CHOICE: its memory accesses are not translated by the
model (R169); the bytes it stores, their physical addresses and its exceptions are part of that choice (log 17). -/
def shadowStackBehaviour (size : Nat) (s : State) : State :=
  match (Config.hartEffect s.draws).trap with
  | some (code, info) => raise (.hart code) (trunc s.cfg info) s
  | none =>
    advance size
      { s with
        ssp := trunc s.cfg (Config.hartEffect s.draws).ssp
        mem := writeCells s.mem (Config.hartEffect s.draws).stores }

/-- A push or a pop check of `size` bytes: reverted, it writes no register (`rd` is x0, R213; C.MOP.n, R214). -/
def shadowStackOp (size : Nat) (s : State) : Host.Outcome State Fault Refusal :=
  match shadowStack s with
  | .reverted => .next (advance size s)
  | .active => .next (shadowStackBehaviour size s)
  | .ungoverned => .next (shadowStackBehaviour size s)

/-- SSPUSH (R213). -/
def execSspush (_rs2 : RegIdx) (s : State) : Host.Outcome State Fault Refusal := shadowStackOp 4 s

/-- SSPOPCHK (R213). -/
def execSspopchk (_rs1 : RegIdx) (s : State) : Host.Outcome State Fault Refusal := shadowStackOp 4 s

/-- SSRDP (R213): 0 with SSE = 0; "an activated Zicfiss would write the shadow stack pointer"; in M-mode a free value
(log 19). -/
def execSsrdp (rd : RegIdx) (s : State) : Host.Outcome State Fault Refusal :=
  match shadowStack s with
  | .reverted => .next (advance 4 (setReg rd 0#64 s))
  | .active => .next (advance 4 (setReg rd s.ssp s))
  | .ungoverned => .next (advance 4 (setReg rd (Config.freeWord s.draws) s))

/-- C.SSPUSH (R214). -/
def execCSspush (s : State) : Host.Outcome State Fault Refusal := shadowStackOp 2 s

/-- C.SSPOPCHK (R214). -/
def execCSspopchk (s : State) : Host.Outcome State Fault Refusal := shadowStackOp 2 s

/-- SSAMOSWAP of `n` bytes (R218). Performed, it is an atomic whose data is outside the source (logs 10, 17). DESIGN
CHOICE: where Zicfiss is active, and in M-mode on a hart with Zicfiss, it is always performed, and only its alignment or
its translation raises an exception (logs 17, 19). -/
def ssamoswap (word : BitVec 32) (n : Nat) (aq rl : Bool) (rs1 rd : RegIdx) (s : State) :
    Host.Outcome State Fault Refusal :=
  match shadowStack s with
  | .reverted => .next (raise (zicfissDenied s) (instrInfo s.cfg word) s)
  | .active => atomicAccess n .store aq rl rs1 rd s
  | .ungoverned => atomicAccess n .store aq rl rs1 rd s

/-- SSAMOSWAP.W (R218). -/
def execSsamoswapW (aq rl : Bool) (rs2 rs1 rd : RegIdx) (s : State) : Host.Outcome State Fault Refusal :=
  ssamoswap (encodeWord (.ssamoswapW aq rl rs2 rs1 rd)) 4 aq rl rs1 rd s

/-- SSAMOSWAP.D (R218): "exists only with XLEN = 64". -/
def execSsamoswapD (aq rl : Bool) (rs2 rs1 rd : RegIdx) (s : State) : Host.Outcome State Fault Refusal :=
  match s.cfg.xlen with
  | .rv32 => illegal (encodeWord (.ssamoswapD aq rl rs2 rs1 rd)) s
  | .rv64 => ssamoswap (encodeWord (.ssamoswapD aq rl rs2 rs1 rd)) 8 aq rl rs1 rd s

end Sys2Proof.Machine
end

