-- ==== Sys2Proof/Machine/Dispatch.lean ====
section
/-! DEFINITION. One arm per constructor of Instr. -/

namespace Sys2Proof.Machine

def exec (i : Instr) (s : State) : Host.Outcome State Fault Refusal :=
  match i with
  | .csrrw rd csr rs1 => Sys2Proof.Machine.execCsrrw rd csr rs1 s
  | .csrrs rd csr rs1 => Sys2Proof.Machine.execCsrrs rd csr rs1 s
  | .csrrc rd csr rs1 => Sys2Proof.Machine.execCsrrc rd csr rs1 s
  | .csrrwi rd csr uimm => Sys2Proof.Machine.execCsrrwi rd csr uimm s
  | .csrrsi rd csr uimm => Sys2Proof.Machine.execCsrrsi rd csr uimm s
  | .csrrci rd csr uimm => Sys2Proof.Machine.execCsrrci rd csr uimm s
  | .fence fm pred succ rs1 rd => Sys2Proof.Machine.execFence fm pred succ rs1 rd s
  | .amoW funct5 aq rl rs2 rs1 rd => Sys2Proof.Machine.execAmoW funct5 aq rl rs2 rs1 rd s
  | .amoD funct5 aq rl rs2 rs1 rd => Sys2Proof.Machine.execAmoD funct5 aq rl rs2 rs1 rd s
  | .sfenceVma rs1 rs2 => Sys2Proof.Machine.execSfenceVma rs1 rs2 s
  | .cboInval rs1 => Sys2Proof.Machine.execCboInval rs1 s
  | .cboClean rs1 => Sys2Proof.Machine.execCboClean rs1 s
  | .cboFlush rs1 => Sys2Proof.Machine.execCboFlush rs1 s
  | .cboZero rs1 => Sys2Proof.Machine.execCboZero rs1 s
  | .lpad label => Sys2Proof.Machine.execLpad label s
  | .ssamoswapW aq rl rs2 rs1 rd => Sys2Proof.Machine.execSsamoswapW aq rl rs2 rs1 rd s
  | .ssamoswapD aq rl rs2 rs1 rd => Sys2Proof.Machine.execSsamoswapD aq rl rs2 rs1 rd s
  | .sspush rs2 => Sys2Proof.Machine.execSspush rs2 s
  | .sspopchk rs1 => Sys2Proof.Machine.execSspopchk rs1 s
  | .ssrdp rd => Sys2Proof.Machine.execSsrdp rd s
  | .cSspush => Sys2Proof.Machine.execCSspush s
  | .cSspopchk => Sys2Proof.Machine.execCSspopchk s

end Sys2Proof.Machine
end

