-- ==== Sys2Proof/Machine/Fetch.lean ====
section
/-! DEFINITION. What step adds around exec: the fetch, the supervisor timer interrupt (R236), the instructions that are
no rows of the table (R161, R240), and the end of a step. -/

namespace Sys2Proof.Machine

/-- The result of a fetch. -/
inductive Fetched where
  /-- the instruction's bytes, two or four by R100, and the state with A and D bits set -/
  | bytes (bs : List Byte) (s : State)
  /-- a page fault of the fetch, or the exception of a misaligned one -/
  | raises (e : Exception)
  /-- a byte that nothing has written (log 35) -/
  | unwritten (address : Nat)

/-- Memory as the fetch sees it: with coherent fetch every store, without it any byte it has kept (R93, log 37). -/
def fetchMemory (s : State) : Memory := if s.cfg.fetchCoherent then s.mem else overlay s.mem s.fetchCache

/-- Fetching at `pc`: its alignment (R84), one translation, then two bytes, or four where bits 1:0 are 11 (R100; logs 24,
36). Every address is memory (log 54). -/
def fetch (s : State) : Fetched :=
  match misalignedFault s.cfg .fetch 2 s.pc with
  | some e => .raises e
  | none =>
    match translate .fetch s.priv s.pc s with
    | .error e => .raises e
    | .ok (pa, s') =>
      match readBytes (fetchMemory s') pa 2 with
      | none => .unwritten pa.toNat
      | some bs =>
        if (bs.head?.map isWide) = some true then
          match readBytes (fetchMemory s') pa 4 with
          | none => .unwritten pa.toNat
          | some ws => .bytes ws s'
        else .bytes bs s'

/-- Where step fetches its next instruction. -/
def fetchAddress (s : State) : XWord :=
  match translate .fetch s.priv s.pc s with
  | .error _ => s.pc
  | .ok (pa, _) => pa

/-- The supervisor timer interrupt that is taken before the next instruction, if one is: `some true` to S-mode, `some
false` to M-mode. Pending by R181 to R184; "masked and prioritised like any S-mode interrupt by registers outside the
source" (R236): PRESUMED, `mie.STIE`, `mideleg`, and MIE or SIE in the mode itself (log 31). DESIGN CHOICE: without
S-mode none is taken, also with Sstc (log 61). -/
def interruptTaken (s : State) : Option Bool :=
  if s.mieStie && s.cfg.sImplemented && stipPending s then
    if s.midelegSti then
      if s.priv = .m then none
      else if s.priv = .s then (if s.mstatus.sie then some true else none)
      else some true
    else if s.priv = .m then (if s.mstatus.mie then some false else none)
    else some false
  else none

/-- What an interrupt records in the trap value register: the spec states no value, a free one (log 26). -/
def interruptInfo (s : State) : XWord := trunc s.cfg (Config.freeWord s.draws)

/-- MRET and SRET (R240), HFENCE.GVMA (R161), and the Zimop and Zcmop instructions (R215). A return from a mode that may
not execute it is an illegal instruction, in VU-mode a virtual instruction (log 33); HFENCE.GVMA with both register
numbers 0 closes the G-stage windows (log 23); a MOP writes 0 to `rd`, a C.MOP writes nothing (log 18). -/
def execHart (i : HartInstr) (word : BitVec 32) (s : State) : Host.Outcome State Fault Refusal :=
  match i with
  | .mret => if s.priv = .m then .next (trapReturnM s) else illegal word s
  | .sret =>
    if s.priv = .vs then .next (trapReturnV s)
    else if s.priv = .vu then .next (raise .virtualInstruction (instrInfo s.cfg word) s)
    else if s.cfg.sImplemented ∧ s.priv ≠ .u then .next (trapReturnS s)
    else illegal word s
  | .hfenceGvma rs1 rs2 =>
    if s.cfg.hImplemented then
      .next (advance 4
        (if rs1 = 0#5 ∧ rs2 = 0#5 then { s with windows := { s.windows with pbmteG := false, adueG := false } } else s))
    else illegal word s
  | .mopR _ _ rd => .next (advance 4 (setReg rd 0#64 s))
  | .mopRr _ _ _ rd => .next (advance 4 (setReg rd 0#64 s))
  | .cMop _ => .next (advance 2 s)

/-- Bytes that are no row of the table: an instruction that a rule describes, or one of the enclosing hart, outside the
scope (R10 (a), log 34). -/
def execOther (bs : List Byte) (s : State) : Host.Outcome State Fault Refusal :=
  match decodeOther bs with
  | none => .refused .outsideSpec
  | some (i, word) => execHart i word s

/-- The counters of R247 at the end of a step: free, since what they count is not in the source (log 57). -/
def drawCounters (draw : Nat) : Counters where
  cycle := Config.counterDraw draw 0
  instret := Config.counterDraw draw 2
  hpm := Vector.ofFn fun k => Config.counterDraw draw (k.val + 3)

/-- What the fetch keeps after a step: some bytes as memory has them now, and not some it kept before (R93, log 37). -/
def refetched (s : State) : Memory :=
  keepBytes s.mem (dropAll s.fetchCache (Config.fetchDrops s.draws)) (Config.fetchKeeps s.draws)

/-- The end of a step: the draw counter advances (log 48), `time` takes a value that is not smaller (R270, log 32), and
the counters and the fetch take free ones. -/
def tick (s : State) : State :=
  { s with
    draws := s.draws + 1
    time := if s.time ≤ Config.timeDraw s.draws then Config.timeDraw s.draws else s.time
    counters := drawCounters s.draws
    fetchCache := if s.cfg.fetchCoherent then s.fetchCache else refetched s }

/-- `tick` on the next state of an outcome. -/
def tickOutcome : Host.Outcome State Fault Refusal → Host.Outcome State Fault Refusal
  | .next s => .next (tick s)
  | .fault r => .fault r
  | .refused r => .refused r

end Sys2Proof.Machine
end

