-- ==== Sys2Proof/Machine/Step.lean ====
section
/-! DEFINITION. One step of the hart: an interrupt if one is taken, else the instruction at `pc`. -/

namespace Sys2Proof.Machine

/-- Running the instruction at `pc`. What ELP other than NO_LP_EXPECTED demands of it is outside the source, and nothing
is checked (R75, log 59). DESIGN CHOICE: the A and D bits that the translation of the fetch set stay set where the
instruction then traps (R170, log 73). -/
def stepInstr (s : State) : Host.Outcome State Fault Refusal :=
  match fetch s with
  | .raises e => .next (raise e s.pc s)
  | .unwritten a => .fault (.unwrittenFetch a)
  | .bytes bs s' =>
    match decode bs with
    | .ok (i, _) => exec i s'
    | .error _ => execOther bs s'

/-- One step. A configuration the spec has a model refuse is refused: "the model refuses it" (R16), "with `true` the model
refuses" (R24, R54). -/
def step (s : State) : Host.Outcome State Fault Refusal :=
  if configLegal s.cfg then
    match interruptTaken s with
    | some toS => tickOutcome (.next (takeTrap toS true supervisorTimerCode (interruptInfo s) s))
    | none => tickOutcome (stepInstr s)
  else .refused .illegalConfiguration

/-- `s` with an instruction of the table placed where step fetches next, and no kept byte in its way (log 49). -/
def State.withFetchWord (s : State) (nbits w : Nat) : State :=
  { s with
    mem := writeBytes s.mem (fetchAddress s) (tableBytes nbits w)
    fetchCache := dropBytes s.fetchCache (fetchAddress s) (tableBytes nbits w).length }

end Sys2Proof.Machine
end

