-- ==== Sys2Proof/Safety.lean ====
section
/-! DEFINITION. What claims are stated in: what stays the same between two states, the invariants of the machine, and
runs. A safe run is one on which every state meets `invariant`; a stop is never a wrong state (log 34). -/

namespace Sys2Proof.Machine

/-! ## The CSR instructions -/

/-- The CSR number an instruction names, for the six CSR instructions. -/
def csrNumberOf : Instr → Option CsrNum
  | .csrrw _ n _ => some n
  | .csrrs _ n _ => some n
  | .csrrc _ n _ => some n
  | .csrrwi _ n _ => some n
  | .csrrsi _ n _ => some n
  | .csrrci _ n _ => some n
  | _ => none

/-- Its destination register. -/
def csrRdOf : Instr → RegIdx
  | .csrrw rd _ _ => rd
  | .csrrs rd _ _ => rd
  | .csrrc rd _ _ => rd
  | .csrrwi rd _ _ => rd
  | .csrrsi rd _ _ => rd
  | .csrrci rd _ _ => rd
  | _ => 0#5

/-- Whether it writes the CSR: the table of R134. -/
def csrWritesOf : Instr → Bool
  | .csrrw _ _ _ => true
  | .csrrwi _ _ _ => true
  | .csrrs _ _ rs1 => rs1 != 0#5
  | .csrrc _ _ rs1 => rs1 != 0#5
  | .csrrsi _ _ uimm => uimm != 0#5
  | .csrrci _ _ uimm => uimm != 0#5
  | _ => false

/-- The value it presents where it writes, from the value `old` that the register reads (R128 to R133). -/
def csrValueOf (i : Instr) (old : XWord) (s : State) : XWord :=
  match i with
  | .csrrw _ _ rs1 => getReg s rs1
  | .csrrs _ _ rs1 => old ||| getReg s rs1
  | .csrrc _ _ rs1 => old &&& ~~~(getReg s rs1)
  | .csrrwi _ _ uimm => uimm.setWidth 64
  | .csrrsi _ _ uimm => old ||| uimm.setWidth 64
  | .csrrci _ _ uimm => old &&& ~~~(uimm.setWidth 64)
  | _ => old

/-! ## The two names of `menvcfg` -/

/-- The positions of the tabled fields (R42). -/
def tabledPositions : List Nat := [63, 62, 61, 7, 6, 5, 4, 0]

/-- The positions of the prose fields that the configuration implements (R28, R50). -/
def prosePositions (c : HartConfig) : List Nat :=
  (if c.smcdeleg then [c.posCde.val] else []) ++ (if c.ssdbltrp then [c.posDte.val] else [])
    ++ (if c.zicfiss then [c.posSse.val] else []) ++ (if c.zicfilp then [c.posLpe.val] else [])

/-- The numbers of the other machine-level read/write CSRs the model has (R110, log 6). -/
def machineNumbers : List CsrNum :=
  [0x30A#12, 0x300#12, 0x302#12, 0x303#12, 0x304#12, 0x305#12, 0x341#12, 0x342#12, 0x343#12, 0x344#12]

/-- CSR_MENVCFGH (D12) is a machine-level read/write number (R111) of no other register. -/
def menvcfghNumberLegal (n : CsrNum) : Bool :=
  n.extractLsb' 8 2 == 3#2 && n.extractLsb' 10 2 != 3#2 && !machineNumbers.contains n

/-- No two implemented fields stand on one bit. -/
def fieldsDistinct (c : HartConfig) : Bool := decide (tabledPositions ++ prosePositions c).Nodup

/-- A number that names the register: 0x30A, and with XLEN = 32 the number of `menvcfgh` (R61, R62). -/
def namesMenvcfg (c : HartConfig) (n : CsrNum) : Prop := n = 0x30A#12 ∨ (n = c.csrMenvcfgh ∧ c.xlen = .rv32)

/-- `view(n)` of R123. -/
def viewThrough (c : HartConfig) (n : CsrNum) (v : BitVec 64) : XWord :=
  if n = 0x30A#12 then lowView c v else highView v

/-- `v(n, w)` of R124: the 64-bit value that a write of `w` through `n` presents. -/
def presentedThrough (c : HartConfig) (n : CsrNum) (old : BitVec 64) (w : XWord) : BitVec 64 :=
  if n = 0x30A#12 then presentLow c old w else presentHigh old w

/-- The invariants of R60: (a) no bit outside WMASK, (b) CBIE is not 2, (c) not 3 where the parameter forbids it. -/
def registerInvariants (c : HartConfig) (v : BitVec 64) : Prop :=
  v &&& ~~~(wmask c) = 0#64 ∧ v.extractLsb' 4 2 ≠ 2#2 ∧
    (c.forceUpgradeCboInvalToFlush = true → v.extractLsb' 4 2 ≠ 3#2)

/-! ## What stays the same -/

/-- Every byte of memory reads as before. -/
def sameMemory (s t : State) : Prop := ∀ a, readByte t.mem a = readByte s.mem a

/-- The `n` bytes from `a`, computed in 64 bits. -/
def inSpan (a : XWord) (n : Nat) (b : Nat) : Prop := ∃ k, k < n ∧ b = (a + BitVec.ofNat 64 k).toNat

/-- Every byte outside the `n` bytes from `a` reads as before. -/
def sameMemoryOutside (a : XWord) (n : Nat) (s t : State) : Prop :=
  ∀ b, ¬ inSpan a n b → readByte t.mem b = readByte s.mem b

/-- Every general register but `rd` reads as before. -/
def sameRegsBut (rd : RegIdx) (s t : State) : Prop := ∀ r, r ≠ rd → getReg t r = getReg s r

/-- Every general register reads as before. -/
def sameRegs (s t : State) : Prop := ∀ r, getReg t r = getReg s r

/-- The registers a trap saves into and the vectors (R239), `medeleg`, and the interrupt bits. -/
def sameTrapRegs (s t : State) : Prop :=
  t.mtvec = s.mtvec ∧ t.mepc = s.mepc ∧ t.mcause = s.mcause ∧ t.mtval = s.mtval ∧
  t.stvec = s.stvec ∧ t.sepc = s.sepc ∧ t.scause = s.scause ∧ t.stval = s.stval ∧
  t.medeleg = s.medeleg ∧ t.midelegSti = s.midelegSti ∧ t.mieStie = s.mieStie ∧ t.mipStip = s.mipStip

/-- The environment registers, SDT's virtual copy and the translation-cache windows. -/
def sameEnvironment (s t : State) : Prop :=
  t.menvcfg = s.menvcfg ∧ t.senvcfg = s.senvcfg ∧ t.henvcfg = s.henvcfg ∧ t.vsSdt = s.vsSdt ∧ t.windows = s.windows

/-- Translation, timer, counter, landing-pad and shadow-stack registers, what the fetch keeps, and the configuration. -/
def sameUnits (s t : State) : Prop :=
  t.satp = s.satp ∧ t.hgatp = s.hgatp ∧ t.stimecmp = s.stimecmp ∧ t.time = s.time ∧ t.counters = s.counters ∧
  t.elp = s.elp ∧ t.ssp = s.ssp ∧ t.fetchCache = s.fetchCache ∧ t.cfg = s.cfg

/-- The mode and the status register. -/
def sameStatus (s t : State) : Prop := t.priv = s.priv ∧ t.mstatus = s.mstatus

/-- Every special register. -/
def sameSpecial (s t : State) : Prop :=
  sameStatus s t ∧ sameTrapRegs s t ∧ sameEnvironment s t ∧ sameUnits s t

/-- What was handed to the base ordering model and to the caches. -/
def sameLogs (s t : State) : Prop := t.ordering = s.ordering ∧ t.cacheOps = s.cacheOps

/-- Everything but the general registers, the program counter and the draw counter. -/
def sameButRegs (s t : State) : Prop := sameSpecial s t ∧ sameLogs s t ∧ sameMemory s t

/-- What no trap and no return changes (R241, R246): every general register, memory, the environment registers, the vectors
and interrupt bits, the translation, timer and shadow-stack registers, and the logs. -/
def trapFrame (s t : State) : Prop :=
  sameRegs s t ∧ sameMemory s t ∧ sameEnvironment s t ∧ sameLogs s t ∧ t.cfg = s.cfg ∧
  t.mtvec = s.mtvec ∧ t.stvec = s.stvec ∧ t.medeleg = s.medeleg ∧
  t.midelegSti = s.midelegSti ∧ t.mieStie = s.mieStie ∧ t.mipStip = s.mipStip ∧
  t.satp = s.satp ∧ t.hgatp = s.hgatp ∧ t.stimecmp = s.stimecmp ∧ t.time = s.time ∧ t.ssp = s.ssp ∧
  t.counters = s.counters ∧ t.fetchCache = s.fetchCache

/-- Every special register but those a write of the CSR `r` is a write of: the other trap, environment, translation, timer
and shadow-stack registers. -/
def sameButCsr (r : CsrReg) (s t : State) : Prop :=
  (r ≠ .menvcfg → r ≠ .menvcfgh → t.menvcfg = s.menvcfg ∧ t.windows = s.windows ∧
    (r ≠ .senvcfg → t.senvcfg = s.senvcfg) ∧ (r ≠ .henvcfg → r ≠ .henvcfgh → t.henvcfg = s.henvcfg) ∧
    (r ≠ .mstatus → r ≠ .sstatus → t.mstatus = s.mstatus) ∧ (r ≠ .vsstatus → t.vsSdt = s.vsSdt)) ∧
  (r ≠ .stimecmp → r ≠ .stimecmph → t.stimecmp = s.stimecmp) ∧ (r ≠ .satp → t.satp = s.satp) ∧
  (r ≠ .hgatp → t.hgatp = s.hgatp) ∧ (r ≠ .medeleg → t.medeleg = s.medeleg) ∧
  (r ≠ .mideleg → t.midelegSti = s.midelegSti) ∧ (r ≠ .mie → r ≠ .sie → t.mieStie = s.mieStie) ∧
  (r ≠ .mip → t.mipStip = s.mipStip) ∧ (r ≠ .mtvec → t.mtvec = s.mtvec) ∧ (r ≠ .mepc → t.mepc = s.mepc) ∧
  (r ≠ .mcause → t.mcause = s.mcause) ∧ (r ≠ .mtval → t.mtval = s.mtval) ∧ (r ≠ .stvec → t.stvec = s.stvec) ∧
  (r ≠ .sepc → t.sepc = s.sepc) ∧ (r ≠ .scause → t.scause = s.scause) ∧ (r ≠ .stval → t.stval = s.stval) ∧
  (r ≠ .ssp → t.ssp = s.ssp)

/-- What every CSR instruction that is not denied does (R128 to R133): `old` in `rd`, every other general register, the
memory and the mode as before, `pc <- pc + 4`. -/
def csrFrame (rd : RegIdx) (old : XWord) (s t : State) : Prop :=
  getReg t rd = (if rd = 0#5 then 0#64 else old) ∧ sameRegsBut rd s t ∧
  t.pc = trunc s.cfg (s.pc + 4#64) ∧ t.priv = s.priv ∧ t.cfg = s.cfg ∧ t.time = s.time ∧ t.elp = s.elp ∧
  t.counters = s.counters ∧ t.fetchCache = s.fetchCache ∧ sameMemory s t ∧ sameLogs s t

/-- The windows after a write of `menvcfg`: one opens exactly where the write changes its field, a G-stage one only with
the hypervisor extension, and none closes (R159, R161, R168). -/
def windowsAfter (s t : State) : Windows where
  pbmteS := s.windows.pbmteS || svpbmtAvailable s != svpbmtAvailable t
  pbmteG := s.windows.pbmteG || (s.cfg.hImplemented && svpbmtAvailable s != svpbmtAvailable t)
  adueS := s.windows.adueS || adueActive s != adueActive t
  adueG := s.windows.adueG || (s.cfg.hImplemented && adueActive s != adueActive t)

/-- A coupled field is not freed: its `menvcfg` field does not go from 0 to 1. -/
def notFreed (field : HartConfig → BitVec 64 → Bool) (s t : State) : Prop :=
  field s.cfg s.menvcfg = true ∨ field s.cfg t.menvcfg = false

/-- What a CSR access that names `menvcfg` or `menvcfgh` leaves as it was: everything but the register, the windows it
opens, and a coupled field whose `menvcfg` field goes from 0 to 1 (U11). -/
def menvcfgFrame (s t : State) : Prop :=
  sameTrapRegs s t ∧ sameUnits s t ∧ t.windows = windowsAfter s t ∧
  { t.mstatus with sdt := s.mstatus.sdt } = s.mstatus ∧
  (notFreed fieldDte s t →
    t.mstatus.sdt = s.mstatus.sdt ∧ t.vsSdt = s.vsSdt ∧ t.henvcfg.getLsbD 59 = s.henvcfg.getLsbD 59) ∧
  (notFreed fieldSse s t → t.senvcfg.getLsbD 3 = s.senvcfg.getLsbD 3 ∧ t.henvcfg.getLsbD 3 = s.henvcfg.getLsbD 3) ∧
  (notFreed fieldAdue s t → t.henvcfg.getLsbD 61 = s.henvcfg.getLsbD 61) ∧
  (notFreed fieldPbmte s t → t.henvcfg.getLsbD 62 = s.henvcfg.getLsbD 62) ∧
  (∀ i, i ≠ 3 → t.senvcfg.getLsbD i = s.senvcfg.getLsbD i) ∧
  (∀ i, i ≠ 3 → i ≠ 59 → i ≠ 61 → i ≠ 62 → t.henvcfg.getLsbD i = s.henvcfg.getLsbD i)

/-- The gates beside `menvcfg` let a cache-block instruction run below M (R190): none in S-mode, `senvcfg` in U-mode under
S-mode, `henvcfg` in VS-mode, both in VU-mode (log 16). -/
def lowerAllows (sBit hBit : Bool) (s : State) : Prop :=
  s.priv = .s ∨ (s.priv = .u ∧ (s.cfg.sImplemented = false ∨ sBit = true)) ∨ (s.priv = .vs ∧ hBit = true) ∨
  (s.priv = .vu ∧ hBit = true ∧ sBit = true)

/-- The enables of a cache-block instruction whose extension the hart has: the `menvcfg` field, and the gates of `senvcfg`
and `henvcfg` (R190 to R194, log 16). -/
def cboEnables : Instr → State → Option (Bool × Bool × Bool)
  | .cboZero _, s =>
    if s.cfg.zicboz then some (s.menvcfg.getLsbD 7, (senvcfgView s).getLsbD 7, (henvcfgView s).getLsbD 7) else none
  | .cboClean _, s =>
    if s.cfg.zicbom then some (s.menvcfg.getLsbD 6, (senvcfgView s).getLsbD 6, (henvcfgView s).getLsbD 6) else none
  | .cboFlush _, s =>
    if s.cfg.zicbom then some (s.menvcfg.getLsbD 6, (senvcfgView s).getLsbD 6, (henvcfgView s).getLsbD 6) else none
  | .cboInval _, s =>
    if s.cfg.zicbom then
      some (s.menvcfg.extractLsb' 4 2 == 1#2 || s.menvcfg.extractLsb' 4 2 == 3#2,
        (senvcfgView s).extractLsb' 4 2 != 0#2, (henvcfgView s).extractLsb' 4 2 != 0#2)
    else none
  | _, _ => none

/-- The register that holds the address of a cache-block instruction. -/
def cboRs1 : Instr → RegIdx
  | .cboZero rs1 => rs1
  | .cboClean rs1 => rs1
  | .cboFlush rs1 => rs1
  | .cboInval rs1 => rs1
  | _ => 0#5

/-- Its enables let it run: in M-mode always, below M by the `menvcfg` field and the further gates. -/
def cboRuns (i : Instr) (s : State) : Prop :=
  ∃ m sBit hBit, cboEnables i s = some (m, sBit, hBit) ∧ (s.priv = .m ∨ (m = true ∧ lowerAllows sBit hBit s))

/-! ## Page tables -/

/-- Hardware updates A and D bits of a stage's tables: by `menvcfg` (R163, R164), of a VS-stage by `henvcfg` (R167). -/
def stageAdue (stage : Stage) (s : State) : Bool :=
  match stage with
  | .s => adueActive s
  | .vs => (henvcfgView s).getLsbD 61
  | .g => adueActive s

/-- The ADUE window of a stage. -/
def adueWindow (stage : Stage) (s : State) : Bool :=
  match stage with
  | .s => s.windows.adueS
  | .vs => s.windows.adueS
  | .g => s.windows.adueG

/-- The PBMTE window of a stage. -/
def pbmteWindow (stage : Stage) (s : State) : Bool :=
  match stage with
  | .s => s.windows.pbmteS
  | .vs => s.windows.pbmteS
  | .g => s.windows.pbmteG

/-- The modes whose accesses are translated: S and U while `satp.MODE` is not Bare (R169; bits 63:60, with XLEN = 32 bit
31, log 51), and the virtualised modes always, where the walk says which stages there are (R82, log 22). -/
def accessesTranslated (mode : Mode) (s : State) : Prop :=
  mode.virt = true ∨
  ((mode = .s ∨ (mode = .u ∧ s.cfg.sImplemented = true)) ∧
    ((s.cfg.xlen = .rv64 ∧ s.satp.extractLsb' 60 4 ≠ 0#4) ∨ (s.cfg.xlen = .rv32 ∧ s.satp.getLsbD 31 = true)))

/-- Every PTE of the list is accepted, one after the other, and `t` is `s` with the A and D bits they had to have set. -/
def ptesPass (kind : AccessKind) (virt : Bool) : List Pte → State → State → Prop
  | [], s, t => t = s
  | p :: ps, s, t => ∃ u, checkPte kind virt p s = .ok u ∧ ptesPass kind virt ps u t

/-- A PTE of the list is rejected with the exception `e`, those before it being accepted. -/
def ptesFail (kind : AccessKind) (virt : Bool) (ptes : List Pte) (s : State) (e : Exception) : Prop :=
  ∃ before p after u, ptes = before ++ p :: after ∧ ptesPass kind virt before s u ∧ checkPte kind virt p u = .error e

/-! ## The invariants -/

/-- `menvcfg` holds a legal value (R60). -/
def menvcfgLegal (s : State) : Bool := legalValue s.cfg s.menvcfg

/-- The mode and the saved modes are modes of the configuration (R243), and S-mode returns below M. -/
def modesLegal (s : State) : Bool :=
  modeLegal s.cfg s.priv && modeLegal s.cfg s.mstatus.mpp
    && (!s.cfg.sImplemented || (modeLegal s.cfg s.mstatus.spp && s.mstatus.spp != .m))

/-- In the governed mode with LPE off, "ELP holds NO_LP_EXPECTED" (R209). -/
def elpIdle (s : State) : Bool := !(s.priv == lpMode s.cfg && !lpeOn s) || s.elp == .noLpExpected

/-- A value that fits XLEN bits. -/
def fits (c : HartConfig) (v : XWord) : Bool := trunc c v == v

/-- The registers that are XLEN bits wide hold XLEN bits, and x0 holds 0 (R32, R67; log 5). -/
def widthsOk (s : State) : Bool :=
  s.x[0] == 0#64 && s.x.toList.all (fits s.cfg) && fits s.cfg s.pc
    && fits s.cfg s.mtvec && fits s.cfg s.mepc && fits s.cfg s.mcause && fits s.cfg s.mtval
    && fits s.cfg s.stvec && fits s.cfg s.sepc && fits s.cfg s.scause && fits s.cfg s.stval
    && fits s.cfg s.medeleg && fits s.cfg s.satp && fits s.cfg s.hgatp && fits s.cfg s.ssp

/-- All of them, and the canonical form of memory and of what the fetch keeps. -/
def invariant (s : State) : Bool :=
  menvcfgLegal s && modesLegal s && elpIdle s && widthsOk s && memoryWf s.mem && memoryWf s.fetchCache

/-! ## Runs -/

/-- `t` is reached from `s` by steps that all answer a next state. -/
inductive Reaches (s : State) : State → Prop where
  | refl : Reaches s s
  | step {t u : State} (h : Reaches s t) (ht : step t = .next u) : Reaches s u

end Sys2Proof.Machine
end

