-- ==== Sys2Proof/Certificates/Slice0/Obligations.lean ====
section
/-! DEFINITION. The statements for the provers, from the numbered rules of spec/. -/

open Sys2Proof Sys2Proof.Machine

/-! ## Encoding and decoding -/

/-- No bit of an encoding is dropped (R101 to R108): every well-formed instruction, at every value of its operands, is
what its bytes decode to, whatever follows them. -/
def Obligations.DecodeOfEncodeIsTheInstruction : Prop :=
  ∀ (i : Instr) (rest : List Byte), i.wellFormed = true → decode (encode i ++ rest) = .ok (i, rest)

/-- Each word has one meaning: bytes that decode are the encoding of the well-formed instruction they decode to. -/
def Obligations.EncodeOfDecodeIsTheBytes : Prop :=
  ∀ (bs rest : List Byte) (i : Instr), decode bs = .ok (i, rest) → i.wellFormed = true ∧ encode i ++ rest = bs

/-- Words of R105 to R108 and of 95_test_vectors.md decode to the instructions they stand for. -/
def Obligations.SpecWordsDecode : Prop :=
  decodeTableWord 32 0x30A29573 = some (.csrrw 10#5 0x30A#12 5#5) ∧
  decodeTableWord 32 0x30A8F573 = some (.csrrci 10#5 0x30A#12 0x11#5) ∧
  decodeTableWord 32 0x0840000F
    = some (.fence 0#4 ⟨true, false, false, false⟩ ⟨false, true, false, false⟩ 0#5 0#5) ∧
  decodeTableWord 32 0x0EB6252F = some (.amoW 1#5 true true 11#5 12#5 10#5) ∧
  decodeTableWord 32 0x12000073 = some (.sfenceVma 0#5 0#5) ∧
  decodeTableWord 32 0x0045200F = some (.cboZero 10#5) ∧
  decodeTableWord 32 0x12345017 = some (.lpad 0x12345#20) ∧
  decodeTableWord 32 0x48B6252F = some (.ssamoswapW false false 11#5 12#5 10#5) ∧
  decodeTableWord 32 0xCE104073 = some (.sspush 1#5) ∧
  decodeTableWord 32 0xCDC04573 = some (.ssrdp 10#5) ∧
  decodeTableWord 16 0x6281 = some .cSspopchk

/-! ## A step -/

/-- When no interrupt is taken, step is what the fetched bytes decode to, with the end of a step (the draw counter,
`time`, the counters and what the fetch keeps) around it: exec of an instruction of the table, execHart of one that
only a rule describes; a fetch that MISALIGNED_POLICY stops (R84) raises its exception at `pc`; one whose translation
ends in a page fault (R165, R233) raises that exception at `pc`; and one whose first two bytes nothing has written
stops as unwrittenFetch (log 35). That a fetch is checked at a multiple of 2, before it is translated, and that the
misaligned one records `pc`, is the model's reading (log 36: deduced, its codes and the multiple presumed); that it is
translated once, at `pc`, is its choice (log 24), and so are that no fetch raises an access fault of its own (log 54)
and which A and D bits of the fetch are set where the step then traps (log 73). That the instruction runs whatever ELP
holds is its choice too: nothing is checked of ELP (R75, R211, log 59). -/
def Obligations.StepRunsTheDecodedInstruction : Prop :=
  ∀ s : State, configLegal s.cfg = true → interruptTaken s = none →
    (∀ (s' : State) (bs rest : List Byte) (i : Instr), fetch s = .bytes bs s' → decode bs = .ok (i, rest) →
      step s = tickOutcome (exec i s')) ∧
    (∀ (s' : State) (bs : List Byte) (e : DecodeError) (i : HartInstr) (w : BitVec 32), fetch s = .bytes bs s' →
      decode bs = .error e → decodeOther bs = some (i, w) → step s = tickOutcome (execHart i w s')) ∧
    (∀ e : Exception, misalignedFault s.cfg .fetch 2 s.pc = some e →
      step s = tickOutcome (.next (raise e s.pc s))) ∧
    (misalignedFault s.cfg .fetch 2 s.pc = none →
      match translate .fetch s.priv s.pc s with
      | .error e => step s = tickOutcome (.next (raise e s.pc s))
      | .ok (pa, s') => readBytes (fetchMemory s') pa 2 = none → step s = .fault (.unwrittenFetch pa.toNat))

/-- When the bytes of a well-formed instruction stand at `pc`, as the fetch sees memory, in a mode whose accesses are
not translated, step is exec of it at this state. With coherent fetch the fetch sees memory (R93, log 37); without it
each byte it sees is the one in memory or one it has kept, and what it keeps after a step is a byte it had kept or one
that memory then holds. That the instruction runs whatever ELP holds is the model's choice (R75, R211, log 59), and so
is that it is fetched at every address, with no access fault (log 54). That its bytes stand with the low byte first is
the model's reading of G22 (log 36). -/
def Obligations.StepRunsTheInstructionAtPc : Prop :=
  ∀ s : State,
    (∀ i : Instr, configLegal s.cfg = true → interruptTaken s = none → translationOn s.priv s = false →
      misalignedFault s.cfg .fetch 2 s.pc = none → i.wellFormed = true →
      readBytes (fetchMemory s) s.pc i.size = some (encode i) →
        step s = tickOutcome (exec i s)) ∧
    (s.cfg.fetchCoherent = true → fetchMemory s = s.mem) ∧
    (memoryWf s.fetchCache = true → ∀ a,
      (readByte (fetchMemory s) a = readByte s.mem a ∨ readByte (fetchMemory s) a = readByte s.fetchCache a) ∧
      (∀ t, step s = .next t → readByte t.fetchCache a = none ∨ readByte t.fetchCache a = readByte s.fetchCache a ∨
        readByte t.fetchCache a = readByte t.mem a))

/-! ## Reset -/

/-- R66 (the spec's own inference, its decision D9), in every configuration the model runs: the value after reset is
any 64-bit value with no bit outside WMASK, CBIE not 2, and not 3 under FORCE_UPGRADE_CBO_INVAL_TO_FLUSH; every such
value is the reset value for some draw, and no other. Where two fields share a bit, which the spec's parameters do not
exclude, R60 and R125 need not agree, and nothing is stated (log 38). -/
def Obligations.ResetRegisterIsAnyLegalValue : Prop :=
  ∀ (c : HartConfig) (v : BitVec 64), fieldsDistinct c = true →
    ((∃ r, (State.resetOf c r).menvcfg = v) ↔ registerInvariants c v)

/-- The hart leaves reset in M-mode with MIE = 0 and `pc` at the reset vector (R261). That the registers the spec
gives no value hold 0 is the model's choice (log 3) and is not stated. -/
def Obligations.ResetStartsInMachineMode : Prop :=
  ∀ (c : HartConfig) (r : BitVec 64),
    (State.resetOf c r).priv = .m ∧ (State.resetOf c r).mstatus.mie = false ∧
    (State.resetOf c r).pc = trunc c c.resetVector ∧ (State.resetOf c r).cfg = c

/-- The invariants hold after reset, in every configuration and for every draw: the register legal (R60),
the mode and the saved modes legal (R243), ELP idle where LPE is off (R209), x0 zero and every XLEN-wide register XLEN
bits wide (R67, log 5), memory in its canonical form. For the saved modes, ELP and the registers the spec gives no reset
value, this rests on the model's reset values (log 3), and for the saved modes on the form of log 27. -/
def Obligations.ResetMeetsTheInvariant : Prop :=
  (∀ (c : HartConfig) (r : BitVec 64), invariant (State.resetOf c r) = true) ∧
  invariant State.reset = true

/-! ## The register -/

/-- The two values of WMASK that R57, the spec's own inference, works out. -/
def Obligations.WmaskOfBaseAndFull : Prop :=
  wmask HartConfig.base = 0xE0000000000000F1#64 ∧
  wmask { HartConfig.base with smcdeleg := true, ssdbltrp := true, zicfiss := true, zicfilp := true }
    = 0xF8000000000000FD#64

/-- R56 (the spec's decision D4): a bit of no field, or of a field that is read-only zero in the configuration, is 0
after every write, and in every state that meets the invariant of R60. -/
def Obligations.BitsOutsideWmaskStayZero : Prop :=
  ∀ (c : HartConfig) (i : Nat), (wmask c).getLsbD i = false →
    (∀ old v, (swWrite c old v).getLsbD i = false) ∧
    (∀ s : State, s.cfg = c → menvcfgLegal s = true → s.menvcfg.getLsbD i = false)

/-- R126: CBIE on a write, case by case, every other bit decided on its own, and no value that makes a write an
exception: CSRRW in M-mode completes whatever it writes (R128). That a bit of no field is stored as 0 is the spec's
decision D4, that one of an absent extension is its decision D5, that a prose field is written like a tabled one its
decision D7, at the position of its decision D6 (R125, R57); that with XLEN = 32 the upper half is presented as it is, its
decision D11 (R124). -/
def Obligations.CbieOnAWriteCaseByCase : Prop :=
  (∀ (c : HartConfig) (old v : BitVec 64), c.zicbom = true →
    (v.extractLsb' 4 2 = 0#2 → (swWrite c old v).extractLsb' 4 2 = 0#2) ∧
    (v.extractLsb' 4 2 = 1#2 → (swWrite c old v).extractLsb' 4 2 = 1#2) ∧
    (v.extractLsb' 4 2 = 2#2 → (swWrite c old v).extractLsb' 4 2 = old.extractLsb' 4 2) ∧
    (v.extractLsb' 4 2 = 3#2 → (swWrite c old v).extractLsb' 4 2 =
      if c.forceUpgradeCboInvalToFlush then old.extractLsb' 4 2 else 3#2) ∧
    (∀ i, i ≠ 4 → i ≠ 5 → (swWrite c old v).getLsbD i = (v.getLsbD i && (wmask c).getLsbD i))) ∧
  (∀ (s : State) (rd rs1 : RegIdx), s.priv = .m → s.cfg.uImplemented = true →
    ∃ t, exec (.csrrw rd 0x30A#12 rs1) s = .next t ∧ t.pc = trunc s.cfg (s.pc + 4#64) ∧ t.priv = .m ∧
      t.menvcfg = swWrite s.cfg s.menvcfg (presentLow s.cfg s.menvcfg (getReg s rs1)))

/-- R127 (b) to (e), the spec's own inference: a write keeps the invariants of the register, writing a legal value
back changes nothing (where no two fields share a bit, log 38), a write done twice is the write, and all but CBIE depends
on the written value alone. -/
def Obligations.SwWriteLaws : Prop :=
  ∀ (c : HartConfig) (old v : BitVec 64),
    (legalValue c old = true → legalValue c (swWrite c old v) = true) ∧
    (fieldsDistinct c = true → legalValue c old = true → swWrite c old old = old) ∧
    (swWrite c (swWrite c old v) v = swWrite c old v) ∧
    (∀ old' i, i ≠ 4 → i ≠ 5 → (swWrite c old v).getLsbD i = (swWrite c old' v).getLsbD i)

/-! ## The CSR instructions on `menvcfg` -/

/-- R128 to R130 on `menvcfg`, and with XLEN = 32 on `menvcfgh`, in M-mode, every register and every value: what the
register holds after, the old view in `rd` (x0 stays 0), `rs1` = x0 of CSRRS and CSRRC writes nothing, and the frame. The
frame says which windows open (R159, R161, R168: the spec's decisions D22 and D23). -/
def Obligations.RegisterFormsAccessMenvcfg : Prop :=
  ∀ (s : State) (n : CsrNum) (rd rs1 : RegIdx), menvcfghNumberLegal s.cfg.csrMenvcfgh = true → s.priv = .m → s.cfg.uImplemented = true →
    namesMenvcfg s.cfg n →
    (∃ t, exec (.csrrw rd n rs1) s = .next t ∧
      t.menvcfg = swWrite s.cfg s.menvcfg (presentedThrough s.cfg n s.menvcfg (getReg s rs1)) ∧
      csrFrame rd (viewThrough s.cfg n s.menvcfg) s t ∧ menvcfgFrame s t) ∧
    (∃ t, exec (.csrrs rd n rs1) s = .next t ∧
      t.menvcfg = (if rs1 = 0#5 then s.menvcfg else
        swWrite s.cfg s.menvcfg (presentedThrough s.cfg n s.menvcfg (viewThrough s.cfg n s.menvcfg ||| getReg s rs1))) ∧
      csrFrame rd (viewThrough s.cfg n s.menvcfg) s t ∧ menvcfgFrame s t) ∧
    (∃ t, exec (.csrrc rd n rs1) s = .next t ∧
      t.menvcfg = (if rs1 = 0#5 then s.menvcfg else
        swWrite s.cfg s.menvcfg (presentedThrough s.cfg n s.menvcfg (viewThrough s.cfg n s.menvcfg &&& ~~~(getReg s rs1)))) ∧
      csrFrame rd (viewThrough s.cfg n s.menvcfg) s t ∧ menvcfgFrame s t)

/-- R131 to R133 on `menvcfg`, and with XLEN = 32 on `menvcfgh`, in M-mode: the zero-extended immediate, `uimm` = 0 of
CSRRSI and CSRRCI writes nothing, and the frame, with the windows that open (R159, R161, R168: the spec's decisions
D22 and D23). -/
def Obligations.ImmediateFormsAccessMenvcfg : Prop :=
  ∀ (s : State) (n : CsrNum) (rd uimm : RegIdx), menvcfghNumberLegal s.cfg.csrMenvcfgh = true → s.priv = .m → s.cfg.uImplemented = true →
    namesMenvcfg s.cfg n →
    (∃ t, exec (.csrrwi rd n uimm) s = .next t ∧
      t.menvcfg = swWrite s.cfg s.menvcfg (presentedThrough s.cfg n s.menvcfg (uimm.setWidth 64)) ∧
      csrFrame rd (viewThrough s.cfg n s.menvcfg) s t ∧ menvcfgFrame s t) ∧
    (∃ t, exec (.csrrsi rd n uimm) s = .next t ∧
      t.menvcfg = (if uimm = 0#5 then s.menvcfg else
        swWrite s.cfg s.menvcfg (presentedThrough s.cfg n s.menvcfg (viewThrough s.cfg n s.menvcfg ||| uimm.setWidth 64))) ∧
      csrFrame rd (viewThrough s.cfg n s.menvcfg) s t ∧ menvcfgFrame s t) ∧
    (∃ t, exec (.csrrci rd n uimm) s = .next t ∧
      t.menvcfg = (if uimm = 0#5 then s.menvcfg else
        swWrite s.cfg s.menvcfg (presentedThrough s.cfg n s.menvcfg (viewThrough s.cfg n s.menvcfg &&& ~~~(uimm.setWidth 64)))) ∧
      csrFrame rd (viewThrough s.cfg n s.menvcfg) s t ∧ menvcfgFrame s t)

/-- R62, and two conclusions the spec draws: R61 (with XLEN = 32 a write through 0x30A reaches bits 31:0) and R124 (a
write through one number presents the other half as it is, its decision D11). `menvcfgh` reads bits 63:32, a write
presents the lower half as it is, and a legal register keeps the half the number does not reach (where no two fields
share a bit, log 38). The frame says which windows open (R159, R161, R168: the spec's decisions D22 and D23). -/
def Obligations.MenvcfghReachesTheUpperHalf : Prop :=
  ∀ (s : State) (rd rs1 : RegIdx), s.priv = .m → s.cfg.uImplemented = true → s.cfg.xlen = .rv32 →
    menvcfghNumberLegal s.cfg.csrMenvcfgh = true →
    (∃ t, exec (.csrrw rd s.cfg.csrMenvcfgh rs1) s = .next t ∧
      t.menvcfg = swWrite s.cfg s.menvcfg ((getReg s rs1).extractLsb' 0 32 ++ s.menvcfg.extractLsb' 0 32) ∧
      (fieldsDistinct s.cfg = true → menvcfgLegal s = true → t.menvcfg.extractLsb' 0 32 = s.menvcfg.extractLsb' 0 32) ∧
      csrFrame rd ((s.menvcfg.extractLsb' 32 32).setWidth 64) s t ∧ menvcfgFrame s t) ∧
    (∃ t, exec (.csrrw rd 0x30A#12 rs1) s = .next t ∧
      (fieldsDistinct s.cfg = true → menvcfgLegal s = true → t.menvcfg.extractLsb' 32 32 = s.menvcfg.extractLsb' 32 32) ∧
      csrFrame rd ((s.menvcfg.extractLsb' 0 32).setWidth 64) s t ∧ menvcfgFrame s t)

/-- R120 (that the failure is this exception is the spec's decision D10): a CSR instruction that names `menvcfg` or
`menvcfgh` below M raises an illegal-instruction exception; nothing is read or written, and no general register
changes. -/
def Obligations.MenvcfgBelowMIsIllegal : Prop :=
  ∀ (s : State) (i : Instr) (n : CsrNum), csrNumberOf i = some n → n = 0x30A#12 ∨ n = s.cfg.csrMenvcfgh →
    s.priv ≠ .m →
    ∃ t, exec i s = .next t ∧ t = raise .illegalInstruction (instrInfo s.cfg (encodeWord i)) s ∧ trapFrame s t

/-- R121 (the exception is the spec's decision D10): a CSR instruction that names a register that does not exist
raises an illegal-instruction exception in every mode; `menvcfg` and `menvcfgh` do not exist without U-mode,
`menvcfgh` not with XLEN = 64, `stimecmp` not without Sstc (R185). -/
def Obligations.AbsentCsrIsIllegal : Prop :=
  ∀ (s : State) (i : Instr) (n : CsrNum), menvcfghNumberLegal s.cfg.csrMenvcfgh = true → csrNumberOf i = some n →
    csrLookup n s = none ∨
    (s.cfg.uImplemented = false ∧ (n = 0x30A#12 ∨ n = s.cfg.csrMenvcfgh)) ∨
    (s.cfg.xlen = .rv64 ∧ n = s.cfg.csrMenvcfgh) ∨
    (s.cfg.sstc = false ∧ n = 0x14D#12) →
    ∃ t, exec i s = .next t ∧ t = raise .illegalInstruction (instrInfo s.cfg (encodeWord i)) s ∧ trapFrame s t

/-- The rights of R111: an access below the level that bits 9:8 of the number give, outside a virtualised mode, and a
write of a number whose bits 11:10 are 11, raise an illegal-instruction exception; nothing is read or written. R111 names
no exception: for the level it is the general knowledge G16 and the spec's decision D10, for the read-only write it is
the model's (log 55). -/
def Obligations.CsrRightsAreEnforced : Prop :=
  ∀ (s : State) (i : Instr) (n : CsrNum), csrNumberOf i = some n →
    (s.priv.virt = false ∧ modeLevel s.cfg s.priv < (n.extractLsb' 8 2).toNat) ∨
    (csrWritesOf i = true ∧ n.extractLsb' 10 2 = 3#2) →
    ∃ t, exec i s = .next t ∧ t = raise .illegalInstruction (instrInfo s.cfg (encodeWord i)) s ∧ trapFrame s t

/-! ## The other CSRs -/

/-- Any of the six CSR instructions on any CSR it may access completes: `rd` gets the value before the write, and the
frame of every general register, memory and the mode; without a write (R134), no special register changes. The counters
of R247 are read so in every mode, by the family's numbers (log 57). With a write, the special registers become those
that a write of the value the form presents leaves (`writeCsr`, whose stores the other statements on CSRs say). That in
VS-mode the register is the virtual supervisor's own copy is presumed (log 43), and that no further gate of the
hypervisor stops `stimecmp` or another S-level number there is the model's choice (log 75). That an access to a
register the spec does not describe (`otherCsrs`, and `smcdelegCsrs` with CDE = 1) completes, and that a write of one
changes nothing, is the model's choice (logs 8, 9). -/
def Obligations.CsrInstructionsComplete : Prop :=
  (∀ (s : State) (i : Instr) (n : CsrNum), csrNumberOf i = some n → csrDenied n (csrWritesOf i) s = none →
    ∃ r t, csrLookup n s = some r ∧ exec i s = .next t ∧
      csrFrame (csrRdOf i) (trunc s.cfg (readCsr (substituted s.priv r) s)) s t ∧
      (csrWritesOf i = true →
        sameSpecial
          (writeCsr (substituted s.priv r) (csrValueOf i (readCsr (substituted s.priv r) s) s) s) t) ∧
      (csrWritesOf i = false → sameSpecial s t)) ∧
  (∀ (s : State) (i : Instr) (k : BitVec 5), menvcfghNumberLegal s.cfg.csrMenvcfgh = true → csrWritesOf i = false →
    (csrNumberOf i = some (0b1100000#7 ++ k) → ∃ t, exec i s = .next t ∧
      csrFrame (csrRdOf i) (lowView s.cfg (counterValue s k)) s t ∧ sameSpecial s t) ∧
    (s.cfg.xlen = .rv32 → csrNumberOf i = some (0b1100100#7 ++ k) → ∃ t, exec i s = .next t ∧
      csrFrame (csrRdOf i) (highView (counterValue s k)) s t ∧ sameSpecial s t))

/-- A CSR instruction changes no special register but the one it names, and what a write of `menvcfg` frees (U11). In
VS-mode the named register is the virtual supervisor's own copy (log 43). That a write of a register the spec does not
describe (`otherCsrs`, `smcdelegCsrs`) changes nothing the model holds is the model's choice (logs 8, 9). -/
def Obligations.CsrWriteChangesOnlyTheNamedRegister : Prop :=
  ∀ (s t : State) (i : Instr) (n : CsrNum), csrNumberOf i = some n → csrDenied n (csrWritesOf i) s = none →
    exec i s = .next t → ∃ r, csrLookup n s = some r ∧ sameButCsr (substituted s.priv r) s t

/-- R175, R177: a number that Smcdeleg adds (it names none of the registers the model describes) names, with CDE = 0,
a register that does not exist, in every mode. Which numbers those are is a parameter (log 9). With CDE = 1 a read in
M-mode completes: what the enabled extension does is not in the source (R176, N9), and that it raises no exception of its
own there is the model's choice (log 9). A hart without U-mode has no `menvcfg`, and CDE is taken as 0 (log 52). -/
def Obligations.SmcdelegCsrsExistOnlyWithCde : Prop :=
  ∀ (s : State) (i : Instr) (n : CsrNum), csrNumberOf i = some n → csrNamed n s.cfg = none → n ∈ s.cfg.smcdelegCsrs →
    (s.cfg.uImplemented = false ∨ s.cfg.smcdeleg = false ∨ s.menvcfg.getLsbD s.cfg.posCde.val = false →
      exec i s = .next (raise .illegalInstruction (instrInfo s.cfg (encodeWord i)) s)) ∧
    (s.cfg.uImplemented = true → s.cfg.smcdeleg = true → s.menvcfg.getLsbD s.cfg.posCde.val = true → s.priv = .m →
      csrWritesOf i = false →
      ∃ t, exec i s = .next t ∧ t.pc = trunc s.cfg (s.pc + 4#64) ∧ sameRegsBut (csrRdOf i) s t ∧ sameButRegs s t)

/-- R182, its two numbers included: with STCE clear an access to `stimecmp`, or with XLEN = 32 to `stimecmph`, below M
raises an illegal-instruction exception; `stimecmp` and `rd` are unchanged. In M-mode the access is made whatever STCE
holds. -/
def Obligations.StimecmpBelowMWithStceClearIsIllegal : Prop :=
  ∀ (s : State) (i : Instr) (n : CsrNum), menvcfghNumberLegal s.cfg.csrMenvcfgh = true → csrNumberOf i = some n →
    n = 0x14D#12 ∨ (n = 0x15D#12 ∧ s.cfg.xlen = .rv32) →
    (s.priv ≠ .m → stceOn s = false →
      ∃ t, exec i s = .next t ∧ t = raise .illegalInstruction (instrInfo s.cfg (encodeWord i)) s ∧ trapFrame s t) ∧
    (s.priv = .m → s.cfg.sstc = true →
      ∃ t, exec i s = .next t ∧
        csrFrame (csrRdOf i) (if n = 0x14D#12 then lowView s.cfg s.stimecmp else highView s.stimecmp) s t)

/-- `stimecmp` is read and written in M-mode whatever STCE holds (R182), and in S-mode with STCE set (R181); with XLEN = 32
`stimecmph` reads and writes its bits 63:32 and leaves bits 31:0. -/
def Obligations.StimecmpIsReadAndWritten : Prop :=
  ∀ (s : State) (rd rs1 : RegIdx), menvcfghNumberLegal s.cfg.csrMenvcfgh = true → s.cfg.sstc = true →
    s.priv = .m ∨ (s.priv = .s ∧ stceOn s = true) →
    (∃ t, exec (.csrrw rd 0x14D#12 rs1) s = .next t ∧
      t.stimecmp = presentLow s.cfg s.stimecmp (getReg s rs1) ∧ csrFrame rd (lowView s.cfg s.stimecmp) s t ∧
      sameEnvironment s t ∧ sameTrapRegs s t ∧ t.mstatus = s.mstatus) ∧
    (s.cfg.xlen = .rv32 → ∃ t, exec (.csrrw rd 0x15D#12 rs1) s = .next t ∧
      t.stimecmp = (getReg s rs1).extractLsb' 0 32 ++ s.stimecmp.extractLsb' 0 32 ∧
      csrFrame rd ((s.stimecmp.extractLsb' 32 32).setWidth 64) s t ∧
      sameEnvironment s t ∧ sameTrapRegs s t ∧ t.mstatus = s.mstatus)

/-- R181, R183, R184, R186: `mip` read in M-mode shows the comparison in bit 5 while STCE is on, and what software
last wrote while it is off; a write of `mip` changes that bit only while STCE is off. `sip`, read in M-mode or S-mode, shows
the same bit, and a write of it changes nothing (R184, R236); that it shows the bit only while bit 5 of `mideleg` is set is
presumed (log 58). The numbers of `mip` and `sip` are the family's (log 6). -/
def Obligations.TimerPendingBitInMip : Prop :=
  ∀ (s : State) (rd rs1 : RegIdx), menvcfghNumberLegal s.cfg.csrMenvcfgh = true → s.cfg.sImplemented = true →
    (s.priv = .m → ∃ t, exec (.csrrs rd 0x344#12 0#5) s = .next t ∧ sameSpecial s t ∧
      (rd ≠ 0#5 → (getReg t rd).getLsbD 5
        = (if stceOn s then decide (s.stimecmp.toNat ≤ s.time.toNat) else s.mipStip))) ∧
    (s.priv = .m → ∃ t, exec (.csrrw rd 0x344#12 rs1) s = .next t ∧
      t.mipStip = (if stceOn s then s.mipStip else (getReg s rs1).getLsbD 5) ∧ t.stimecmp = s.stimecmp) ∧
    (s.priv = .m ∨ s.priv = .s →
      (∃ t, exec (.csrrs rd 0x144#12 0#5) s = .next t ∧ sameSpecial s t ∧
        (rd ≠ 0#5 → (getReg t rd).getLsbD 5
          = (s.midelegSti && if stceOn s then decide (s.stimecmp.toNat ≤ s.time.toNat) else s.mipStip))) ∧
      (∃ t, exec (.csrrw rd 0x144#12 rs1) s = .next t ∧ sameSpecial s t))

/-- R71, R217, R222: while the `menvcfg` field is 0, the coupled fields of `henvcfg` (PBMTE 62, ADUE 61, SSE 3, DTE
59) and `senvcfg` (SSE 3), and SDT (bit 24) of `sstatus` and `vsstatus`, read 0 and a write leaves what is stored. While
it is 1 they store the bit written and read it back (R219, conflict C8, for SSE; R223, general knowledge, for SDT of
`sstatus`; that `vsstatus.SDT` depends on `menvcfg.DTE` alone is the model's choice, log 64). The positions in the other
registers are the family's (log 6), and so is that `henvcfgh` reaches bits 63:32 (log 63). The fields of the two registers
that no `menvcfg` field governs, FIOM 0, LPE 2, CBIE 5:4, CBCFE 6 and CBZE 7, store the bit written, CBIE by the rule of
R126, while their extension is implemented; that they do is presumed (logs 6, 16, 70). -/
def Obligations.CoupledFieldsReadZeroAndIgnoreWrites : Prop :=
  ∀ (s : State) (w : XWord),
    (∀ pos : Nat, (pos = 62 ∧ svpbmtAvailable s = false) ∨ (pos = 61 ∧ adueActive s = false) ∨
        (pos = 59 ∧ dteOn s = false) →
      (readCsr .henvcfg s).getLsbD pos = false ∧ (readCsr .henvcfgh s).getLsbD (pos - 32) = false ∧
      (writeCsr .henvcfg w s).henvcfg.getLsbD pos = s.henvcfg.getLsbD pos ∧
      (writeCsr .henvcfgh w s).henvcfg.getLsbD pos = s.henvcfg.getLsbD pos) ∧
    (∀ pos : Nat, (pos = 62 ∧ svpbmtAvailable s = true) ∨ (pos = 61 ∧ adueActive s = true) ∨
        (pos = 59 ∧ dteOn s = true) →
      (s.cfg.xlen = .rv64 → (writeCsr .henvcfg w s).henvcfg.getLsbD pos = w.getLsbD pos ∧
        (readCsr .henvcfg (writeCsr .henvcfg w s)).getLsbD pos = w.getLsbD pos) ∧
      (s.cfg.xlen = .rv32 → (writeCsr .henvcfgh w s).henvcfg.getLsbD pos = w.getLsbD (pos - 32) ∧
        (readCsr .henvcfgh (writeCsr .henvcfgh w s)).getLsbD (pos - 32) = w.getLsbD (pos - 32))) ∧
    (sseOn s = false →
      (readCsr .henvcfg s).getLsbD 3 = false ∧ (readCsr .senvcfg s).getLsbD 3 = false ∧
      (writeCsr .henvcfg w s).henvcfg.getLsbD 3 = s.henvcfg.getLsbD 3 ∧
      (writeCsr .senvcfg w s).senvcfg.getLsbD 3 = s.senvcfg.getLsbD 3) ∧
    (sseOn s = true →
      (writeCsr .henvcfg w s).henvcfg.getLsbD 3 = w.getLsbD 3 ∧
      (writeCsr .senvcfg w s).senvcfg.getLsbD 3 = w.getLsbD 3 ∧
      (readCsr .henvcfg (writeCsr .henvcfg w s)).getLsbD 3 = w.getLsbD 3 ∧
      (readCsr .senvcfg (writeCsr .senvcfg w s)).getLsbD 3 = w.getLsbD 3) ∧
    (dteOn s = false →
      (readCsr .sstatus s).getLsbD 24 = false ∧ (readCsr .vsstatus s).getLsbD 24 = false ∧
      (writeCsr .sstatus w s).mstatus.sdt = s.mstatus.sdt ∧ (writeCsr .mstatus w s).mstatus.sdt = s.mstatus.sdt ∧
      (writeCsr .vsstatus w s).vsSdt = s.vsSdt) ∧
    (dteOn s = true →
      (s.cfg.sImplemented = true → (writeCsr .sstatus w s).mstatus.sdt = w.getLsbD 24 ∧
        (readCsr .sstatus (writeCsr .sstatus w s)).getLsbD 24 = w.getLsbD 24) ∧
      (writeCsr .vsstatus w s).vsSdt = w.getLsbD 24 ∧
      (readCsr .vsstatus (writeCsr .vsstatus w s)).getLsbD 24 = w.getLsbD 24) ∧
    (∀ (pos : Nat) (held : Bool), (pos = 0 ∧ held = true) ∨ (pos = 2 ∧ held = s.cfg.zicfilp) ∨
        (pos = 6 ∧ held = s.cfg.zicbom) ∨ (pos = 7 ∧ held = s.cfg.zicboz) →
      (readCsr .senvcfg s).getLsbD pos = (held && s.senvcfg.getLsbD pos) ∧
      (readCsr .henvcfg s).getLsbD pos = (held && s.henvcfg.getLsbD pos) ∧
      (writeCsr .senvcfg w s).senvcfg.getLsbD pos = (if held then w.getLsbD pos else s.senvcfg.getLsbD pos) ∧
      (writeCsr .henvcfg w s).henvcfg.getLsbD pos = (if held then w.getLsbD pos else s.henvcfg.getLsbD pos)) ∧
    (∀ pos : Nat, pos = 4 ∨ pos = 5 →
      let stored := s.cfg.zicbom = true ∧ (w.extractLsb' 4 2 = 0#2 ∨ w.extractLsb' 4 2 = 1#2 ∨
        (w.extractLsb' 4 2 = 3#2 ∧ s.cfg.forceUpgradeCboInvalToFlush = false))
      (readCsr .senvcfg s).getLsbD pos = (s.cfg.zicbom && s.senvcfg.getLsbD pos) ∧
      (readCsr .henvcfg s).getLsbD pos = (s.cfg.zicbom && s.henvcfg.getLsbD pos) ∧
      (stored → (writeCsr .senvcfg w s).senvcfg.getLsbD pos = w.getLsbD pos ∧
        (writeCsr .henvcfg w s).henvcfg.getLsbD pos = w.getLsbD pos) ∧
      (¬ stored → (writeCsr .senvcfg w s).senvcfg.getLsbD pos = s.senvcfg.getLsbD pos ∧
        (writeCsr .henvcfg w s).henvcfg.getLsbD pos = s.henvcfg.getLsbD pos))

/-- A trap register, `medeleg`, `hgatp` or the shadow stack pointer reads back the XLEN bits written, and no other of
them changes. That they store every value is the model's choice (log 50). -/
def Obligations.PlainCsrsReadBack : Prop :=
  ∀ (s : State) (w : XWord) (r q : CsrReg),
    r ∈ [.medeleg, .hgatp, .mcause, .mtval, .scause, .stval, .ssp] →
    q ∈ [.medeleg, .hgatp, .mcause, .mtval, .scause, .stval, .ssp, .mepc, .sepc, .mtvec, .stvec, .satp] →
    readCsr q (writeCsr r w s) = if q = r then trunc s.cfg w else readCsr q s

/-- CSRRW in M-mode on `mstatus` (its fields, R239 and R222), `mie`, `mtvec` and `mepc`, and in M-mode or S-mode on
`sstatus`, `sie`, `satp`, `stvec` and `sepc`, and in M-mode on `mideleg`: it completes with the old view in `rd`, and
stores these fields. Numbers, positions and legal values are the model's (logs 6, 27, 31, 50, 51, 58), and so is that
SIE is stored as written whatever SDT holds (log 74). -/
def Obligations.StatusAndTrapCsrsStoreTheirFields : Prop :=
  ∀ (s : State) (rd rs1 : RegIdx), menvcfghNumberLegal s.cfg.csrMenvcfgh = true → s.cfg.sImplemented = true →
    let v := getReg s rs1
    let old := fun r => trunc s.cfg (readCsr r s)
    (s.priv = .m →
      (∃ t, exec (.csrrw rd 0x300#12 rs1) s = .next t ∧ csrFrame rd (old .mstatus) s t ∧ sameButCsr .mstatus s t ∧
        t.mstatus.mie = v.getLsbD 3 ∧ t.mstatus.mpie = v.getLsbD 7 ∧ t.mstatus.mprv = (s.cfg.uImplemented && v.getLsbD 17) ∧
        modeBits t.mstatus.mpp =
          (if v.extractLsb' 11 2 = 2#2 ∨ (v.extractLsb' 11 2 = 0#2 ∧ s.cfg.uImplemented = false)
            then modeBits s.mstatus.mpp else v.extractLsb' 11 2) ∧
        t.mstatus.sie = v.getLsbD 1 ∧ t.mstatus.spie = v.getLsbD 5 ∧
        modeBits t.mstatus.spp = (if v.getLsbD 8 then 1#2 else if s.cfg.uImplemented then 0#2 else modeBits s.mstatus.spp) ∧
        t.mstatus.sdt = (if dteOn s then v.getLsbD 24 else s.mstatus.sdt)) ∧
      (∃ t, exec (.csrrw rd 0x304#12 rs1) s = .next t ∧ csrFrame rd (old .mie) s t ∧ sameButCsr .mie s t ∧
        t.mieStie = v.getLsbD 5) ∧
      (∃ t, exec (.csrrw rd 0x303#12 rs1) s = .next t ∧ csrFrame rd (old .mideleg) s t ∧ sameButCsr .mideleg s t ∧
        t.midelegSti = v.getLsbD 5) ∧
      (∃ t, exec (.csrrw rd 0x305#12 rs1) s = .next t ∧ csrFrame rd (old .mtvec) s t ∧ sameButCsr .mtvec s t ∧
        t.mtvec = trunc s.cfg (v &&& ~~~2#64)) ∧
      (∃ t, exec (.csrrw rd 0x341#12 rs1) s = .next t ∧ csrFrame rd (old .mepc) s t ∧ sameButCsr .mepc s t ∧
        t.mepc = trunc s.cfg (v &&& ~~~1#64))) ∧
    (s.priv = .m ∨ s.priv = .s →
      (∃ t, exec (.csrrw rd 0x100#12 rs1) s = .next t ∧ csrFrame rd (old .sstatus) s t ∧ sameButCsr .sstatus s t ∧
        t.mstatus.sie = v.getLsbD 1 ∧ t.mstatus.spie = v.getLsbD 5 ∧
        modeBits t.mstatus.spp = (if v.getLsbD 8 then 1#2 else if s.cfg.uImplemented then 0#2 else modeBits s.mstatus.spp) ∧
        t.mstatus.sdt = (if dteOn s then v.getLsbD 24 else s.mstatus.sdt) ∧
        t.mstatus.mie = s.mstatus.mie ∧ t.mstatus.mpie = s.mstatus.mpie ∧ t.mstatus.mpp = s.mstatus.mpp ∧
        t.mstatus.mprv = s.mstatus.mprv) ∧
      (∃ t, exec (.csrrw rd 0x104#12 rs1) s = .next t ∧ csrFrame rd (old .sie) s t ∧ sameButCsr .sie s t ∧
        t.mieStie = (if s.midelegSti then v.getLsbD 5 else s.mieStie)) ∧
      (∃ t, exec (.csrrw rd 0x180#12 rs1) s = .next t ∧ csrFrame rd (old .satp) s t ∧ sameButCsr .satp s t ∧
        (s.cfg.satpModeReadOnlyZero = false → t.satp = v) ∧
        (s.cfg.satpModeReadOnlyZero = true → atpOn s.cfg t.satp = false)) ∧
      (∃ t, exec (.csrrw rd 0x105#12 rs1) s = .next t ∧ csrFrame rd (old .stvec) s t ∧ sameButCsr .stvec s t ∧
        t.stvec = trunc s.cfg (v &&& ~~~2#64)) ∧
      (∃ t, exec (.csrrw rd 0x141#12 rs1) s = .next t ∧ csrFrame rd (old .sepc) s t ∧ sameButCsr .sepc s t ∧
        t.sepc = trunc s.cfg (v &&& ~~~1#64)))

/-! ## FENCE and SFENCE.VMA -/

/-- R145, R151: `fiom_active` holds exactly below M with FIOM = 1, and never where FIOM is read-only zero. That a FIOM
bit of `senvcfg` or `henvcfg` adds nothing here is the spec's decision D1 (log 47). -/
def Obligations.FiomIsActiveExactlyBelowM : Prop :=
  ∀ s : State, fiomActive s = true ↔
    s.priv ≠ .m ∧ s.cfg.fiomReadOnlyZero = false ∧ s.menvcfg.getLsbD 0 = true

/-- R146 to R148: FENCE completes, and hands on its four predecessor and four successor bits, where `fiom_active` adds
reads to device input and writes to device output on both sides; PR does not imply PI. -/
def Obligations.FenceHandsOnItsEffectiveSets : Prop :=
  ∀ (s : State) (fm : BitVec 4) (pred succ : AccessSet) (rs1 rd : RegIdx),
    ∃ t, exec (.fence fm pred succ rs1 rd) s = .next t ∧
      t.ordering = .fence fm
        ⟨pred.i, pred.o, pred.r || (fiomActive s && pred.i), pred.w || (fiomActive s && pred.o)⟩
        ⟨succ.i, succ.o, succ.r || (fiomActive s && succ.i), succ.w || (fiomActive s && succ.o)⟩ :: s.ordering ∧
      t.pc = trunc s.cfg (s.pc + 4#64) ∧ sameRegs s t ∧ sameSpecial s t ∧ sameMemory s t ∧ t.cacheOps = s.cacheOps

/-- R160 for the S-stage and VS-stage windows, R161 for the G-stage ones, which SFENCE.VMA leaves: the form with both
register numbers 0 closes the PBMTE and the ADUE window, every other form closes nothing. That it completes in every
mode, U-mode and the virtualised modes included, is the model's choice (log 40): the spec has no privilege rule of it. -/
def Obligations.SfenceVmaClosesTheWindows : Prop :=
  ∀ (s : State) (rs1 rs2 : RegIdx),
    ∃ t, exec (.sfenceVma rs1 rs2) s = .next t ∧
      t.windows = (if rs1 = 0#5 ∧ rs2 = 0#5 then ⟨false, s.windows.pbmteG, false, s.windows.adueG⟩ else s.windows) ∧
      t.pc = trunc s.cfg (s.pc + 4#64) ∧ sameRegs s t ∧ sameStatus s t ∧ sameTrapRegs s t ∧ sameUnits s t ∧
      t.menvcfg = s.menvcfg ∧ t.senvcfg = s.senvcfg ∧ t.henvcfg = s.henvcfg ∧ t.vsSdt = s.vsSdt ∧
      sameMemory s t ∧ sameLogs s t

/-- R159, R168 (the windows are the spec's decisions D22 for PBMTE and D23 for ADUE), for all six CSR instructions and
for both names of the register: an access that changes PBMTE opens the PBMTE window, one that changes ADUE opens the
ADUE window, with the hypervisor extension the G-stage ones too (R161), no other window opens and none closes
(`windowsAfter`); without a write the register and the windows stay. -/
def Obligations.MenvcfgWriteOpensWindows : Prop :=
  ∀ (s : State) (i : Instr) (n : CsrNum), menvcfghNumberLegal s.cfg.csrMenvcfgh = true → s.priv = .m → s.cfg.uImplemented = true →
    csrNumberOf i = some n → namesMenvcfg s.cfg n →
    ∃ t, exec i s = .next t ∧ t.windows = windowsAfter s t ∧
      (csrWritesOf i = false → t.menvcfg = s.menvcfg ∧ t.windows = s.windows)

/-- R161: HFENCE.GVMA with both register numbers 0 closes the G-stage windows, and nothing else; every other form
closes nothing. That the ADUE window closes with that of PBMTE is the spec's decision D23 (R168), that every G-stage window
does by this form alone the model's reading (log 23). That it runs in every mode is the model's choice (log 40), that it is an illegal instruction without the
hypervisor extension is presumed (log 33). -/
def Obligations.HfenceGvmaClosesTheGStageWindows : Prop :=
  ∀ (s : State) (rs1 rs2 : RegIdx) (w : BitVec 32),
    (s.cfg.hImplemented = true → ∃ t, execHart (.hfenceGvma rs1 rs2) w s = .next t ∧
      t.windows = (if rs1 = 0#5 ∧ rs2 = 0#5 then ⟨s.windows.pbmteS, false, s.windows.adueS, false⟩ else s.windows) ∧
      t.pc = trunc s.cfg (s.pc + 4#64) ∧ sameRegs s t ∧ sameStatus s t ∧ sameTrapRegs s t ∧ sameUnits s t ∧
      t.menvcfg = s.menvcfg ∧ t.senvcfg = s.senvcfg ∧ t.henvcfg = s.henvcfg ∧ t.vsSdt = s.vsSdt ∧
      sameMemory s t ∧ sameLogs s t) ∧
    (s.cfg.hImplemented = false → execHart (.hfenceGvma rs1 rs2) w s
      = .next (raise .illegalInstruction (instrInfo s.cfg w) s))

/-- R159, R161 and R168 (the windows are the spec's decisions D22 for PBMTE and D23 for ADUE), over all instructions: no step but one that runs SFENCE.VMA
with both register numbers 0 closes the PBMTE or the ADUE window, and no step but one that runs HFENCE.GVMA with both
register numbers 0 closes a G-stage window. -/
def Obligations.OnlyTheFullFenceClosesAWindow : Prop :=
  ∀ s t : State, step s = .next t →
    ((s.windows.pbmteS = true ∧ t.windows.pbmteS = false) ∨ (s.windows.adueS = true ∧ t.windows.adueS = false) →
      ∃ bs s' rest, fetch s = .bytes bs s' ∧ decode bs = .ok (.sfenceVma 0#5 0#5, rest)) ∧
    ((s.windows.pbmteG = true ∧ t.windows.pbmteG = false) ∨ (s.windows.adueG = true ∧ t.windows.adueG = false) →
      ∃ bs s' e w, fetch s = .bytes bs s' ∧ decode bs = .error e ∧ decodeOther bs = some (.hfenceGvma 0#5 0#5, w))

/-! ## Atomics -/

/-- R149, and R150, which the spec derives from it: an atomic whose operand is aligned, or performed misaligned, and
translates (in M-mode and with Bare always, to x[rs1] itself) completes. It is ordered as accessing both device I/O and
memory exactly where `fiom_active` holds, its region is device I/O, and aq or rl is set, and otherwise as its own
region; the word form touches 4 bytes at the physical address, the doubleword form 8; of the registers only `rd` may
change. What it loads and stores is free (log 10). That it completes wherever its operand translates, with no access
fault, is the model's choice (log 54), and that it does so for every funct5, those the base ISA leaves reserved
included, is deduced (log 11). That LR (funct5 00010) stores nothing is presumed (log 12), that the doubleword form is
an illegal instruction with XLEN = 32 is deduced (log 46). `s'` is `s` with the A and D bits the translation sets. That
a misaligned atomic is translated once and has the region kind of its first byte, and that a PBMT field changes no
kind, is the model's choice (logs 24, 67, 56). -/
def Obligations.AtomicsAreOrderedByFiom : Prop :=
  ∀ (s s' : State) (pa : XWord) (funct5 : BitVec 5) (aq rl : Bool) (rs2 rs1 rd : RegIdx),
    (dataAccess (atomicKind funct5) 4 (getReg s rs1) s = .ok (pa, s') →
      ∃ t, exec (.amoW funct5 aq rl rs2 rs1 rd) s = .next t ∧
      t.ordering = .atomic aq rl
        ⟨isDevice s.cfg pa, !isDevice s.cfg pa || (fiomActive s && (aq || rl))⟩ :: s.ordering ∧
      sameRegsBut rd s t ∧ sameMemoryOutside pa 4 s' t ∧ (funct5 = 0b00010#5 → sameMemory s' t) ∧
      t.pc = trunc s.cfg (s.pc + 4#64) ∧ sameSpecial s t ∧ t.cacheOps = s.cacheOps) ∧
    (s.cfg.xlen = .rv64 → dataAccess (atomicKind funct5) 8 (getReg s rs1) s = .ok (pa, s') →
      ∃ t, exec (.amoD funct5 aq rl rs2 rs1 rd) s = .next t ∧
      t.ordering = .atomic aq rl
        ⟨isDevice s.cfg pa, !isDevice s.cfg pa || (fiomActive s && (aq || rl))⟩ :: s.ordering ∧
      sameRegsBut rd s t ∧ sameMemoryOutside pa 8 s' t ∧ (funct5 = 0b00010#5 → sameMemory s' t) ∧
      t.pc = trunc s.cfg (s.pc + 4#64) ∧ sameSpecial s t ∧ t.cacheOps = s.cacheOps) ∧
    (s.cfg.xlen = .rv32 → exec (.amoD funct5 aq rl rs2 rs1 rd) s
      = .next (raise .illegalInstruction (instrInfo s.cfg (encodeWord (.amoD funct5 aq rl rs2 rs1 rd))) s))

/-- An access of a mode whose accesses are not translated reaches the address itself, and changes nothing (R169):
M-mode, and S- and U-mode with `satp.MODE` Bare (bits 63:60, with XLEN = 32 bit 31; presumed, log 51). Where a
translation answers, nothing changes but memory, and of memory only the bytes of PTEs of its walk that need A or D set
(R163, R164); the walk itself is a free value (log 22). In the other modes every PTE of the walk is judged: where one is
rejected the access raises its page fault (R157, R165, R216, R233), where all pass it raises what the walk itself raises,
or reaches the address the walk gives with their A and D bits set. That a page fault leaves the bits of earlier PTEs as
they were is the model's choice (log 73). -/
def Obligations.TranslationChangesOnlyMemory : Prop :=
  (∀ (s : State) (kind : AccessKind) (va : XWord),
    (s.priv = .m → translate kind s.priv va s = .ok (va, s)) ∧
    ((s.cfg.xlen = .rv64 ∧ s.satp.extractLsb' 60 4 = 0#4) ∨ (s.cfg.xlen = .rv32 ∧ s.satp.getLsbD 31 = false) →
      s.priv = .s ∨ s.priv = .u → translate kind s.priv va s = .ok (va, s))) ∧
  (∀ (s s' : State) (kind : AccessKind) (mode : Mode) (va pa : XWord), translate kind mode va s = .ok (pa, s') →
    sameRegs s s' ∧ sameSpecial s s' ∧ sameLogs s s' ∧ s'.pc = s.pc ∧
    (memoryWf s.mem = true → memoryWf s'.mem = true) ∧
    (∀ b, (∀ p ∈ (Config.walk s.draws kind).ptes, needsAd kind p = true → ¬ inSpan p.address p.updated.length b) →
      readByte s'.mem b = readByte s.mem b)) ∧
  (∀ (s : State) (kind : AccessKind) (mode : Mode) (va : XWord), accessesTranslated mode s →
    (∀ e, ptesFail kind mode.virt (Config.walk s.draws kind).ptes s e → translate kind mode va s = .error e) ∧
    (∀ t, ptesPass kind mode.virt (Config.walk s.draws kind).ptes s t →
      translate kind mode va s =
        match (Config.walk s.draws kind).ownFault with
        | none => .ok ((Config.walk s.draws kind).pa, t)
        | some g => .error (pageFault kind (mode.virt && g))))

/-- R233 and R246 for every walk, on the atomics, on SSAMOSWAP with an active Zicfiss, and on the four cache-block
instructions wherever their enables let them run: where the access of x[rs1] ends in a page fault, that exception is
raised with the virtual address, and nothing else happens; where it answers, the instruction completes. In M-mode with
MPRV set the access is that of the mode in MPP (R169; presumed, log 25), and otherwise that of the mode itself. A
misaligned operand of an atomic is performed or raises the exception of MISALIGNED_POLICY (R84; codes presumed, log
36). That an access which answers completes, with no access fault, is the model's choice (log 54), and that this holds
of every funct5 is deduced (log 11). The gates of `senvcfg` and `henvcfg` in `cboRuns` are presumed (log 16), and that
a cache-block instruction translates as a store (log 15). That a misaligned operand is translated once, at its first
byte, which its page fault records, that one policy decides for every access, that a block is translated once, and that
a page fault leaves every A and D bit as it was, are the model's choices (logs 24, 65, 66, 73). -/
def Obligations.TranslatedAccessCompletesOrPageFaults : Prop :=
  ∀ (s : State) (funct5 : BitVec 5) (aq rl : Bool) (rs2 rs1 rd : RegIdx),
    (match dataAccess (atomicKind funct5) 4 (getReg s rs1) s with
      | .error e => exec (.amoW funct5 aq rl rs2 rs1 rd) s = .next (raise e (getReg s rs1) s)
      | .ok _ => ∃ t, exec (.amoW funct5 aq rl rs2 rs1 rd) s = .next t ∧ t.pc = trunc s.cfg (s.pc + 4#64)) ∧
    (s.cfg.xlen = .rv64 →
      match dataAccess (atomicKind funct5) 8 (getReg s rs1) s with
      | .error e => exec (.amoD funct5 aq rl rs2 rs1 rd) s = .next (raise e (getReg s rs1) s)
      | .ok _ => ∃ t, exec (.amoD funct5 aq rl rs2 rs1 rd) s = .next t ∧ t.pc = trunc s.cfg (s.pc + 4#64)) ∧
    (∀ e, shadowStackActive s = true →
      (dataAccess .store 4 (getReg s rs1) s = .error e →
        exec (.ssamoswapW aq rl rs2 rs1 rd) s = .next (raise e (getReg s rs1) s)) ∧
      (s.cfg.xlen = .rv64 → dataAccess .store 8 (getReg s rs1) s = .error e →
        exec (.ssamoswapD aq rl rs2 rs1 rd) s = .next (raise e (getReg s rs1) s))) ∧
    (∀ (kind : AccessKind) (n : Nat) (va : XWord),
      ((va.toNat % n = 0 ∨ s.cfg.misaligned = .perform) → dataAccess kind n va s =
        translate kind (if s.priv = .m ∧ s.mstatus.mprv = true then s.mstatus.mpp else s.priv) va s) ∧
      (va.toNat % n ≠ 0 → s.cfg.misaligned = .addressMisaligned →
        dataAccess .load n va s = .error .loadAddressMisaligned ∧
        dataAccess .store n va s = .error .storeAddressMisaligned) ∧
      (va.toNat % n ≠ 0 → s.cfg.misaligned = .accessFault →
        dataAccess .load n va s = .error .loadAccessFault ∧ dataAccess .store n va s = .error .storeAccessFault)) ∧
    (∀ i : Instr, cboRuns i s →
      match translate .store (dataMode s) (getReg s (cboRs1 i)) s with
      | .error e => exec i s = .next (raise e (getReg s (cboRs1 i)) s)
      | .ok _ => ∃ t, exec i s = .next t ∧ t.pc = trunc s.cfg (s.pc + 4#64))

/-! ## Cache-block instructions -/

/-- R191 to R195 (for the virtualised modes the spec's decision D14): below M, a cache-block instruction whose
`menvcfg` field is 0 raises an illegal-instruction exception in every mode, virtualised or not, and before its address
is looked at (R198). -/
def Obligations.DisabledCboIsIllegal : Prop :=
  ∀ (s : State) (rs1 : RegIdx), s.priv ≠ .m →
    (s.menvcfg.getLsbD 7 = false → exec (.cboZero rs1) s
      = .next (raise .illegalInstruction (instrInfo s.cfg (encodeWord (.cboZero rs1))) s)) ∧
    (s.menvcfg.getLsbD 6 = false → exec (.cboClean rs1) s
      = .next (raise .illegalInstruction (instrInfo s.cfg (encodeWord (.cboClean rs1))) s)) ∧
    (s.menvcfg.getLsbD 6 = false → exec (.cboFlush rs1) s
      = .next (raise .illegalInstruction (instrInfo s.cfg (encodeWord (.cboFlush rs1))) s)) ∧
    (s.menvcfg.extractLsb' 4 2 = 0#2 → exec (.cboInval rs1) s
      = .next (raise .illegalInstruction (instrInfo s.cfg (encodeWord (.cboInval rs1))) s))

/-- R190 to R193: in M-mode whatever the field holds, and below M with the `menvcfg` field set and no further gate
(`lowerAllows`: none in S-mode, and none in U-mode without S-mode), a CBO.ZERO, CBO.CLEAN or CBO.FLUSH whose address
translates is executed on the block of x[rs1]. That zero leaves 0 in the block and clean and flush leave memory is the
model's (log 13), and so are the gates of the modes below S (log 16). That the block is an aligned power of two of
bytes (log 14) of physical memory around the one translation of x[rs1] (log 66) is the model's choice, and so is that
the operation runs at every address that translates and raises no fault of its own (R191 leaves those open, log 54);
that it is translated as a store is presumed (log 15). -/
def Obligations.EnabledCboIsExecuted : Prop :=
  ∀ (s s' : State) (pa : XWord) (rs1 : RegIdx),
    translate .store (dataMode s) (getReg s rs1) s = .ok (pa, s') →
    (s.cfg.zicboz = true →
      s.priv = .m ∨ (s.menvcfg.getLsbD 7 = true ∧
        lowerAllows ((senvcfgView s).getLsbD 7) ((henvcfgView s).getLsbD 7) s) →
      ∃ t, exec (.cboZero rs1) s = .next t ∧
        t.cacheOps = ⟨.zero, blockBase .zero s.cfg pa⟩ :: s.cacheOps ∧
        (∀ b, inSpan (blockBase .zero s.cfg pa) (2 ^ blockBits .zero s.cfg) b → readByte t.mem b = some 0#8) ∧
        sameMemoryOutside (blockBase .zero s.cfg pa) (2 ^ blockBits .zero s.cfg) s' t ∧
        t.pc = trunc s.cfg (s.pc + 4#64) ∧ sameRegs s t ∧ sameSpecial s t ∧ t.ordering = s.ordering) ∧
    (s.cfg.zicbom = true →
      s.priv = .m ∨ (s.menvcfg.getLsbD 6 = true ∧
        lowerAllows ((senvcfgView s).getLsbD 6) ((henvcfgView s).getLsbD 6) s) →
      (∃ t, exec (.cboClean rs1) s = .next t ∧
        t.cacheOps = ⟨.clean, blockBase .clean s.cfg pa⟩ :: s.cacheOps ∧ sameMemory s' t ∧
        t.pc = trunc s.cfg (s.pc + 4#64) ∧ sameRegs s t ∧ sameSpecial s t ∧ t.ordering = s.ordering) ∧
      (∃ t, exec (.cboFlush rs1) s = .next t ∧
        t.cacheOps = ⟨.flush, blockBase .flush s.cfg pa⟩ :: s.cacheOps ∧ sameMemory s' t ∧
        t.pc = trunc s.cfg (s.pc + 4#64) ∧ sameRegs s t ∧ sameSpecial s t ∧ t.ordering = s.ordering))

/-- R194, R197: a CBO.INVAL whose address translates performs a flush with CBIE = 1 and an invalidate with CBIE = 3
below M (where no further gate stops it), and in M-mode an invalidate, or under FORCE_UPGRADE_CBO_INVAL_TO_FLUSH a
flush, which is the spec's decision D25. That the gates of `senvcfg` and `henvcfg` are their bits 5:4 not being 0, and
do not change the operation, is presumed (log 16). A flush leaves memory, an invalidate leaves every byte outside the
block (log 13). That the block is an aligned power of two of bytes (log 14) of physical memory around the one
translation of x[rs1] (log 66) is the model's choice, and so is that the operation runs at every address that
translates and raises no fault of its own (R191 and R194 leave those open, log 54); that it is translated as a store is
presumed (log 15). -/
def Obligations.CboInvalFlushesOrInvalidates : Prop :=
  ∀ (s s' : State) (pa : XWord) (rs1 : RegIdx), s.cfg.zicbom = true →
    translate .store (dataMode s) (getReg s rs1) s = .ok (pa, s') →
    ((s.priv = .m ∧ s.cfg.forceUpgradeCboInvalToFlush = true) ∨
      (s.menvcfg.extractLsb' 4 2 = 1#2 ∧
        lowerAllows ((senvcfgView s).extractLsb' 4 2 != 0#2) ((henvcfgView s).extractLsb' 4 2 != 0#2) s) →
      ∃ t, exec (.cboInval rs1) s = .next t ∧
        t.cacheOps = ⟨.flush, blockBase .flush s.cfg pa⟩ :: s.cacheOps ∧ sameMemory s' t ∧
        t.pc = trunc s.cfg (s.pc + 4#64) ∧ sameRegs s t ∧ sameSpecial s t ∧ t.ordering = s.ordering) ∧
    ((s.priv = .m ∧ s.cfg.forceUpgradeCboInvalToFlush = false) ∨
      (s.menvcfg.extractLsb' 4 2 = 3#2 ∧
        lowerAllows ((senvcfgView s).extractLsb' 4 2 != 0#2) ((henvcfgView s).extractLsb' 4 2 != 0#2) s) →
      ∃ t, exec (.cboInval rs1) s = .next t ∧
        t.cacheOps = ⟨.inval, blockBase .inval s.cfg pa⟩ :: s.cacheOps ∧
        sameMemoryOutside (blockBase .inval s.cfg pa) (2 ^ blockBits .inval s.cfg) s' t ∧
        t.pc = trunc s.cfg (s.pc + 4#64) ∧ sameRegs s t ∧ sameSpecial s t ∧ t.ordering = s.ordering)

/-- R190, R195, for the four cache-block instructions: where `menvcfg` enables one, a gate of `senvcfg` that is 0 stops it
in U-mode under S-mode with an illegal-instruction exception, and a gate of `henvcfg`, or in VU-mode of `senvcfg`, that is
0 stops it in a virtualised mode with a virtual-instruction exception. The positions of the gates in those two registers
(`cboEnables`), and the VU-mode case, are the family's (log 16). -/
def Obligations.LowerGatesStopCacheBlockInstructions : Prop :=
  ∀ (s : State) (i : Instr) (sBit hBit : Bool), cboEnables i s = some (true, sBit, hBit) →
    (s.priv = .u → s.cfg.sImplemented = true → sBit = false →
      exec i s = .next (raise .illegalInstruction (instrInfo s.cfg (encodeWord i)) s)) ∧
    ((s.priv.virt = true ∧ hBit = false) ∨ (s.priv = .vu ∧ sBit = false) →
      exec i s = .next (raise .virtualInstruction (instrInfo s.cfg (encodeWord i)) s))

/-! ## Landing pads -/

/-- R210: with LPE = 0 in the governed mode, LPAD with any label does nothing but `pc <- pc + 4`. -/
def Obligations.LpadIsANoOpWithLpeClear : Prop :=
  ∀ (s : State) (label : BitVec 20), s.priv = (if s.cfg.sImplemented then .s else .u) → lpeOn s = false →
    ∃ t, exec (.lpad label) s = .next t ∧ t.pc = trunc s.cfg (s.pc + 4#64) ∧ sameRegs s t ∧ sameButRegs s t

/-- R209: while the governed mode runs with LPE = 0 and ELP holds NO_LP_EXPECTED, no instruction of the table changes
it, nor do MRET, SRET and HFENCE.GVMA, whether it completes or raises an exception; and whenever a step leads to the
governed mode with LPE = 0, ELP holds NO_LP_EXPECTED, from every state that meets the invariant. -/
def Obligations.ElpStaysIdleWithLpeClear : Prop :=
  (∀ (s t : State), s.priv = lpMode s.cfg → lpeOn s = false → s.elp = .noLpExpected →
    (∀ i : Instr, exec i s = .next t → t.elp = .noLpExpected) ∧
    (∀ (i : HartInstr) (w : BitVec 32), execHart i w s = .next t → t.elp = .noLpExpected)) ∧
  (∀ s t : State, invariant s = true → step s = .next t → t.priv = lpMode t.cfg → lpeOn t = false →
    t.elp = .noLpExpected)

/-! ## Shadow stacks -/

/-- R213: below M with SSE = 0, SSPUSH and SSPOPCHK change nothing but `pc`, and SSRDP writes 0 to `rd`. R215: every
other word of Zimop writes 0 to `rd` and does nothing else, in every mode. R215 needs the extension implemented: that every
hart has Zimop, also one without Zicfiss, is the model's inference (log 18). -/
def Obligations.RevertedWordsFollowZimop : Prop :=
  (∀ (s : State) (r rd : RegIdx), s.priv ≠ .m → sseOn s = false →
    (∃ t, exec (.sspush r) s = .next t ∧ t.pc = trunc s.cfg (s.pc + 4#64) ∧ sameRegs s t ∧ sameButRegs s t) ∧
    (∃ t, exec (.sspopchk r) s = .next t ∧ t.pc = trunc s.cfg (s.pc + 4#64) ∧ sameRegs s t ∧ sameButRegs s t) ∧
    (∃ t, exec (.ssrdp rd) s = .next t ∧ t.pc = trunc s.cfg (s.pc + 4#64) ∧ getReg t rd = 0#64 ∧
      sameRegsBut rd s t ∧ sameButRegs s t)) ∧
  (∀ (s : State) (w : BitVec 32) (n : BitVec 5) (m : BitVec 3) (rs2 rs1 rd : RegIdx),
    (∃ t, execHart (.mopR n rs1 rd) w s = .next t ∧ t.pc = trunc s.cfg (s.pc + 4#64) ∧ getReg t rd = 0#64 ∧
      sameRegsBut rd s t ∧ sameButRegs s t) ∧
    (∃ t, execHart (.mopRr m rs2 rs1 rd) w s = .next t ∧ t.pc = trunc s.cfg (s.pc + 4#64) ∧ getReg t rd = 0#64 ∧
      sameRegsBut rd s t ∧ sameButRegs s t))

/-- R214: below M with SSE = 0, C.SSPUSH and C.SSPOPCHK change nothing but `pc`, by 2. R215: so does every other halfword
of Zcmop, in every mode. R215 needs the extension implemented: that every hart has Zcmop, also one without Zicfiss, is
the model's inference (log 18). -/
def Obligations.RevertedHalfwordsFollowZcmop : Prop :=
  (∀ s : State, s.priv ≠ .m → sseOn s = false →
    (∃ t, exec .cSspush s = .next t ∧ t.pc = trunc s.cfg (s.pc + 2#64) ∧ sameRegs s t ∧ sameButRegs s t) ∧
    (∃ t, exec .cSspopchk s = .next t ∧ t.pc = trunc s.cfg (s.pc + 2#64) ∧ sameRegs s t ∧ sameButRegs s t)) ∧
  (∀ (s : State) (w : BitVec 32) (k : BitVec 3),
    ∃ t, execHart (.cMop k) w s = .next t ∧ t.pc = trunc s.cfg (s.pc + 2#64) ∧ sameRegs s t ∧ sameButRegs s t)

/-- R218: below M with SSE = 0, SSAMOSWAP.W and SSAMOSWAP.D raise an illegal-instruction exception; no memory access
is made and no general register changes. -/
def Obligations.SsamoswapWithSseClearIsIllegal : Prop :=
  ∀ (s : State) (aq rl : Bool) (rs2 rs1 rd : RegIdx), s.priv ≠ .m → sseOn s = false →
    (∃ t, exec (.ssamoswapW aq rl rs2 rs1 rd) s = .next t ∧
      t = raise .illegalInstruction (instrInfo s.cfg (encodeWord (.ssamoswapW aq rl rs2 rs1 rd))) s ∧
      trapFrame s t) ∧
    (∃ t, exec (.ssamoswapD aq rl rs2 rs1 rd) s = .next t ∧
      t = raise .illegalInstruction (instrInfo s.cfg (encodeWord (.ssamoswapD aq rl rs2 rs1 rd))) s ∧
      trapFrame s t)

/-- With Zicfiss active (R212: SSE = 1 in S-mode; R219: below S by the fields SSE unlocks), a SSAMOSWAP whose operand
is aligned, or performed misaligned, and translates completes as an atomic, ordered as R149 orders atomics; SSRDP reads
the shadow stack pointer (R213); SSAMOSWAP.D with XLEN = 32 is an illegal instruction (R218, log 46). What the swap
loads and stores is free, and that it raises no exception of its own is the model's choice (logs 17, 54), as are the
one translation and the region kind of the first byte of a misaligned one, and that a PBMT field changes no kind (logs
24, 67, 56). -/
def Obligations.ActiveZicfissCompletes : Prop :=
  ∀ (s s' : State) (pa : XWord) (aq rl : Bool) (rs2 rs1 rd : RegIdx), shadowStackActive s = true →
    (dataAccess .store 4 (getReg s rs1) s = .ok (pa, s') →
      ∃ t, exec (.ssamoswapW aq rl rs2 rs1 rd) s = .next t ∧ t.pc = trunc s.cfg (s.pc + 4#64) ∧
      t.ordering = .atomic aq rl
        ⟨isDevice s.cfg pa, !isDevice s.cfg pa || (fiomActive s && (aq || rl))⟩ :: s.ordering ∧
      sameRegsBut rd s t ∧ sameMemoryOutside pa 4 s' t ∧ sameSpecial s t ∧ t.cacheOps = s.cacheOps) ∧
    (s.cfg.xlen = .rv64 → dataAccess .store 8 (getReg s rs1) s = .ok (pa, s') →
      ∃ t, exec (.ssamoswapD aq rl rs2 rs1 rd) s = .next t ∧ t.pc = trunc s.cfg (s.pc + 4#64) ∧
      t.ordering = .atomic aq rl
        ⟨isDevice s.cfg pa, !isDevice s.cfg pa || (fiomActive s && (aq || rl))⟩ :: s.ordering ∧
      sameRegsBut rd s t ∧ sameMemoryOutside pa 8 s' t ∧ sameSpecial s t ∧ t.cacheOps = s.cacheOps) ∧
    (s.cfg.xlen = .rv32 → exec (.ssamoswapD aq rl rs2 rs1 rd) s
      = .next (raise .illegalInstruction (instrInfo s.cfg (encodeWord (.ssamoswapD aq rl rs2 rs1 rd))) s)) ∧
    (∃ t, exec (.ssrdp rd) s = .next t ∧ t.pc = trunc s.cfg (s.pc + 4#64) ∧
      getReg t rd = (if rd = 0#5 then 0#64 else trunc s.cfg s.ssp) ∧ sameRegsBut rd s t ∧ sameButRegs s t)

/-- R212, R219: which modes have Zicfiss: none while SSE = 0, S-mode with SSE = 1, never M-mode by this field; and with
SSE = 1 the modes below S by the SSE fields of `senvcfg` and `henvcfg`: U-mode by that of `senvcfg`, VS-mode by that of
`henvcfg`, VU-mode by both. Which field governs which mode, and its position, are presumed (logs 16, 6), and that U-mode
has none on a hart without S-mode is the model's choice (log 60). -/
def Obligations.ZicfissIsActiveBySse : Prop :=
  ∀ s : State, (sseOn s = false → shadowStackActive s = false) ∧
    (sseOn s = true → s.priv = .s → shadowStackActive s = true) ∧ (s.priv = .m → shadowStackActive s = false) ∧
    (sseOn s = true → s.priv = .u →
      shadowStackActive s = (s.cfg.sImplemented && (readCsr .senvcfg s).getLsbD 3)) ∧
    (sseOn s = true → s.priv = .vs → shadowStackActive s = (readCsr .henvcfg s).getLsbD 3) ∧
    (sseOn s = true → s.priv = .vu →
      shadowStackActive s = ((readCsr .henvcfg s).getLsbD 3 && (readCsr .senvcfg s).getLsbD 3))

/-! ## Translation -/

/-- R157, R216 (that a reserved encoding page-faults is general knowledge, log 22): outside a window, a PTE with PBMT
bits set while PBMTE = 0, and a PTE of a VS/S-stage table with xwr = 010 while SSE = 0, raise the page fault of the
access; a G-stage table may hold xwr = 010. R156: outside a window, with PBMTE = 1 (for a VS-stage table also in
`henvcfg`, bit 62, log 6), PBMT bits make no PTE reserved. That this holds of every PBMT value is the model's choice (log
56), and so is that a VS-stage PTE is judged by the bit `henvcfg` holds at the access (log 53) and its xwr by SSE of
`menvcfg` alone (log 68). R159: in an open window the PTEs of one translation are all judged by one value, that both stages
share it being the model's choice (log 23): whatever the translation has written to memory, all whose PBMT bits are set
are accepted or all page-fault. -/
def Obligations.ReservedPtesPageFault : Prop :=
  ∀ (s : State) (kind : AccessKind),
    (∀ (virt : Bool) (p : Pte),
      (svpbmtAvailable s = false → s.windows.pbmteS = false → s.windows.pbmteG = false → p.pbmt ≠ 0#2 →
        checkPte kind virt p s = .error (pageFault kind (virt && p.gStage))) ∧
      (sseOn s = false → p.xwr = 0b010#3 → (virt && p.gStage) = false →
        checkPte kind virt p s = .error (pageFault kind false)) ∧
      (p.pbmt = 0#2 → needsAd kind p = false → (virt && p.gStage) = true → checkPte kind virt p s = .ok s) ∧
      (svpbmtAvailable s = true → s.windows.pbmteS = false → s.windows.pbmteG = false →
        (virt = true → p.gStage = false → (henvcfgView s).getLsbD 62 = true) →
        p.xwr ≠ 0b010#3 ∨ sseOn s = true ∨ (virt && p.gStage) = true → needsAd kind p = false →
        checkPte kind virt p s = .ok s)) ∧
    (∃ accepted : Bool, ∀ (m : Memory) (virt : Bool) (p : Pte), pbmteWindow (stageOf virt p) s = true →
      p.pbmt ≠ 0#2 → p.xwr ≠ 0b010#3 → needsAd kind p = false →
      checkPte kind virt p { s with mem := m } =
        if accepted then .ok { s with mem := m } else .error (pageFault kind (virt && p.gStage)))

/-- R163 to R166, for every stage and outside its window: a PTE that is not reserved and needs A (any access) or D (a
store) set. Where the stage's tables are updated by hardware, by ADUE for an S-stage and a G-stage table and by
`henvcfg` bit 61 (log 6) for a VS-stage one, the hart sets it in memory, where the bytes of the PTE then read as
updated, changes nothing else and goes on; where not, it raises the page fault of the access. That a VS-stage PTE is
judged by the bit `henvcfg` holds at the access is the model's choice (log 53), and so is that a G-stage PTE needs D by
the kind of the instruction's own access alone (log 22). R168: in an open window the PTEs of one translation are all
judged by one value, that both stages share it being the model's choice (log 23): whatever the translation has written
to memory, all are updated or all page-fault. -/
def Obligations.AdueChoosesUpdateOrPageFault : Prop :=
  ∀ (s : State) (kind : AccessKind),
    (∀ (virt : Bool) (p : Pte),
      pteReserved kind (stageOf virt p) p s = false → adueWindow (stageOf virt p) s = false →
      p.a = false ∨ (kind = .store ∧ p.d = false) →
      (stageAdue (stageOf virt p) s = true →
        ∃ t, checkPte kind virt p s = .ok t ∧ t = { s with mem := writeBytes s.mem p.address p.updated } ∧
          sameMemoryOutside p.address p.updated.length s t ∧
          (p.updated.length ≤ 2 ^ 64 → ∀ (j : Nat) (h : j < p.updated.length),
            readByte t.mem (p.address + BitVec.ofNat 64 j).toNat = some p.updated[j])) ∧
      (stageAdue (stageOf virt p) s = false →
        checkPte kind virt p s = .error (pageFault kind (virt && p.gStage)))) ∧
    (∃ updated : Bool, ∀ (m : Memory) (virt : Bool) (p : Pte), adueWindow (stageOf virt p) s = true →
      pteReserved kind (stageOf virt p) p { s with mem := m } = false →
      p.a = false ∨ (kind = .store ∧ p.d = false) →
      checkPte kind virt p { s with mem := m } =
        if updated then .ok { s with mem := writeBytes m p.address p.updated }
        else .error (pageFault kind (virt && p.gStage)))

/-! ## Traps and returns -/

/-- R239, R246, a trap taken to M-mode: what it saves, what status and mode become, where `pc` goes, and that nothing
else changes but ELP, which a trap may change under Zicfilp (log 21). An exception is such a trap without S-mode, in
M-mode, and where its bit in `medeleg` is clear (R242; that M-mode and S-mode are the only two places is log 28).
BASE is the vector register with bits 1:0 zero, and vectored mode is bits 1:0 = 1 (log 6). -/
def Obligations.TrapToMachineMode : Prop :=
  (∀ (s : State) (interrupt : Bool) (code : Nat) (info : XWord),
    let t := takeTrap false interrupt code info s
    t.mepc = s.pc ∧ t.mtval = info ∧
    t.mcause = trunc s.cfg (BitVec.ofNat 64 code) ||| (if interrupt then 1#64 <<< (xlenBits s.cfg - 1) else 0#64) ∧
    t.mstatus = { s.mstatus with mpp := s.priv, mpie := s.mstatus.mie, mie := false } ∧ t.priv = .m ∧
    t.pc = trunc s.cfg ((s.mtvec &&& ~~~3#64)
      + (if interrupt = true ∧ s.mtvec.extractLsb' 0 2 = 1#2 then BitVec.ofNat 64 (4 * code) else 0#64)) ∧
    t.sepc = s.sepc ∧ t.scause = s.scause ∧ t.stval = s.stval ∧ trapFrame s t) ∧
  (∀ (s : State) (e : Exception) (info : XWord),
    s.cfg.sImplemented = false ∨ s.priv = .m ∨ s.medeleg.getLsbD e.code = false →
    raise e info s = takeTrap false false e.code info s)

/-- R239, a trap taken to S-mode while SDT reads 0: the same with the S-level registers, ELP excepted (log 21), and BASE and
vectored mode as there (log 6); with DTE on it sets SDT (R223). An exception is such a trap with S-mode, in a mode below M,
where its bit in `medeleg`, that of its code, is set (R242), a virtualised mode included (log 28). -/
def Obligations.TrapToSupervisorMode : Prop :=
  (∀ (s : State) (interrupt : Bool) (code : Nat) (info : XWord), sdtView s = false →
    let t := takeTrap true interrupt code info s
    t.sepc = s.pc ∧ t.stval = info ∧
    t.scause = trunc s.cfg (BitVec.ofNat 64 code) ||| (if interrupt then 1#64 <<< (xlenBits s.cfg - 1) else 0#64) ∧
    t.mstatus = { s.mstatus with
                  spp := s.priv, spie := s.mstatus.sie, sie := false, sdt := s.mstatus.sdt || dteOn s } ∧
    t.priv = .s ∧
    t.pc = trunc s.cfg ((s.stvec &&& ~~~3#64)
      + (if interrupt = true ∧ s.stvec.extractLsb' 0 2 = 1#2 then BitVec.ofNat 64 (4 * code) else 0#64)) ∧
    t.mepc = s.mepc ∧ t.mcause = s.mcause ∧ t.mtval = s.mtval ∧ trapFrame s t) ∧
  (∀ (s : State) (e : Exception) (info : XWord), s.cfg.sImplemented = true → s.priv ≠ .m →
    s.medeleg.getLsbD e.code = true → raise e info s = takeTrap true false e.code info s)

/-- R223, R234, R240: with DTE on and SDT set, a trap that would be taken into S-mode is a double trap: M-mode with
cause 16, and the S-level saved registers as they were. That BASE is `mtvec` with bits 1:0 zero is presumed (log 6). -/
def Obligations.DoubleTrapGoesToMachineMode : Prop :=
  ∀ (s : State) (interrupt : Bool) (code : Nat) (info : XWord), dteOn s = true → s.mstatus.sdt = true →
    let t := takeTrap true interrupt code info s
    t.priv = .m ∧ t.mcause = 16#64 ∧ t.mepc = s.pc ∧
    t.mstatus = { s.mstatus with mpp := s.priv, mpie := s.mstatus.mie, mie := false } ∧
    t.pc = trunc s.cfg (s.mtvec &&& ~~~3#64) ∧
    t.sepc = s.sepc ∧ t.scause = s.scause ∧ t.stval = s.stval ∧ trapFrame s t

/-- R240: MRET in M-mode restores the mode, MIE and `pc`, sets MPIE and leaves MPP at the least privileged supported
mode; SRET in S-mode and M-mode likewise with the S-level fields. Each leaves the fields of the other level, but that
MPRV is cleared is presumed (log 25) and SDT is free while DTE is on (log 30). `menvcfg` stays as it is (R241). SRET in
VS-mode returns through the virtual supervisor's own registers, which the spec does not give: the mode is VS or VU and
`pc` is free; in VU-mode it is a virtual instruction, and a return its mode may not execute is an illegal one (presumed,
log 33). -/
def Obligations.TrapReturnsRestore : Prop :=
  ∀ (s : State) (w : BitVec 32),
    (s.priv = .m → ∃ t, execHart .mret w s = .next t ∧
      t.priv = s.mstatus.mpp ∧ t.mstatus.mie = s.mstatus.mpie ∧ t.mstatus.mpie = true ∧
      t.mstatus.mpp = (if s.cfg.uImplemented then .u else if s.cfg.sImplemented then .s else .m) ∧
      t.mstatus.sie = s.mstatus.sie ∧ t.mstatus.spie = s.mstatus.spie ∧ t.mstatus.spp = s.mstatus.spp ∧
      t.mstatus.mprv = (s.mstatus.mprv && s.mstatus.mpp == .m) ∧
      (dteOn s = false → t.mstatus.sdt = s.mstatus.sdt) ∧ t.pc = trunc s.cfg s.mepc ∧ t.mepc = s.mepc ∧
      t.sepc = s.sepc ∧ t.scause = s.scause ∧ t.stval = s.stval ∧
      t.mcause = s.mcause ∧ t.mtval = s.mtval ∧ trapFrame s t) ∧
    (s.priv = .s ∨ s.priv = .m → s.cfg.sImplemented = true → ∃ t, execHart .sret w s = .next t ∧
      t.priv = s.mstatus.spp ∧ t.mstatus.sie = s.mstatus.spie ∧ t.mstatus.spie = true ∧
      t.mstatus.spp = (if s.cfg.uImplemented then .u else .s) ∧
      t.mstatus.mie = s.mstatus.mie ∧ t.mstatus.mpie = s.mstatus.mpie ∧ t.mstatus.mpp = s.mstatus.mpp ∧
      t.mstatus.mprv = false ∧ (dteOn s = false → t.mstatus.sdt = s.mstatus.sdt) ∧
      t.mepc = s.mepc ∧ t.mcause = s.mcause ∧ t.mtval = s.mtval ∧ t.pc = trunc s.cfg s.sepc ∧ t.sepc = s.sepc ∧
      t.scause = s.scause ∧ t.stval = s.stval ∧
      trapFrame s t) ∧
    (s.priv = .vs → ∃ t, execHart .sret w s = .next t ∧ t.priv.virt = true ∧
      t.mstatus = { s.mstatus with mprv := false } ∧ (dteOn s = false → t.vsSdt = s.vsSdt) ∧
      trapFrame s { t with vsSdt := s.vsSdt } ∧ sameTrapRegs s t) ∧
    (s.priv = .vu → execHart .sret w s = .next (raise .virtualInstruction (instrInfo s.cfg w) s)) ∧
    (s.priv = .u ∨ (s.cfg.sImplemented = false ∧ s.priv.virt = false) →
      execHart .sret w s = .next (raise .illegalInstruction (instrInfo s.cfg w) s)) ∧
    (s.priv ≠ .m → execHart .mret w s = .next (raise .illegalInstruction (instrInfo s.cfg w) s))

/-- R183: with STCE = 0 the comparison makes nothing pending, whatever `stimecmp` and `time` hold: STIP is what
software wrote (R184, general knowledge, and R186, which the spec derives), and where that is 0 no timer interrupt is
taken. -/
def Obligations.NoTimerInterruptWithStceClear : Prop :=
  ∀ (s : State) (cmp now : BitVec 64), stceOn s = false →
    stipPending { s with stimecmp := cmp, time := now } = s.mipStip ∧
    (s.mipStip = false → interruptTaken { s with stimecmp := cmp, time := now } = none)

/-- With STCE = 1 and `time >= stimecmp` (R181), the enabled and delegated supervisor timer interrupt is taken before
the next instruction from a mode below S: S-mode, cause 5 with the top bit set (R236, R239), and the interrupted `pc`
saved. The enable and delegation bits are the family's (log 31). -/
def Obligations.TimerInterruptIsTaken : Prop :=
  ∀ s : State, configLegal s.cfg = true → s.cfg.sImplemented = true → stceOn s = true →
    s.stimecmp.toNat ≤ s.time.toNat → s.mieStie = true → s.midelegSti = true → s.priv = .u ∨ s.priv.virt = true →
    sdtView s = false →
    ∃ t, step s = .next t ∧ t.priv = .s ∧ t.sepc = s.pc ∧
      t.scause = 5#64 ||| (1#64 <<< (xlenBits s.cfg - 1)) ∧
      t.mstatus.spp = s.priv ∧ t.mstatus.sie = false ∧ sameRegs s t ∧ sameEnvironment s t ∧ sameMemory s t

/-! ## The whole machine -/

/-- R60 (the spec's own inference): the invariants of the register hold after reset and are kept by every step, from
every state that meets them. -/
def Obligations.StepKeepsMenvcfgLegal : Prop :=
  (∀ (c : HartConfig) (r : BitVec 64), registerInvariants c (State.resetOf c r).menvcfg) ∧
  (∀ s t : State, registerInvariants s.cfg s.menvcfg → step s = .next t → registerInvariants t.cfg t.menvcfg)

/-- Every step keeps all the invariants: the register legal (R60), the mode and the saved modes legal (R243), ELP idle
where LPE is off (R209), x0 zero and every XLEN-wide register XLEN bits wide (R67), memory in its canonical form. -/
def Obligations.StepKeepsTheInvariant : Prop :=
  ∀ s t : State, invariant s = true → step s = .next t → invariant t = true

/-- R59 (that no hardware event changes a field is the spec's decision D30): `menvcfg` changes only by a CSR
instruction that names it, or its upper half, and is executed in M-mode. -/
def Obligations.OnlyMachineModeCsrInstructionsChangeMenvcfg : Prop :=
  ∀ s t : State, step s = .next t → t.menvcfg ≠ s.menvcfg →
    s.priv = .m ∧ ∃ bs s' i rest n, fetch s = .bytes bs s' ∧ decode bs = .ok (i, rest) ∧
      csrNumberOf i = some n ∧ (n = 0x30A#12 ∨ n = s.cfg.csrMenvcfgh)

/-- R244, M-mode is unaffected by any field, for what R244 leaves to it: with MPRV clear, an instruction of the table that
is no CSR instruction, HFENCE.GVMA and the Zimop and Zcmop words do in M-mode what they do with any other value of the
register. Not claimed of a CSR instruction (it may name `menvcfg`, or read what STCE shows), of MRET and SRET (what they
enter is governed), of accesses with MPRV set (they have a lower mode's privilege, R169), and of the timer interrupt
(pending by STCE, R181). -/
def Obligations.MachineModeIsNotGoverned : Prop :=
  ∀ (s : State) (v : BitVec 64), s.priv = .m → s.mstatus.mprv = false →
    (∀ i : Instr, csrNumberOf i = none →
      exec i { s with menvcfg := v } =
        match exec i s with
        | .next t => .next { t with menvcfg := v }
        | .fault r => .fault r
        | .refused r => .refused r) ∧
    (∀ (i : HartInstr) (w : BitVec 32), i ≠ .mret → i ≠ .sret →
      execHart i w { s with menvcfg := v } =
        match execHart i w s with
        | .next t => .next { t with menvcfg := v }
        | .fault r => .fault r
        | .refused r => .refused r)

/-- R270: `time` does not decrease in any step. That no step changes the configuration is the model's choice (log 1), from
the parameters of 00_scope.md section 4. -/
def Obligations.TimeDoesNotDecrease : Prop :=
  ∀ s t : State, step s = .next t → s.time.toNat ≤ t.time.toNat ∧ t.cfg = s.cfg
end

