-- ==== Sys2Proof/Laws/State.lean ====
section
/-! SUPPORT. One lemma per field per shared update of State, so that no later proof unfolds a record update. -/

namespace Sys2Proof.Machine

/-! ## advance -/

@[simp] theorem advance_cfg (n : Nat) (s : State) : (advance n s).cfg = s.cfg := rfl
@[simp] theorem advance_x (n : Nat) (s : State) : (advance n s).x = s.x := rfl
@[simp] theorem advance_priv (n : Nat) (s : State) : (advance n s).priv = s.priv := rfl
@[simp] theorem advance_menvcfg (n : Nat) (s : State) : (advance n s).menvcfg = s.menvcfg := rfl
@[simp] theorem advance_windows (n : Nat) (s : State) : (advance n s).windows = s.windows := rfl
@[simp] theorem advance_mstatus (n : Nat) (s : State) : (advance n s).mstatus = s.mstatus := rfl
@[simp] theorem advance_vsSdt (n : Nat) (s : State) : (advance n s).vsSdt = s.vsSdt := rfl
@[simp] theorem advance_medeleg (n : Nat) (s : State) : (advance n s).medeleg = s.medeleg := rfl
@[simp] theorem advance_midelegSti (n : Nat) (s : State) : (advance n s).midelegSti = s.midelegSti := rfl
@[simp] theorem advance_mieStie (n : Nat) (s : State) : (advance n s).mieStie = s.mieStie := rfl
@[simp] theorem advance_mipStip (n : Nat) (s : State) : (advance n s).mipStip = s.mipStip := rfl
@[simp] theorem advance_mtvec (n : Nat) (s : State) : (advance n s).mtvec = s.mtvec := rfl
@[simp] theorem advance_mepc (n : Nat) (s : State) : (advance n s).mepc = s.mepc := rfl
@[simp] theorem advance_mcause (n : Nat) (s : State) : (advance n s).mcause = s.mcause := rfl
@[simp] theorem advance_mtval (n : Nat) (s : State) : (advance n s).mtval = s.mtval := rfl
@[simp] theorem advance_stvec (n : Nat) (s : State) : (advance n s).stvec = s.stvec := rfl
@[simp] theorem advance_sepc (n : Nat) (s : State) : (advance n s).sepc = s.sepc := rfl
@[simp] theorem advance_scause (n : Nat) (s : State) : (advance n s).scause = s.scause := rfl
@[simp] theorem advance_stval (n : Nat) (s : State) : (advance n s).stval = s.stval := rfl
@[simp] theorem advance_senvcfg (n : Nat) (s : State) : (advance n s).senvcfg = s.senvcfg := rfl
@[simp] theorem advance_henvcfg (n : Nat) (s : State) : (advance n s).henvcfg = s.henvcfg := rfl
@[simp] theorem advance_satp (n : Nat) (s : State) : (advance n s).satp = s.satp := rfl
@[simp] theorem advance_hgatp (n : Nat) (s : State) : (advance n s).hgatp = s.hgatp := rfl
@[simp] theorem advance_stimecmp (n : Nat) (s : State) : (advance n s).stimecmp = s.stimecmp := rfl
@[simp] theorem advance_time (n : Nat) (s : State) : (advance n s).time = s.time := rfl
@[simp] theorem advance_counters (n : Nat) (s : State) : (advance n s).counters = s.counters := rfl
@[simp] theorem advance_fetchCache (n : Nat) (s : State) : (advance n s).fetchCache = s.fetchCache := rfl
@[simp] theorem advance_elp (n : Nat) (s : State) : (advance n s).elp = s.elp := rfl
@[simp] theorem advance_ssp (n : Nat) (s : State) : (advance n s).ssp = s.ssp := rfl
@[simp] theorem advance_ordering (n : Nat) (s : State) : (advance n s).ordering = s.ordering := rfl
@[simp] theorem advance_cacheOps (n : Nat) (s : State) : (advance n s).cacheOps = s.cacheOps := rfl
@[simp] theorem advance_mem (n : Nat) (s : State) : (advance n s).mem = s.mem := rfl
@[simp] theorem advance_draws (n : Nat) (s : State) : (advance n s).draws = s.draws := rfl

@[simp] theorem advance_pc (n : Nat) (s : State) : (advance n s).pc = trunc s.cfg (s.pc + BitVec.ofNat 64 n) := rfl

/-! ## setReg -/

@[simp] theorem setReg_cfg (r : RegIdx) (v : XWord) (s : State) : (setReg r v s).cfg = s.cfg := by unfold setReg; split <;> rfl
@[simp] theorem setReg_pc (r : RegIdx) (v : XWord) (s : State) : (setReg r v s).pc = s.pc := by unfold setReg; split <;> rfl
@[simp] theorem setReg_priv (r : RegIdx) (v : XWord) (s : State) : (setReg r v s).priv = s.priv := by unfold setReg; split <;> rfl
@[simp] theorem setReg_menvcfg (r : RegIdx) (v : XWord) (s : State) : (setReg r v s).menvcfg = s.menvcfg := by unfold setReg; split <;> rfl
@[simp] theorem setReg_windows (r : RegIdx) (v : XWord) (s : State) : (setReg r v s).windows = s.windows := by unfold setReg; split <;> rfl
@[simp] theorem setReg_mstatus (r : RegIdx) (v : XWord) (s : State) : (setReg r v s).mstatus = s.mstatus := by unfold setReg; split <;> rfl
@[simp] theorem setReg_vsSdt (r : RegIdx) (v : XWord) (s : State) : (setReg r v s).vsSdt = s.vsSdt := by unfold setReg; split <;> rfl
@[simp] theorem setReg_medeleg (r : RegIdx) (v : XWord) (s : State) : (setReg r v s).medeleg = s.medeleg := by unfold setReg; split <;> rfl
@[simp] theorem setReg_midelegSti (r : RegIdx) (v : XWord) (s : State) : (setReg r v s).midelegSti = s.midelegSti := by unfold setReg; split <;> rfl
@[simp] theorem setReg_mieStie (r : RegIdx) (v : XWord) (s : State) : (setReg r v s).mieStie = s.mieStie := by unfold setReg; split <;> rfl
@[simp] theorem setReg_mipStip (r : RegIdx) (v : XWord) (s : State) : (setReg r v s).mipStip = s.mipStip := by unfold setReg; split <;> rfl
@[simp] theorem setReg_mtvec (r : RegIdx) (v : XWord) (s : State) : (setReg r v s).mtvec = s.mtvec := by unfold setReg; split <;> rfl
@[simp] theorem setReg_mepc (r : RegIdx) (v : XWord) (s : State) : (setReg r v s).mepc = s.mepc := by unfold setReg; split <;> rfl
@[simp] theorem setReg_mcause (r : RegIdx) (v : XWord) (s : State) : (setReg r v s).mcause = s.mcause := by unfold setReg; split <;> rfl
@[simp] theorem setReg_mtval (r : RegIdx) (v : XWord) (s : State) : (setReg r v s).mtval = s.mtval := by unfold setReg; split <;> rfl
@[simp] theorem setReg_stvec (r : RegIdx) (v : XWord) (s : State) : (setReg r v s).stvec = s.stvec := by unfold setReg; split <;> rfl
@[simp] theorem setReg_sepc (r : RegIdx) (v : XWord) (s : State) : (setReg r v s).sepc = s.sepc := by unfold setReg; split <;> rfl
@[simp] theorem setReg_scause (r : RegIdx) (v : XWord) (s : State) : (setReg r v s).scause = s.scause := by unfold setReg; split <;> rfl
@[simp] theorem setReg_stval (r : RegIdx) (v : XWord) (s : State) : (setReg r v s).stval = s.stval := by unfold setReg; split <;> rfl
@[simp] theorem setReg_senvcfg (r : RegIdx) (v : XWord) (s : State) : (setReg r v s).senvcfg = s.senvcfg := by unfold setReg; split <;> rfl
@[simp] theorem setReg_henvcfg (r : RegIdx) (v : XWord) (s : State) : (setReg r v s).henvcfg = s.henvcfg := by unfold setReg; split <;> rfl
@[simp] theorem setReg_satp (r : RegIdx) (v : XWord) (s : State) : (setReg r v s).satp = s.satp := by unfold setReg; split <;> rfl
@[simp] theorem setReg_hgatp (r : RegIdx) (v : XWord) (s : State) : (setReg r v s).hgatp = s.hgatp := by unfold setReg; split <;> rfl
@[simp] theorem setReg_stimecmp (r : RegIdx) (v : XWord) (s : State) : (setReg r v s).stimecmp = s.stimecmp := by unfold setReg; split <;> rfl
@[simp] theorem setReg_time (r : RegIdx) (v : XWord) (s : State) : (setReg r v s).time = s.time := by unfold setReg; split <;> rfl
@[simp] theorem setReg_counters (r : RegIdx) (v : XWord) (s : State) : (setReg r v s).counters = s.counters := by unfold setReg; split <;> rfl
@[simp] theorem setReg_fetchCache (r : RegIdx) (v : XWord) (s : State) : (setReg r v s).fetchCache = s.fetchCache := by unfold setReg; split <;> rfl
@[simp] theorem setReg_elp (r : RegIdx) (v : XWord) (s : State) : (setReg r v s).elp = s.elp := by unfold setReg; split <;> rfl
@[simp] theorem setReg_ssp (r : RegIdx) (v : XWord) (s : State) : (setReg r v s).ssp = s.ssp := by unfold setReg; split <;> rfl
@[simp] theorem setReg_ordering (r : RegIdx) (v : XWord) (s : State) : (setReg r v s).ordering = s.ordering := by unfold setReg; split <;> rfl
@[simp] theorem setReg_cacheOps (r : RegIdx) (v : XWord) (s : State) : (setReg r v s).cacheOps = s.cacheOps := by unfold setReg; split <;> rfl
@[simp] theorem setReg_mem (r : RegIdx) (v : XWord) (s : State) : (setReg r v s).mem = s.mem := by unfold setReg; split <;> rfl
@[simp] theorem setReg_draws (r : RegIdx) (v : XWord) (s : State) : (setReg r v s).draws = s.draws := by unfold setReg; split <;> rfl

/-! ## tick -/

@[simp] theorem tick_cfg (s : State) : (tick s).cfg = s.cfg := rfl
@[simp] theorem tick_x (s : State) : (tick s).x = s.x := rfl
@[simp] theorem tick_pc (s : State) : (tick s).pc = s.pc := rfl
@[simp] theorem tick_priv (s : State) : (tick s).priv = s.priv := rfl
@[simp] theorem tick_menvcfg (s : State) : (tick s).menvcfg = s.menvcfg := rfl
@[simp] theorem tick_windows (s : State) : (tick s).windows = s.windows := rfl
@[simp] theorem tick_mstatus (s : State) : (tick s).mstatus = s.mstatus := rfl
@[simp] theorem tick_vsSdt (s : State) : (tick s).vsSdt = s.vsSdt := rfl
@[simp] theorem tick_medeleg (s : State) : (tick s).medeleg = s.medeleg := rfl
@[simp] theorem tick_midelegSti (s : State) : (tick s).midelegSti = s.midelegSti := rfl
@[simp] theorem tick_mieStie (s : State) : (tick s).mieStie = s.mieStie := rfl
@[simp] theorem tick_mipStip (s : State) : (tick s).mipStip = s.mipStip := rfl
@[simp] theorem tick_mtvec (s : State) : (tick s).mtvec = s.mtvec := rfl
@[simp] theorem tick_mepc (s : State) : (tick s).mepc = s.mepc := rfl
@[simp] theorem tick_mcause (s : State) : (tick s).mcause = s.mcause := rfl
@[simp] theorem tick_mtval (s : State) : (tick s).mtval = s.mtval := rfl
@[simp] theorem tick_stvec (s : State) : (tick s).stvec = s.stvec := rfl
@[simp] theorem tick_sepc (s : State) : (tick s).sepc = s.sepc := rfl
@[simp] theorem tick_scause (s : State) : (tick s).scause = s.scause := rfl
@[simp] theorem tick_stval (s : State) : (tick s).stval = s.stval := rfl
@[simp] theorem tick_senvcfg (s : State) : (tick s).senvcfg = s.senvcfg := rfl
@[simp] theorem tick_henvcfg (s : State) : (tick s).henvcfg = s.henvcfg := rfl
@[simp] theorem tick_satp (s : State) : (tick s).satp = s.satp := rfl
@[simp] theorem tick_hgatp (s : State) : (tick s).hgatp = s.hgatp := rfl
@[simp] theorem tick_stimecmp (s : State) : (tick s).stimecmp = s.stimecmp := rfl
@[simp] theorem tick_elp (s : State) : (tick s).elp = s.elp := rfl
@[simp] theorem tick_ssp (s : State) : (tick s).ssp = s.ssp := rfl
@[simp] theorem tick_ordering (s : State) : (tick s).ordering = s.ordering := rfl
@[simp] theorem tick_cacheOps (s : State) : (tick s).cacheOps = s.cacheOps := rfl
@[simp] theorem tick_mem (s : State) : (tick s).mem = s.mem := rfl

@[simp] theorem tick_draws (s : State) : (tick s).draws = s.draws + 1 := rfl

/-! ## enterM -/

@[simp] theorem enterM_cfg (b : Bool) (code : Nat) (v : XWord) (s : State) : (enterM b code v s).cfg = s.cfg := rfl
@[simp] theorem enterM_x (b : Bool) (code : Nat) (v : XWord) (s : State) : (enterM b code v s).x = s.x := rfl
@[simp] theorem enterM_menvcfg (b : Bool) (code : Nat) (v : XWord) (s : State) : (enterM b code v s).menvcfg = s.menvcfg := rfl
@[simp] theorem enterM_windows (b : Bool) (code : Nat) (v : XWord) (s : State) : (enterM b code v s).windows = s.windows := rfl
@[simp] theorem enterM_vsSdt (b : Bool) (code : Nat) (v : XWord) (s : State) : (enterM b code v s).vsSdt = s.vsSdt := rfl
@[simp] theorem enterM_medeleg (b : Bool) (code : Nat) (v : XWord) (s : State) : (enterM b code v s).medeleg = s.medeleg := rfl
@[simp] theorem enterM_midelegSti (b : Bool) (code : Nat) (v : XWord) (s : State) : (enterM b code v s).midelegSti = s.midelegSti := rfl
@[simp] theorem enterM_mieStie (b : Bool) (code : Nat) (v : XWord) (s : State) : (enterM b code v s).mieStie = s.mieStie := rfl
@[simp] theorem enterM_mipStip (b : Bool) (code : Nat) (v : XWord) (s : State) : (enterM b code v s).mipStip = s.mipStip := rfl
@[simp] theorem enterM_mtvec (b : Bool) (code : Nat) (v : XWord) (s : State) : (enterM b code v s).mtvec = s.mtvec := rfl
@[simp] theorem enterM_stvec (b : Bool) (code : Nat) (v : XWord) (s : State) : (enterM b code v s).stvec = s.stvec := rfl
@[simp] theorem enterM_sepc (b : Bool) (code : Nat) (v : XWord) (s : State) : (enterM b code v s).sepc = s.sepc := rfl
@[simp] theorem enterM_scause (b : Bool) (code : Nat) (v : XWord) (s : State) : (enterM b code v s).scause = s.scause := rfl
@[simp] theorem enterM_stval (b : Bool) (code : Nat) (v : XWord) (s : State) : (enterM b code v s).stval = s.stval := rfl
@[simp] theorem enterM_senvcfg (b : Bool) (code : Nat) (v : XWord) (s : State) : (enterM b code v s).senvcfg = s.senvcfg := rfl
@[simp] theorem enterM_henvcfg (b : Bool) (code : Nat) (v : XWord) (s : State) : (enterM b code v s).henvcfg = s.henvcfg := rfl
@[simp] theorem enterM_satp (b : Bool) (code : Nat) (v : XWord) (s : State) : (enterM b code v s).satp = s.satp := rfl
@[simp] theorem enterM_hgatp (b : Bool) (code : Nat) (v : XWord) (s : State) : (enterM b code v s).hgatp = s.hgatp := rfl
@[simp] theorem enterM_stimecmp (b : Bool) (code : Nat) (v : XWord) (s : State) : (enterM b code v s).stimecmp = s.stimecmp := rfl
@[simp] theorem enterM_time (b : Bool) (code : Nat) (v : XWord) (s : State) : (enterM b code v s).time = s.time := rfl
@[simp] theorem enterM_counters (b : Bool) (code : Nat) (v : XWord) (s : State) : (enterM b code v s).counters = s.counters := rfl
@[simp] theorem enterM_fetchCache (b : Bool) (code : Nat) (v : XWord) (s : State) : (enterM b code v s).fetchCache = s.fetchCache := rfl
@[simp] theorem enterM_ssp (b : Bool) (code : Nat) (v : XWord) (s : State) : (enterM b code v s).ssp = s.ssp := rfl
@[simp] theorem enterM_ordering (b : Bool) (code : Nat) (v : XWord) (s : State) : (enterM b code v s).ordering = s.ordering := rfl
@[simp] theorem enterM_cacheOps (b : Bool) (code : Nat) (v : XWord) (s : State) : (enterM b code v s).cacheOps = s.cacheOps := rfl
@[simp] theorem enterM_mem (b : Bool) (code : Nat) (v : XWord) (s : State) : (enterM b code v s).mem = s.mem := rfl
@[simp] theorem enterM_draws (b : Bool) (code : Nat) (v : XWord) (s : State) : (enterM b code v s).draws = s.draws := rfl

/-! ## enterS -/

@[simp] theorem enterS_cfg (b : Bool) (code : Nat) (v : XWord) (s : State) : (enterS b code v s).cfg = s.cfg := rfl
@[simp] theorem enterS_x (b : Bool) (code : Nat) (v : XWord) (s : State) : (enterS b code v s).x = s.x := rfl
@[simp] theorem enterS_menvcfg (b : Bool) (code : Nat) (v : XWord) (s : State) : (enterS b code v s).menvcfg = s.menvcfg := rfl
@[simp] theorem enterS_windows (b : Bool) (code : Nat) (v : XWord) (s : State) : (enterS b code v s).windows = s.windows := rfl
@[simp] theorem enterS_vsSdt (b : Bool) (code : Nat) (v : XWord) (s : State) : (enterS b code v s).vsSdt = s.vsSdt := rfl
@[simp] theorem enterS_medeleg (b : Bool) (code : Nat) (v : XWord) (s : State) : (enterS b code v s).medeleg = s.medeleg := rfl
@[simp] theorem enterS_midelegSti (b : Bool) (code : Nat) (v : XWord) (s : State) : (enterS b code v s).midelegSti = s.midelegSti := rfl
@[simp] theorem enterS_mieStie (b : Bool) (code : Nat) (v : XWord) (s : State) : (enterS b code v s).mieStie = s.mieStie := rfl
@[simp] theorem enterS_mipStip (b : Bool) (code : Nat) (v : XWord) (s : State) : (enterS b code v s).mipStip = s.mipStip := rfl
@[simp] theorem enterS_mtvec (b : Bool) (code : Nat) (v : XWord) (s : State) : (enterS b code v s).mtvec = s.mtvec := rfl
@[simp] theorem enterS_mepc (b : Bool) (code : Nat) (v : XWord) (s : State) : (enterS b code v s).mepc = s.mepc := rfl
@[simp] theorem enterS_mcause (b : Bool) (code : Nat) (v : XWord) (s : State) : (enterS b code v s).mcause = s.mcause := rfl
@[simp] theorem enterS_mtval (b : Bool) (code : Nat) (v : XWord) (s : State) : (enterS b code v s).mtval = s.mtval := rfl
@[simp] theorem enterS_stvec (b : Bool) (code : Nat) (v : XWord) (s : State) : (enterS b code v s).stvec = s.stvec := rfl
@[simp] theorem enterS_senvcfg (b : Bool) (code : Nat) (v : XWord) (s : State) : (enterS b code v s).senvcfg = s.senvcfg := rfl
@[simp] theorem enterS_henvcfg (b : Bool) (code : Nat) (v : XWord) (s : State) : (enterS b code v s).henvcfg = s.henvcfg := rfl
@[simp] theorem enterS_satp (b : Bool) (code : Nat) (v : XWord) (s : State) : (enterS b code v s).satp = s.satp := rfl
@[simp] theorem enterS_hgatp (b : Bool) (code : Nat) (v : XWord) (s : State) : (enterS b code v s).hgatp = s.hgatp := rfl
@[simp] theorem enterS_stimecmp (b : Bool) (code : Nat) (v : XWord) (s : State) : (enterS b code v s).stimecmp = s.stimecmp := rfl
@[simp] theorem enterS_time (b : Bool) (code : Nat) (v : XWord) (s : State) : (enterS b code v s).time = s.time := rfl
@[simp] theorem enterS_counters (b : Bool) (code : Nat) (v : XWord) (s : State) : (enterS b code v s).counters = s.counters := rfl
@[simp] theorem enterS_fetchCache (b : Bool) (code : Nat) (v : XWord) (s : State) : (enterS b code v s).fetchCache = s.fetchCache := rfl
@[simp] theorem enterS_ssp (b : Bool) (code : Nat) (v : XWord) (s : State) : (enterS b code v s).ssp = s.ssp := rfl
@[simp] theorem enterS_ordering (b : Bool) (code : Nat) (v : XWord) (s : State) : (enterS b code v s).ordering = s.ordering := rfl
@[simp] theorem enterS_cacheOps (b : Bool) (code : Nat) (v : XWord) (s : State) : (enterS b code v s).cacheOps = s.cacheOps := rfl
@[simp] theorem enterS_mem (b : Bool) (code : Nat) (v : XWord) (s : State) : (enterS b code v s).mem = s.mem := rfl
@[simp] theorem enterS_draws (b : Bool) (code : Nat) (v : XWord) (s : State) : (enterS b code v s).draws = s.draws := rfl

/-! ## takeTrap -/

@[simp] theorem takeTrap_cfg (toS b : Bool) (code : Nat) (v : XWord) (s : State) : (takeTrap toS b code v s).cfg = s.cfg := by
  unfold takeTrap; split <;> (try split) <;> rfl
@[simp] theorem takeTrap_x (toS b : Bool) (code : Nat) (v : XWord) (s : State) : (takeTrap toS b code v s).x = s.x := by
  unfold takeTrap; split <;> (try split) <;> rfl
@[simp] theorem takeTrap_menvcfg (toS b : Bool) (code : Nat) (v : XWord) (s : State) : (takeTrap toS b code v s).menvcfg = s.menvcfg := by
  unfold takeTrap; split <;> (try split) <;> rfl
@[simp] theorem takeTrap_windows (toS b : Bool) (code : Nat) (v : XWord) (s : State) : (takeTrap toS b code v s).windows = s.windows := by
  unfold takeTrap; split <;> (try split) <;> rfl
@[simp] theorem takeTrap_vsSdt (toS b : Bool) (code : Nat) (v : XWord) (s : State) : (takeTrap toS b code v s).vsSdt = s.vsSdt := by
  unfold takeTrap; split <;> (try split) <;> rfl
@[simp] theorem takeTrap_medeleg (toS b : Bool) (code : Nat) (v : XWord) (s : State) : (takeTrap toS b code v s).medeleg = s.medeleg := by
  unfold takeTrap; split <;> (try split) <;> rfl
@[simp] theorem takeTrap_midelegSti (toS b : Bool) (code : Nat) (v : XWord) (s : State) : (takeTrap toS b code v s).midelegSti = s.midelegSti := by
  unfold takeTrap; split <;> (try split) <;> rfl
@[simp] theorem takeTrap_mieStie (toS b : Bool) (code : Nat) (v : XWord) (s : State) : (takeTrap toS b code v s).mieStie = s.mieStie := by
  unfold takeTrap; split <;> (try split) <;> rfl
@[simp] theorem takeTrap_mipStip (toS b : Bool) (code : Nat) (v : XWord) (s : State) : (takeTrap toS b code v s).mipStip = s.mipStip := by
  unfold takeTrap; split <;> (try split) <;> rfl
@[simp] theorem takeTrap_mtvec (toS b : Bool) (code : Nat) (v : XWord) (s : State) : (takeTrap toS b code v s).mtvec = s.mtvec := by
  unfold takeTrap; split <;> (try split) <;> rfl
@[simp] theorem takeTrap_stvec (toS b : Bool) (code : Nat) (v : XWord) (s : State) : (takeTrap toS b code v s).stvec = s.stvec := by
  unfold takeTrap; split <;> (try split) <;> rfl
@[simp] theorem takeTrap_senvcfg (toS b : Bool) (code : Nat) (v : XWord) (s : State) : (takeTrap toS b code v s).senvcfg = s.senvcfg := by
  unfold takeTrap; split <;> (try split) <;> rfl
@[simp] theorem takeTrap_henvcfg (toS b : Bool) (code : Nat) (v : XWord) (s : State) : (takeTrap toS b code v s).henvcfg = s.henvcfg := by
  unfold takeTrap; split <;> (try split) <;> rfl
@[simp] theorem takeTrap_satp (toS b : Bool) (code : Nat) (v : XWord) (s : State) : (takeTrap toS b code v s).satp = s.satp := by
  unfold takeTrap; split <;> (try split) <;> rfl
@[simp] theorem takeTrap_hgatp (toS b : Bool) (code : Nat) (v : XWord) (s : State) : (takeTrap toS b code v s).hgatp = s.hgatp := by
  unfold takeTrap; split <;> (try split) <;> rfl
@[simp] theorem takeTrap_stimecmp (toS b : Bool) (code : Nat) (v : XWord) (s : State) : (takeTrap toS b code v s).stimecmp = s.stimecmp := by
  unfold takeTrap; split <;> (try split) <;> rfl
@[simp] theorem takeTrap_time (toS b : Bool) (code : Nat) (v : XWord) (s : State) : (takeTrap toS b code v s).time = s.time := by
  unfold takeTrap; split <;> (try split) <;> rfl
@[simp] theorem takeTrap_counters (toS b : Bool) (code : Nat) (v : XWord) (s : State) : (takeTrap toS b code v s).counters = s.counters := by
  unfold takeTrap; split <;> (try split) <;> rfl
@[simp] theorem takeTrap_fetchCache (toS b : Bool) (code : Nat) (v : XWord) (s : State) : (takeTrap toS b code v s).fetchCache = s.fetchCache := by
  unfold takeTrap; split <;> (try split) <;> rfl
@[simp] theorem takeTrap_ssp (toS b : Bool) (code : Nat) (v : XWord) (s : State) : (takeTrap toS b code v s).ssp = s.ssp := by
  unfold takeTrap; split <;> (try split) <;> rfl
@[simp] theorem takeTrap_ordering (toS b : Bool) (code : Nat) (v : XWord) (s : State) : (takeTrap toS b code v s).ordering = s.ordering := by
  unfold takeTrap; split <;> (try split) <;> rfl
@[simp] theorem takeTrap_cacheOps (toS b : Bool) (code : Nat) (v : XWord) (s : State) : (takeTrap toS b code v s).cacheOps = s.cacheOps := by
  unfold takeTrap; split <;> (try split) <;> rfl
@[simp] theorem takeTrap_mem (toS b : Bool) (code : Nat) (v : XWord) (s : State) : (takeTrap toS b code v s).mem = s.mem := by
  unfold takeTrap; split <;> (try split) <;> rfl
@[simp] theorem takeTrap_draws (toS b : Bool) (code : Nat) (v : XWord) (s : State) : (takeTrap toS b code v s).draws = s.draws := by
  unfold takeTrap; split <;> (try split) <;> rfl

/-! ## raise -/

@[simp] theorem raise_cfg (e : Exception) (v : XWord) (s : State) : (raise e v s).cfg = s.cfg := by simp [raise]
@[simp] theorem raise_x (e : Exception) (v : XWord) (s : State) : (raise e v s).x = s.x := by simp [raise]
@[simp] theorem raise_menvcfg (e : Exception) (v : XWord) (s : State) : (raise e v s).menvcfg = s.menvcfg := by simp [raise]
@[simp] theorem raise_windows (e : Exception) (v : XWord) (s : State) : (raise e v s).windows = s.windows := by simp [raise]
@[simp] theorem raise_vsSdt (e : Exception) (v : XWord) (s : State) : (raise e v s).vsSdt = s.vsSdt := by simp [raise]
@[simp] theorem raise_medeleg (e : Exception) (v : XWord) (s : State) : (raise e v s).medeleg = s.medeleg := by simp [raise]
@[simp] theorem raise_midelegSti (e : Exception) (v : XWord) (s : State) : (raise e v s).midelegSti = s.midelegSti := by simp [raise]
@[simp] theorem raise_mieStie (e : Exception) (v : XWord) (s : State) : (raise e v s).mieStie = s.mieStie := by simp [raise]
@[simp] theorem raise_mipStip (e : Exception) (v : XWord) (s : State) : (raise e v s).mipStip = s.mipStip := by simp [raise]
@[simp] theorem raise_mtvec (e : Exception) (v : XWord) (s : State) : (raise e v s).mtvec = s.mtvec := by simp [raise]
@[simp] theorem raise_stvec (e : Exception) (v : XWord) (s : State) : (raise e v s).stvec = s.stvec := by simp [raise]
@[simp] theorem raise_senvcfg (e : Exception) (v : XWord) (s : State) : (raise e v s).senvcfg = s.senvcfg := by simp [raise]
@[simp] theorem raise_henvcfg (e : Exception) (v : XWord) (s : State) : (raise e v s).henvcfg = s.henvcfg := by simp [raise]
@[simp] theorem raise_satp (e : Exception) (v : XWord) (s : State) : (raise e v s).satp = s.satp := by simp [raise]
@[simp] theorem raise_hgatp (e : Exception) (v : XWord) (s : State) : (raise e v s).hgatp = s.hgatp := by simp [raise]
@[simp] theorem raise_stimecmp (e : Exception) (v : XWord) (s : State) : (raise e v s).stimecmp = s.stimecmp := by simp [raise]
@[simp] theorem raise_time (e : Exception) (v : XWord) (s : State) : (raise e v s).time = s.time := by simp [raise]
@[simp] theorem raise_counters (e : Exception) (v : XWord) (s : State) : (raise e v s).counters = s.counters := by simp [raise]
@[simp] theorem raise_fetchCache (e : Exception) (v : XWord) (s : State) : (raise e v s).fetchCache = s.fetchCache := by simp [raise]
@[simp] theorem raise_ssp (e : Exception) (v : XWord) (s : State) : (raise e v s).ssp = s.ssp := by simp [raise]
@[simp] theorem raise_ordering (e : Exception) (v : XWord) (s : State) : (raise e v s).ordering = s.ordering := by simp [raise]
@[simp] theorem raise_cacheOps (e : Exception) (v : XWord) (s : State) : (raise e v s).cacheOps = s.cacheOps := by simp [raise]
@[simp] theorem raise_mem (e : Exception) (v : XWord) (s : State) : (raise e v s).mem = s.mem := by simp [raise]
@[simp] theorem raise_draws (e : Exception) (v : XWord) (s : State) : (raise e v s).draws = s.draws := by simp [raise]

/-! ## trapReturnM -/

@[simp] theorem trapReturnM_cfg (s : State) : (trapReturnM s).cfg = s.cfg := rfl
@[simp] theorem trapReturnM_x (s : State) : (trapReturnM s).x = s.x := rfl
@[simp] theorem trapReturnM_menvcfg (s : State) : (trapReturnM s).menvcfg = s.menvcfg := rfl
@[simp] theorem trapReturnM_windows (s : State) : (trapReturnM s).windows = s.windows := rfl
@[simp] theorem trapReturnM_vsSdt (s : State) : (trapReturnM s).vsSdt = s.vsSdt := rfl
@[simp] theorem trapReturnM_medeleg (s : State) : (trapReturnM s).medeleg = s.medeleg := rfl
@[simp] theorem trapReturnM_midelegSti (s : State) : (trapReturnM s).midelegSti = s.midelegSti := rfl
@[simp] theorem trapReturnM_mieStie (s : State) : (trapReturnM s).mieStie = s.mieStie := rfl
@[simp] theorem trapReturnM_mipStip (s : State) : (trapReturnM s).mipStip = s.mipStip := rfl
@[simp] theorem trapReturnM_mtvec (s : State) : (trapReturnM s).mtvec = s.mtvec := rfl
@[simp] theorem trapReturnM_mepc (s : State) : (trapReturnM s).mepc = s.mepc := rfl
@[simp] theorem trapReturnM_mcause (s : State) : (trapReturnM s).mcause = s.mcause := rfl
@[simp] theorem trapReturnM_mtval (s : State) : (trapReturnM s).mtval = s.mtval := rfl
@[simp] theorem trapReturnM_stvec (s : State) : (trapReturnM s).stvec = s.stvec := rfl
@[simp] theorem trapReturnM_sepc (s : State) : (trapReturnM s).sepc = s.sepc := rfl
@[simp] theorem trapReturnM_scause (s : State) : (trapReturnM s).scause = s.scause := rfl
@[simp] theorem trapReturnM_stval (s : State) : (trapReturnM s).stval = s.stval := rfl
@[simp] theorem trapReturnM_senvcfg (s : State) : (trapReturnM s).senvcfg = s.senvcfg := rfl
@[simp] theorem trapReturnM_henvcfg (s : State) : (trapReturnM s).henvcfg = s.henvcfg := rfl
@[simp] theorem trapReturnM_satp (s : State) : (trapReturnM s).satp = s.satp := rfl
@[simp] theorem trapReturnM_hgatp (s : State) : (trapReturnM s).hgatp = s.hgatp := rfl
@[simp] theorem trapReturnM_stimecmp (s : State) : (trapReturnM s).stimecmp = s.stimecmp := rfl
@[simp] theorem trapReturnM_time (s : State) : (trapReturnM s).time = s.time := rfl
@[simp] theorem trapReturnM_counters (s : State) : (trapReturnM s).counters = s.counters := rfl
@[simp] theorem trapReturnM_fetchCache (s : State) : (trapReturnM s).fetchCache = s.fetchCache := rfl
@[simp] theorem trapReturnM_ssp (s : State) : (trapReturnM s).ssp = s.ssp := rfl
@[simp] theorem trapReturnM_ordering (s : State) : (trapReturnM s).ordering = s.ordering := rfl
@[simp] theorem trapReturnM_cacheOps (s : State) : (trapReturnM s).cacheOps = s.cacheOps := rfl
@[simp] theorem trapReturnM_mem (s : State) : (trapReturnM s).mem = s.mem := rfl
@[simp] theorem trapReturnM_draws (s : State) : (trapReturnM s).draws = s.draws := rfl

/-! ## trapReturnS -/

@[simp] theorem trapReturnS_cfg (s : State) : (trapReturnS s).cfg = s.cfg := rfl
@[simp] theorem trapReturnS_x (s : State) : (trapReturnS s).x = s.x := rfl
@[simp] theorem trapReturnS_menvcfg (s : State) : (trapReturnS s).menvcfg = s.menvcfg := rfl
@[simp] theorem trapReturnS_windows (s : State) : (trapReturnS s).windows = s.windows := rfl
@[simp] theorem trapReturnS_vsSdt (s : State) : (trapReturnS s).vsSdt = s.vsSdt := rfl
@[simp] theorem trapReturnS_medeleg (s : State) : (trapReturnS s).medeleg = s.medeleg := rfl
@[simp] theorem trapReturnS_midelegSti (s : State) : (trapReturnS s).midelegSti = s.midelegSti := rfl
@[simp] theorem trapReturnS_mieStie (s : State) : (trapReturnS s).mieStie = s.mieStie := rfl
@[simp] theorem trapReturnS_mipStip (s : State) : (trapReturnS s).mipStip = s.mipStip := rfl
@[simp] theorem trapReturnS_mtvec (s : State) : (trapReturnS s).mtvec = s.mtvec := rfl
@[simp] theorem trapReturnS_mepc (s : State) : (trapReturnS s).mepc = s.mepc := rfl
@[simp] theorem trapReturnS_mcause (s : State) : (trapReturnS s).mcause = s.mcause := rfl
@[simp] theorem trapReturnS_mtval (s : State) : (trapReturnS s).mtval = s.mtval := rfl
@[simp] theorem trapReturnS_stvec (s : State) : (trapReturnS s).stvec = s.stvec := rfl
@[simp] theorem trapReturnS_sepc (s : State) : (trapReturnS s).sepc = s.sepc := rfl
@[simp] theorem trapReturnS_scause (s : State) : (trapReturnS s).scause = s.scause := rfl
@[simp] theorem trapReturnS_stval (s : State) : (trapReturnS s).stval = s.stval := rfl
@[simp] theorem trapReturnS_senvcfg (s : State) : (trapReturnS s).senvcfg = s.senvcfg := rfl
@[simp] theorem trapReturnS_henvcfg (s : State) : (trapReturnS s).henvcfg = s.henvcfg := rfl
@[simp] theorem trapReturnS_satp (s : State) : (trapReturnS s).satp = s.satp := rfl
@[simp] theorem trapReturnS_hgatp (s : State) : (trapReturnS s).hgatp = s.hgatp := rfl
@[simp] theorem trapReturnS_stimecmp (s : State) : (trapReturnS s).stimecmp = s.stimecmp := rfl
@[simp] theorem trapReturnS_time (s : State) : (trapReturnS s).time = s.time := rfl
@[simp] theorem trapReturnS_counters (s : State) : (trapReturnS s).counters = s.counters := rfl
@[simp] theorem trapReturnS_fetchCache (s : State) : (trapReturnS s).fetchCache = s.fetchCache := rfl
@[simp] theorem trapReturnS_ssp (s : State) : (trapReturnS s).ssp = s.ssp := rfl
@[simp] theorem trapReturnS_ordering (s : State) : (trapReturnS s).ordering = s.ordering := rfl
@[simp] theorem trapReturnS_cacheOps (s : State) : (trapReturnS s).cacheOps = s.cacheOps := rfl
@[simp] theorem trapReturnS_mem (s : State) : (trapReturnS s).mem = s.mem := rfl
@[simp] theorem trapReturnS_draws (s : State) : (trapReturnS s).draws = s.draws := rfl

/-! ## trapReturnV -/

@[simp] theorem trapReturnV_cfg (s : State) : (trapReturnV s).cfg = s.cfg := rfl
@[simp] theorem trapReturnV_x (s : State) : (trapReturnV s).x = s.x := rfl
@[simp] theorem trapReturnV_menvcfg (s : State) : (trapReturnV s).menvcfg = s.menvcfg := rfl
@[simp] theorem trapReturnV_windows (s : State) : (trapReturnV s).windows = s.windows := rfl
@[simp] theorem trapReturnV_medeleg (s : State) : (trapReturnV s).medeleg = s.medeleg := rfl
@[simp] theorem trapReturnV_midelegSti (s : State) : (trapReturnV s).midelegSti = s.midelegSti := rfl
@[simp] theorem trapReturnV_mieStie (s : State) : (trapReturnV s).mieStie = s.mieStie := rfl
@[simp] theorem trapReturnV_mipStip (s : State) : (trapReturnV s).mipStip = s.mipStip := rfl
@[simp] theorem trapReturnV_mtvec (s : State) : (trapReturnV s).mtvec = s.mtvec := rfl
@[simp] theorem trapReturnV_mepc (s : State) : (trapReturnV s).mepc = s.mepc := rfl
@[simp] theorem trapReturnV_mcause (s : State) : (trapReturnV s).mcause = s.mcause := rfl
@[simp] theorem trapReturnV_mtval (s : State) : (trapReturnV s).mtval = s.mtval := rfl
@[simp] theorem trapReturnV_stvec (s : State) : (trapReturnV s).stvec = s.stvec := rfl
@[simp] theorem trapReturnV_sepc (s : State) : (trapReturnV s).sepc = s.sepc := rfl
@[simp] theorem trapReturnV_scause (s : State) : (trapReturnV s).scause = s.scause := rfl
@[simp] theorem trapReturnV_stval (s : State) : (trapReturnV s).stval = s.stval := rfl
@[simp] theorem trapReturnV_senvcfg (s : State) : (trapReturnV s).senvcfg = s.senvcfg := rfl
@[simp] theorem trapReturnV_henvcfg (s : State) : (trapReturnV s).henvcfg = s.henvcfg := rfl
@[simp] theorem trapReturnV_satp (s : State) : (trapReturnV s).satp = s.satp := rfl
@[simp] theorem trapReturnV_hgatp (s : State) : (trapReturnV s).hgatp = s.hgatp := rfl
@[simp] theorem trapReturnV_stimecmp (s : State) : (trapReturnV s).stimecmp = s.stimecmp := rfl
@[simp] theorem trapReturnV_time (s : State) : (trapReturnV s).time = s.time := rfl
@[simp] theorem trapReturnV_counters (s : State) : (trapReturnV s).counters = s.counters := rfl
@[simp] theorem trapReturnV_fetchCache (s : State) : (trapReturnV s).fetchCache = s.fetchCache := rfl
@[simp] theorem trapReturnV_ssp (s : State) : (trapReturnV s).ssp = s.ssp := rfl
@[simp] theorem trapReturnV_ordering (s : State) : (trapReturnV s).ordering = s.ordering := rfl
@[simp] theorem trapReturnV_cacheOps (s : State) : (trapReturnV s).cacheOps = s.cacheOps := rfl
@[simp] theorem trapReturnV_mem (s : State) : (trapReturnV s).mem = s.mem := rfl
@[simp] theorem trapReturnV_draws (s : State) : (trapReturnV s).draws = s.draws := rfl

/-! ## writeMenvcfg -/

@[simp] theorem writeMenvcfg_cfg (v : BitVec 64) (s : State) : (writeMenvcfg v s).cfg = s.cfg := rfl
@[simp] theorem writeMenvcfg_x (v : BitVec 64) (s : State) : (writeMenvcfg v s).x = s.x := rfl
@[simp] theorem writeMenvcfg_pc (v : BitVec 64) (s : State) : (writeMenvcfg v s).pc = s.pc := rfl
@[simp] theorem writeMenvcfg_priv (v : BitVec 64) (s : State) : (writeMenvcfg v s).priv = s.priv := rfl
@[simp] theorem writeMenvcfg_medeleg (v : BitVec 64) (s : State) : (writeMenvcfg v s).medeleg = s.medeleg := rfl
@[simp] theorem writeMenvcfg_midelegSti (v : BitVec 64) (s : State) : (writeMenvcfg v s).midelegSti = s.midelegSti := rfl
@[simp] theorem writeMenvcfg_mieStie (v : BitVec 64) (s : State) : (writeMenvcfg v s).mieStie = s.mieStie := rfl
@[simp] theorem writeMenvcfg_mipStip (v : BitVec 64) (s : State) : (writeMenvcfg v s).mipStip = s.mipStip := rfl
@[simp] theorem writeMenvcfg_mtvec (v : BitVec 64) (s : State) : (writeMenvcfg v s).mtvec = s.mtvec := rfl
@[simp] theorem writeMenvcfg_mepc (v : BitVec 64) (s : State) : (writeMenvcfg v s).mepc = s.mepc := rfl
@[simp] theorem writeMenvcfg_mcause (v : BitVec 64) (s : State) : (writeMenvcfg v s).mcause = s.mcause := rfl
@[simp] theorem writeMenvcfg_mtval (v : BitVec 64) (s : State) : (writeMenvcfg v s).mtval = s.mtval := rfl
@[simp] theorem writeMenvcfg_stvec (v : BitVec 64) (s : State) : (writeMenvcfg v s).stvec = s.stvec := rfl
@[simp] theorem writeMenvcfg_sepc (v : BitVec 64) (s : State) : (writeMenvcfg v s).sepc = s.sepc := rfl
@[simp] theorem writeMenvcfg_scause (v : BitVec 64) (s : State) : (writeMenvcfg v s).scause = s.scause := rfl
@[simp] theorem writeMenvcfg_stval (v : BitVec 64) (s : State) : (writeMenvcfg v s).stval = s.stval := rfl
@[simp] theorem writeMenvcfg_satp (v : BitVec 64) (s : State) : (writeMenvcfg v s).satp = s.satp := rfl
@[simp] theorem writeMenvcfg_hgatp (v : BitVec 64) (s : State) : (writeMenvcfg v s).hgatp = s.hgatp := rfl
@[simp] theorem writeMenvcfg_stimecmp (v : BitVec 64) (s : State) : (writeMenvcfg v s).stimecmp = s.stimecmp := rfl
@[simp] theorem writeMenvcfg_time (v : BitVec 64) (s : State) : (writeMenvcfg v s).time = s.time := rfl
@[simp] theorem writeMenvcfg_counters (v : BitVec 64) (s : State) : (writeMenvcfg v s).counters = s.counters := rfl
@[simp] theorem writeMenvcfg_fetchCache (v : BitVec 64) (s : State) : (writeMenvcfg v s).fetchCache = s.fetchCache := rfl
@[simp] theorem writeMenvcfg_elp (v : BitVec 64) (s : State) : (writeMenvcfg v s).elp = s.elp := rfl
@[simp] theorem writeMenvcfg_ssp (v : BitVec 64) (s : State) : (writeMenvcfg v s).ssp = s.ssp := rfl
@[simp] theorem writeMenvcfg_ordering (v : BitVec 64) (s : State) : (writeMenvcfg v s).ordering = s.ordering := rfl
@[simp] theorem writeMenvcfg_cacheOps (v : BitVec 64) (s : State) : (writeMenvcfg v s).cacheOps = s.cacheOps := rfl
@[simp] theorem writeMenvcfg_mem (v : BitVec 64) (s : State) : (writeMenvcfg v s).mem = s.mem := rfl
@[simp] theorem writeMenvcfg_draws (v : BitVec 64) (s : State) : (writeMenvcfg v s).draws = s.draws := rfl

@[simp] theorem writeMenvcfg_menvcfg (v : BitVec 64) (s : State) :
    (writeMenvcfg v s).menvcfg = swWrite s.cfg s.menvcfg v := rfl

@[simp] theorem writeMenvcfg_windows (v : BitVec 64) (s : State) :
    (writeMenvcfg v s).windows = openedWindows (swWrite s.cfg s.menvcfg v) s := rfl

/-! ## writeCsr -/

@[simp] theorem writeCsr_cfg (r : CsrReg) (w : XWord) (s : State) : (writeCsr r w s).cfg = s.cfg := by cases r <;> rfl
@[simp] theorem writeCsr_x (r : CsrReg) (w : XWord) (s : State) : (writeCsr r w s).x = s.x := by cases r <;> rfl
@[simp] theorem writeCsr_pc (r : CsrReg) (w : XWord) (s : State) : (writeCsr r w s).pc = s.pc := by cases r <;> rfl
@[simp] theorem writeCsr_priv (r : CsrReg) (w : XWord) (s : State) : (writeCsr r w s).priv = s.priv := by cases r <;> rfl
@[simp] theorem writeCsr_time (r : CsrReg) (w : XWord) (s : State) : (writeCsr r w s).time = s.time := by cases r <;> rfl
@[simp] theorem writeCsr_counters (r : CsrReg) (w : XWord) (s : State) : (writeCsr r w s).counters = s.counters := by cases r <;> rfl
@[simp] theorem writeCsr_fetchCache (r : CsrReg) (w : XWord) (s : State) : (writeCsr r w s).fetchCache = s.fetchCache := by cases r <;> rfl
@[simp] theorem writeCsr_elp (r : CsrReg) (w : XWord) (s : State) : (writeCsr r w s).elp = s.elp := by cases r <;> rfl
@[simp] theorem writeCsr_ordering (r : CsrReg) (w : XWord) (s : State) : (writeCsr r w s).ordering = s.ordering := by cases r <;> rfl
@[simp] theorem writeCsr_cacheOps (r : CsrReg) (w : XWord) (s : State) : (writeCsr r w s).cacheOps = s.cacheOps := by cases r <;> rfl
@[simp] theorem writeCsr_mem (r : CsrReg) (w : XWord) (s : State) : (writeCsr r w s).mem = s.mem := by cases r <;> rfl
@[simp] theorem writeCsr_draws (r : CsrReg) (w : XWord) (s : State) : (writeCsr r w s).draws = s.draws := by cases r <;> rfl

end Sys2Proof.Machine
end

