-- ==== Sys2Proof/Laws/Values.lean ====
section
/-! SUPPORT. XLEN-bit values, the software-write function and the legal values of `menvcfg`. -/

namespace Sys2Proof.Machine

/-! ## XLEN -/

@[simp] theorem trunc_trunc (c : HartConfig) (v : XWord) : trunc c (trunc c v) = trunc c v := by
  unfold trunc; split
  · apply BitVec.eq_of_toNat_eq; simp
  · rfl

@[simp] theorem trunc_zero (c : HartConfig) : trunc c 0#64 = 0#64 := by
  unfold trunc; split <;> rfl

theorem trunc_rv64 {c : HartConfig} (h : c.xlen = .rv64) (v : XWord) : trunc c v = v := by simp [trunc, h]

/-- Bit by bit: with XLEN = 32 the bits from 32 up are 0. -/
theorem getLsbD_trunc (c : HartConfig) (v : XWord) (i : Nat) :
    (trunc c v).getLsbD i = (v.getLsbD i && (c.xlen == .rv64 || decide (i < 32))) := by
  unfold trunc
  cases h : c.xlen
  · by_cases hi : i < 64
    · simp [BitVec.getLsbD_setWidth, hi, Bool.and_comm, show (Xlen.rv32 == Xlen.rv64) = false from rfl]
    · simp [BitVec.getLsbD_setWidth, hi, BitVec.getLsbD_of_ge v i (by omega)]
  · simp

theorem trunc_and (c : HartConfig) (v w : XWord) : trunc c (v &&& w) = trunc c v &&& trunc c w := by
  apply BitVec.eq_of_getLsbD_eq; intro i _
  simp only [BitVec.getLsbD_and, getLsbD_trunc]
  cases v.getLsbD i <;> cases w.getLsbD i <;> simp

theorem trunc_or (c : HartConfig) (v w : XWord) : trunc c (v ||| w) = trunc c v ||| trunc c w := by
  apply BitVec.eq_of_getLsbD_eq; intro i _
  simp only [BitVec.getLsbD_or, getLsbD_trunc]
  cases v.getLsbD i <;> cases w.getLsbD i <;> simp

theorem fits_trunc (c : HartConfig) (v : XWord) : fits c (trunc c v) = true := by simp [fits]

theorem fits_zero (c : HartConfig) : fits c 0#64 = true := by simp [fits]

theorem fits_iff (c : HartConfig) (v : XWord) : fits c v = true ↔ trunc c v = v := by simp [fits]

/-! ## Bits 5:4 -/

theorem rawCbie_eq_iff (v : BitVec 64) (b : BitVec 2) :
    rawCbie v = b ↔ v.getLsbD 4 = b.getLsbD 0 ∧ v.getLsbD 5 = b.getLsbD 1 := by
  constructor
  · rintro rfl; simp [rawCbie]
  · rintro ⟨h0, h1⟩
    apply BitVec.eq_of_getLsbD_eq; intro i hi
    have : i = 0 ∨ i = 1 := by omega
    rcases this with rfl | rfl
    · simpa [rawCbie] using h0
    · simpa [rawCbie] using h1

/-- What `setRawCbie` leaves in each bit. -/
theorem getLsbD_setRawCbie (v : BitVec 64) (b : BitVec 2) (i : Nat) :
    (setRawCbie v b).getLsbD i =
      if i = 4 then b.getLsbD 0 else if i = 5 then b.getLsbD 1 else v.getLsbD i := by
  by_cases h : i < 64
  · unfold setRawCbie
    interval_cases i <;> simp
  · simp [BitVec.getLsbD_of_ge _ i (by omega : 64 ≤ i), show i ≠ 4 by omega, show i ≠ 5 by omega]

@[simp] theorem rawCbie_setRawCbie (v : BitVec 64) (b : BitVec 2) : rawCbie (setRawCbie v b) = b := by
  rw [rawCbie_eq_iff, getLsbD_setRawCbie, getLsbD_setRawCbie]; simp

theorem rawCbie_and (v w : BitVec 64) : rawCbie (v &&& w) = rawCbie v &&& rawCbie w := by
  rw [rawCbie_eq_iff]; simp [rawCbie]

/-! ## The software-write function -/

/-- The CBIE a write leaves, when the field exists. -/
def writtenCbie (c : HartConfig) (old v : BitVec 64) : BitVec 2 :=
  if cbieStorable c (rawCbie v) then rawCbie v else rawCbie old

theorem swWrite_eq (c : HartConfig) (old v : BitVec 64) :
    swWrite c old v = setRawCbie (v &&& wmask c) (if c.zicbom then writtenCbie c old v else 0#2) := rfl

theorem rawCbie_swWrite (c : HartConfig) (old v : BitVec 64) :
    rawCbie (swWrite c old v) = if c.zicbom then writtenCbie c old v else 0#2 := by
  simp [swWrite_eq]

/-- Every bit outside 5:4 of a write takes the written bit where WMASK has it, else 0. -/
theorem getLsbD_swWrite (c : HartConfig) (old v : BitVec 64) (i : Nat) (h4 : i ≠ 4) (h5 : i ≠ 5) :
    (swWrite c old v).getLsbD i = (v.getLsbD i && (wmask c).getLsbD i) := by
  simp [swWrite_eq, getLsbD_setRawCbie, h4, h5]

theorem rawCbie_wmask_of_zicbom {c : HartConfig} (h : c.zicbom = true) : rawCbie (wmask c) = 3#2 := by
  rw [rawCbie_eq_iff]; simp [wmask, maskIf, h]

theorem and_not_eq_zero_iff (v m : BitVec 64) :
    v &&& ~~~m = 0#64 ↔ ∀ i, v.getLsbD i = true → m.getLsbD i = true := by
  constructor
  · intro h i hi
    have hlt : i < 64 := BitVec.lt_of_getLsbD hi
    have := congrArg (fun w => BitVec.getLsbD w i) h
    simpa [hi, hlt] using this
  · intro h
    apply BitVec.eq_of_getLsbD_eq; intro i hi
    have := h i
    cases hv : v.getLsbD i <;> simp_all

/-- The law of a legal value, bit by bit (R60). -/
theorem legalValue_iff (c : HartConfig) (v : BitVec 64) :
    legalValue c v = true ↔
      (∀ i, v.getLsbD i = true → (wmask c).getLsbD i = true) ∧ rawCbie v ≠ 2#2 ∧
        (c.forceUpgradeCboInvalToFlush = true → rawCbie v ≠ 3#2) := by
  simp only [legalValue, Bool.and_eq_true, beq_iff_eq, and_not_eq_zero_iff, bne_iff_ne, ne_eq, Bool.or_eq_true,
    Bool.not_eq_true', and_assoc]
  cases c.forceUpgradeCboInvalToFlush <;> simp

theorem cbieStorable_iff (c : HartConfig) (b : BitVec 2) :
    cbieStorable c b = true ↔ b ≠ 2#2 ∧ (c.forceUpgradeCboInvalToFlush = true → b ≠ 3#2) := by
  unfold cbieStorable
  cases c.forceUpgradeCboInvalToFlush <;> revert b <;> decide

theorem legalValue_cbieStorable {c : HartConfig} {v : BitVec 64} (h : legalValue c v = true) :
    cbieStorable c (rawCbie v) = true :=
  (cbieStorable_iff c _).2 ((legalValue_iff c v).1 h).2

theorem writtenCbie_storable {c : HartConfig} {old : BitVec 64} (h : legalValue c old = true) (v : BitVec 64) :
    cbieStorable c (writtenCbie c old v) = true := by
  unfold writtenCbie; split
  · assumption
  · exact legalValue_cbieStorable h

/-! ## A configuration without Zicbom -/

theorem getLsbD_one_shiftLeft_other {k j : Nat} (h : j ≠ k) : (1#64 <<< k).getLsbD j = false := by simp; omega

theorem getLsbD_maskIf_other {k j : Nat} {b : Bool} (h : b = true → j ≠ k) :
    (maskIf b (1#64 <<< k)).getLsbD j = false := by
  cases b
  · simp [maskIf]
  · exact getLsbD_one_shiftLeft_other (h rfl)

/-- With distinct positions no prose field stands on a bit of CBIE. -/
theorem prose_not_cbie {c : HartConfig} (h : fieldsDistinct c = true) {p : Nat} (hp : p ∈ prosePositions c) :
    4 ≠ p ∧ 5 ≠ p := by
  have hn := (List.nodup_append.1 (of_decide_eq_true h)).2.2
  exact ⟨hn 4 (by simp [tabledPositions]) p hp, hn 5 (by simp [tabledPositions]) p hp⟩

/-- With distinct positions and without Zicbom, CBIE is outside WMASK. -/
theorem wmask_cbie_of_no_zicbom {c : HartConfig} (h : fieldsDistinct c = true) (hz : c.zicbom = false) :
    (wmask c).getLsbD 4 = false ∧ (wmask c).getLsbD 5 = false := by
  have k1 : c.smcdeleg = true → 4 ≠ c.posCde.val ∧ 5 ≠ c.posCde.val := fun e =>
    prose_not_cbie h (by simp [prosePositions, e])
  have k2 : c.ssdbltrp = true → 4 ≠ c.posDte.val ∧ 5 ≠ c.posDte.val := fun e =>
    prose_not_cbie h (by simp [prosePositions, e])
  have k3 : c.zicfiss = true → 4 ≠ c.posSse.val ∧ 5 ≠ c.posSse.val := fun e =>
    prose_not_cbie h (by simp [prosePositions, e])
  have k4 : c.zicfilp = true → 4 ≠ c.posLpe.val ∧ 5 ≠ c.posLpe.val := fun e =>
    prose_not_cbie h (by simp [prosePositions, e])
  have fixed : ∀ (b : Bool) (k : Nat), 4 ≠ k ∧ 5 ≠ k → (b = true → 4 ≠ k ∧ 5 ≠ k) := fun _ _ hk _ => hk
  have bit : ∀ (b : Bool) (k : Nat), (b = true → 4 ≠ k ∧ 5 ≠ k) →
      (maskIf b (1#64 <<< k)).getLsbD 4 = false ∧ (maskIf b (1#64 <<< k)).getLsbD 5 = false := fun b k hk =>
    ⟨getLsbD_maskIf_other fun e => (hk e).1, getLsbD_maskIf_other fun e => (hk e).2⟩
  simp only [wmask, BitVec.getLsbD_or, bit _ _ k1, bit _ _ k2, bit _ _ k3, bit _ _ k4,
    bit _ _ (fixed c.sstc 63 (by decide)), bit _ _ (fixed c.svpbmt 62 (by decide)),
    bit _ _ (fixed c.svadu 61 (by decide)), bit _ _ (fixed c.zicboz 7 (by decide)),
    bit _ _ (fixed (!c.fiomReadOnlyZero) 0 (by decide)), hz]
  simp [maskIf]

/-- With distinct positions and without Zicbom, a legal value has CBIE 0. -/
theorem rawCbie_of_no_zicbom {c : HartConfig} (h : fieldsDistinct c = true) (hz : c.zicbom = false) {v : BitVec 64}
    (hv : legalValue c v = true) : rawCbie v = 0#2 := by
  have hl := ((legalValue_iff c v).1 hv).1
  have hb := wmask_cbie_of_no_zicbom h hz
  have clear : ∀ j, (wmask c).getLsbD j = false → v.getLsbD j = false := by
    intro j hj
    cases hvj : v.getLsbD j
    · rfl
    · rw [hl j hvj] at hj; cases hj
  rw [rawCbie_eq_iff, clear 4 hb.1, clear 5 hb.2]; simp

end Sys2Proof.Machine
end

