-- ==== Sys2Proof/Laws/Ops.lean ====
section
/-! SUPPORT. What the shared operations of Machine/Ops.lean do: registers, memory and its canonical form, traps. -/

namespace Sys2Proof.Machine

/-! ## Registers -/

@[simp] theorem getReg_zero (s : State) : getReg s 0#5 = 0#64 := by simp [getReg]

/-- Reading registers depends on nothing but the register file and XLEN. -/
theorem getReg_congr {s t : State} (hx : t.x = s.x) (hc : t.cfg = s.cfg) (r : RegIdx) : getReg t r = getReg s r := by
  simp [getReg, hx, hc]

@[simp] theorem getReg_advance (n : Nat) (s : State) (r : RegIdx) : getReg (advance n s) r = getReg s r := rfl

@[simp] theorem getReg_tick (s : State) (r : RegIdx) : getReg (tick s) r = getReg s r := rfl

@[simp] theorem getReg_raise (e : Exception) (v : XWord) (s : State) (r : RegIdx) :
    getReg (raise e v s) r = getReg s r := getReg_congr (by simp) (by simp) r

@[simp] theorem getReg_takeTrap (b i : Bool) (n : Nat) (v : XWord) (s : State) (r : RegIdx) :
    getReg (takeTrap b i n v s) r = getReg s r := getReg_congr (by simp) (by simp) r

@[simp] theorem getReg_writeCsr (c : CsrReg) (w : XWord) (s : State) (r : RegIdx) :
    getReg (writeCsr c w s) r = getReg s r := getReg_congr (by simp) (by simp) r

/-- A read after a write: the value, XLEN bits of it, unless the register is x0 (R32, R67). -/
theorem getReg_setReg_same (r : RegIdx) (v : XWord) (s : State) :
    getReg (setReg r v s) r = if r = 0#5 then 0#64 else trunc s.cfg v := by
  by_cases h : r = 0#5 <;> simp [getReg, setReg, h]

/-- A write leaves every other register alone. -/
theorem getReg_setReg_other {r q : RegIdx} (h : q ≠ r) (v : XWord) (s : State) :
    getReg (setReg r v s) q = getReg s q := by
  unfold setReg
  split
  · rfl
  · have : r.toNat ≠ q.toNat := fun e => h (BitVec.eq_of_toNat_eq e.symm)
    simp [getReg, Vector.getElem_set_ne _ _ this]

theorem trunc_getReg (s : State) (r : RegIdx) : trunc s.cfg (getReg s r) = getReg s r := by
  unfold getReg; split <;> simp

/-! ## Memory -/

theorem readByte_writeByte_same (m : Memory) (a : Nat) (b : Byte) : readByte (writeByte m a b) a = some b := by
  induction m with
  | nil => simp [writeByte, readByte]
  | cons c m ih =>
    obtain ⟨k, v⟩ := c
    unfold writeByte
    split
    · simp [readByte]
    · split
      · simp [readByte]
      · rename_i h1 h2; simp [readByte, h2, ih]

theorem readByte_writeByte_other {a d : Nat} (h : d ≠ a) (m : Memory) (b : Byte) :
    readByte (writeByte m a b) d = readByte m d := by
  induction m with
  | nil => simp [writeByte, readByte, h]
  | cons c m ih =>
    obtain ⟨k, v⟩ := c
    unfold writeByte
    split
    · simp [readByte, h]
    · split
      · rename_i h1 h2; subst h2; simp [readByte, h]
      · simp only [readByte, ih]

/-- Every address of a canonical memory's tail is above its head. -/
theorem memoryWf_cons_iff (k : Nat) (v : Byte) (m : Memory) :
    memoryWf ((k, v) :: m) = true ↔ (∀ c ∈ m, k < c.1) ∧ memoryWf m = true := by
  induction m generalizing k v with
  | nil => simp [memoryWf]
  | cons c m ih =>
    obtain ⟨j, w⟩ := c
    simp only [memoryWf, Bool.and_eq_true, decide_eq_true_eq, List.mem_cons, forall_eq_or_imp]
    constructor
    · rintro ⟨h, hm⟩
      exact ⟨⟨h, fun c hc => Nat.lt_trans h (((ih j w).1 hm).1 c hc)⟩, hm⟩
    · rintro ⟨⟨h, _⟩, hm⟩; exact ⟨h, hm⟩

theorem mem_writeByte {m : Memory} {a : Nat} {b : Byte} {c : Host.Cell} (h : c ∈ writeByte m a b) :
    c.1 = a ∨ c ∈ m := by
  induction m with
  | nil => simp [writeByte] at h; simp [h]
  | cons d m ih =>
    obtain ⟨k, v⟩ := d
    unfold writeByte at h
    split at h
    · rcases List.mem_cons.1 h with rfl | h
      · exact .inl rfl
      · exact .inr h
    · split at h
      · rcases List.mem_cons.1 h with rfl | h
        · exact .inl rfl
        · exact .inr (List.mem_cons_of_mem _ h)
      · rcases List.mem_cons.1 h with rfl | h
        · exact .inr (List.mem_cons_self ..)
        · exact (ih h).imp id (List.mem_cons_of_mem _)

/-- Writing a byte keeps the canonical form. -/
theorem memoryWf_writeByte {m : Memory} (h : memoryWf m = true) (a : Nat) (b : Byte) :
    memoryWf (writeByte m a b) = true := by
  induction m with
  | nil => rfl
  | cons c m ih =>
    obtain ⟨k, v⟩ := c
    obtain ⟨hk, hm⟩ := (memoryWf_cons_iff k v m).1 h
    unfold writeByte
    split
    · rename_i ha
      rw [memoryWf_cons_iff]
      refine ⟨fun c hc => ?_, h⟩
      rcases List.mem_cons.1 hc with rfl | hc
      · exact ha
      · exact Nat.lt_trans ha (hk c hc)
    · split
      · rename_i h1 h2; subst h2
        exact (memoryWf_cons_iff a b m).2 ⟨hk, hm⟩
      · rename_i h1 h2
        rw [memoryWf_cons_iff]
        refine ⟨fun c hc => ?_, ih hm⟩
        rcases mem_writeByte hc with h' | h'
        · omega
        · exact hk c h'

theorem memoryWf_writeBytes {m : Memory} (h : memoryWf m = true) (a : XWord) (bs : List Byte) :
    memoryWf (writeBytes m a bs) = true := by
  induction bs generalizing m a with
  | nil => exact h
  | cons b bs ih => exact ih (memoryWf_writeByte h _ _) _

theorem memoryWf_writeCells {m : Memory} (h : memoryWf m = true) (cs : List (XWord × Byte)) :
    memoryWf (writeCells m cs) = true := by
  induction cs generalizing m with
  | nil => exact h
  | cons c cs ih => exact ih (memoryWf_writeByte h _ _)

theorem mem_dropByte {m : Memory} {a : Nat} {c : Host.Cell} (h : c ∈ dropByte m a) : c ∈ m := by
  induction m with
  | nil => exact h
  | cons d m ih =>
    unfold dropByte at h
    split at h
    · exact List.mem_cons_of_mem _ h
    · rcases List.mem_cons.1 h with rfl | h
      · exact List.mem_cons_self ..
      · exact List.mem_cons_of_mem _ (ih h)

theorem memoryWf_dropByte {m : Memory} (h : memoryWf m = true) (a : Nat) : memoryWf (dropByte m a) = true := by
  induction m with
  | nil => rfl
  | cons c m ih =>
    obtain ⟨k, v⟩ := c
    obtain ⟨hk, hm⟩ := (memoryWf_cons_iff k v m).1 h
    unfold dropByte
    split
    · exact hm
    · exact (memoryWf_cons_iff ..).2 ⟨fun c hc => hk c (mem_dropByte hc), ih hm⟩

theorem memoryWf_dropAll {m : Memory} (h : memoryWf m = true) (as : List Nat) : memoryWf (dropAll m as) = true := by
  induction as generalizing m with
  | nil => exact h
  | cons a as ih => exact ih (memoryWf_dropByte h a)

theorem memoryWf_dropBytes {m : Memory} (h : memoryWf m = true) (a : XWord) (n : Nat) :
    memoryWf (dropBytes m a n) = true := by
  induction n generalizing m a with
  | zero => exact h
  | succ n ih => exact ih (memoryWf_dropByte h _) _

theorem memoryWf_keepBytes (m : Memory) {cache : Memory} (h : memoryWf cache = true) (as : List Nat) :
    memoryWf (keepBytes m cache as) = true := by
  induction as generalizing cache with
  | nil => exact h
  | cons a as ih =>
    unfold keepBytes
    split
    · exact ih h
    · exact ih (memoryWf_writeByte h _ _)

theorem memoryWf_overlay {m : Memory} (h : memoryWf m = true) (cache : Memory) : memoryWf (overlay m cache) = true := by
  induction cache generalizing m with
  | nil => exact h
  | cons c cache ih => exact ih (memoryWf_writeByte h _ _)

/-! What the fetch reads from the bytes it keeps. -/

theorem readByte_eq_none_of_lt {m : Memory} {a : Nat} (h : ∀ c ∈ m, a < c.1) : readByte m a = none := by
  induction m with
  | nil => rfl
  | cons c m ih =>
    obtain ⟨k, v⟩ := c
    have hk : a < k := h (k, v) (List.mem_cons_self ..)
    rw [readByte, if_neg (by omega)]
    exact ih fun c hc => h c (List.mem_cons_of_mem _ hc)

/-- A kept byte shadows the one in memory. -/
theorem readByte_overlay {cache : Memory} (h : memoryWf cache = true) (m : Memory) (a : Nat) :
    readByte (overlay m cache) a = if readByte cache a = none then readByte m a else readByte cache a := by
  induction cache generalizing m with
  | nil => rfl
  | cons c cache ih =>
    obtain ⟨k, v⟩ := c
    obtain ⟨hk, hm⟩ := (memoryWf_cons_iff k v cache).1 h
    rw [overlay, ih hm, readByte]
    by_cases he : a = k
    · subst he
      simp [readByte_eq_none_of_lt hk, readByte_writeByte_same]
    · simp [he, readByte_writeByte_other he]

theorem readByte_dropByte {m : Memory} (h : memoryWf m = true) (a d : Nat) :
    readByte (dropByte m a) d = if d = a then none else readByte m d := by
  induction m with
  | nil => simp [dropByte, readByte]
  | cons c m ih =>
    obtain ⟨k, v⟩ := c
    obtain ⟨hk, hm⟩ := (memoryWf_cons_iff k v m).1 h
    unfold dropByte
    by_cases he : k = a
    · subst he
      by_cases hd : d = k
      · subst hd; simp [readByte_eq_none_of_lt hk]
      · simp [hd, readByte]
    · rw [if_neg he, readByte, readByte, ih hm]
      by_cases hd : d = a
      · subst hd; simp [Ne.symm he]
      · simp [hd]

/-- Dropping bytes leaves the others as they were. -/
theorem readByte_dropAll {m : Memory} (h : memoryWf m = true) (as : List Nat) (d : Nat) :
    readByte (dropAll m as) d = if d ∈ as then none else readByte m d := by
  induction as generalizing m with
  | nil => simp [dropAll]
  | cons a as ih =>
    rw [dropAll, ih (memoryWf_dropByte h a), readByte_dropByte h]
    by_cases hd : d = a <;> by_cases hm : d ∈ as <;> simp [hd, hm]

/-- A byte kept is one kept before, or the one in memory now. -/
theorem readByte_keepBytes (m cache : Memory) (as : List Nat) (d : Nat) :
    readByte (keepBytes m cache as) d = readByte cache d ∨ readByte (keepBytes m cache as) d = readByte m d := by
  induction as generalizing cache with
  | nil => exact .inl rfl
  | cons a as ih =>
    unfold keepBytes
    split
    · exact ih cache
    · rename_i b hb
      rcases ih (writeByte cache a b) with h | h
      · by_cases hd : d = a
        · subst hd; rw [readByte_writeByte_same] at h; exact .inr (h.trans hb.symm)
        · rw [readByte_writeByte_other hd] at h; exact .inl h
      · exact .inr h

/-- A write of bytes leaves every other address alone. -/
theorem readByte_writeBytes_outside (m : Memory) (a : XWord) (bs : List Byte) (b : Nat)
    (h : ¬ inSpan a bs.length b) : readByte (writeBytes m a bs) b = readByte m b := by
  induction bs generalizing m a with
  | nil => rfl
  | cons v bs ih =>
    have h0 : b ≠ a.toNat := fun e => h ⟨0, by simp, by simpa using e⟩
    have h1 : ¬ inSpan (a + 1#64) bs.length b := by
      rintro ⟨k, hk, e⟩
      refine h ⟨k + 1, by simpa using hk, ?_⟩
      rw [e, BitVec.add_assoc]
      congr 2
      apply BitVec.eq_of_toNat_eq
      simp [Nat.add_comm]
    rw [writeBytes, ih _ _ h1, readByte_writeByte_other h0]

@[simp] theorem length_freeBytes (draw n : Nat) : (freeBytes draw n).length = n := by
  induction n with
  | zero => rfl
  | succ n ih => simp [freeBytes, ih]

/-- A read of bytes gives back the bytes just written, when the span does not meet itself. -/
theorem readByte_writeBytes_mem (m : Memory) (a : XWord) (bs : List Byte) (k : Nat) (hk : k < bs.length)
    (hb : bs.length ≤ 2 ^ 64) :
    readByte (writeBytes m a bs) (a + BitVec.ofNat 64 k).toNat = some bs[k] := by
  induction bs generalizing m a k with
  | nil => simp at hk
  | cons v bs ih =>
    cases k with
    | zero =>
      rw [writeBytes, readByte_writeBytes_outside]
      · simpa using readByte_writeByte_same m a.toNat v
      · rintro ⟨j, hj, e⟩
        have hlen : bs.length + 1 ≤ 2 ^ 64 := by simpa using hb
        have : (a + BitVec.ofNat 64 0) = (a + 1#64) + BitVec.ofNat 64 j := BitVec.eq_of_toNat_eq e
        rw [BitVec.add_assoc] at this
        have h0 : BitVec.ofNat 64 0 = 1#64 + BitVec.ofNat 64 j := by
          simpa [eq_comm] using this
        have := congrArg BitVec.toNat h0
        simp at this
        omega
    | succ k =>
      have hlen : bs.length + 1 ≤ 2 ^ 64 := by simpa using hb
      have := ih (writeByte m a.toNat v) (a + 1#64) k (by simpa using hk) (by omega)
      rw [writeBytes, List.getElem_cons_succ, ← this]
      congr 2
      rw [BitVec.add_assoc]
      congr 1
      apply BitVec.eq_of_toNat_eq
      simp [Nat.add_comm]

/-- The first two of four bytes. -/
theorem readBytes_two_of_four {m : Memory} {a : XWord} {bs : List Byte} (h : readBytes m a 4 = some bs) :
    readBytes m a 2 = some (bs.take 2) := by
  simp only [readBytes] at *
  cases h0 : readByte m a.toNat <;> simp only [h0] at h ⊢
  · cases h
  cases h1 : readByte m (a+1#64).toNat <;> simp only [h1] at h ⊢
  · cases h
  cases h2 : readByte m (a+1#64+1#64).toNat <;> simp only [h2] at h ⊢
  · cases h
  cases h3 : readByte m (a+1#64+1#64+1#64).toNat <;> simp only [h3] at h ⊢
  · cases h
  cases h; rfl

/-! ## The fields a write of `menvcfg` frees -/

/-- A drawn bit leaves every other bit alone. -/
theorem getLsbD_drawBit_other {i pos : Nat} (h : i ≠ pos) (on b : Bool) (v : BitVec 64) :
    (drawBit on pos b v).getLsbD i = v.getLsbD i := by
  by_cases hi : i < 64
  · unfold drawBit
    split
    · have h1 := getLsbD_one_shiftLeft_other h
      have h2 := getLsbD_maskIf_other (b := b) fun _ => h
      simp only [BitVec.getLsbD_or, BitVec.getLsbD_and, BitVec.getLsbD_not, h1, h2, hi]
      simp
    · rfl
  · rw [BitVec.getLsbD_of_ge _ _ (by omega), BitVec.getLsbD_of_ge _ _ (by omega)]

/-! ## Traps -/

/-- Everything taking a trap can do (R239): to M-mode, to S-mode, or as a double trap to M-mode (R223). -/
theorem takeTrap_cases (toS interrupt : Bool) (code : Nat) (info : XWord) (s : State) :
    (toS = false ∧ takeTrap toS interrupt code info s = enterM interrupt code info s) ∨
    (toS = true ∧ sdtView s = false ∧ takeTrap toS interrupt code info s = enterS interrupt code info s) ∨
    (toS = true ∧ sdtView s = true ∧
      takeTrap toS interrupt code info s = enterM false 16 (trunc s.cfg (Config.freeWord s.draws)) s) := by
  cases toS <;> cases h : sdtView s <;> simp [takeTrap, h, Exception.code]

/-- A trap from M-mode, or one that is not delegated, goes to M-mode (R242). -/
theorem raise_eq_enterM {e : Exception} {s : State} (h : delegated e.code s = false) (info : XWord) :
    raise e info s = enterM false e.code info s := by simp [raise, takeTrap, h]

theorem delegated_of_m {s : State} (h : s.priv = .m) (code : Nat) : delegated code s = false := by
  simp [delegated, h, Mode.belowM]

/-- A trap leaves everything the hart's units and the environment hold (R241, R246). -/
theorem raise_environment (e : Exception) (info : XWord) (s : State) : sameEnvironment s (raise e info s) := by
  simp [sameEnvironment]

theorem fits_or {c : HartConfig} {v w : XWord} (hv : fits c v = true) (hw : fits c w = true) :
    fits c (v ||| w) = true := by
  rw [fits_iff] at *; rw [trunc_or, hv, hw]

theorem fits_causeWord (c : HartConfig) (i : Bool) (n : Nat) : fits c (causeWord c i n) = true := by
  apply fits_or (fits_trunc ..)
  cases i
  · exact fits_zero c
  · cases h : c.xlen <;> simp [fits, trunc, maskIf, xlenBits, h]

theorem fits_handlerPc (c : HartConfig) (v : XWord) (i : Bool) (n : Nat) : fits c (handlerPc c v i n) = true :=
  fits_trunc ..

theorem fits_getReg (s : State) (r : RegIdx) : fits s.cfg (getReg s r) = true := by
  rw [fits_iff, trunc_getReg]

theorem fits_instrInfo (c : HartConfig) (w : BitVec 32) : fits c (instrInfo c w) = true := by
  unfold instrInfo
  split
  · rw [fits_iff]; unfold trunc; split
    · apply BitVec.eq_of_toNat_eq; simp
    · rfl
  · exact fits_zero c

end Sys2Proof.Machine
end

