-- ==== Sys2Proof/Laws/Invariants.lean ====
section
/-! SUPPORT. The shared operations keep the invariants of Safety.lean, one lemma for each operation. -/

namespace Sys2Proof.Machine

theorem invariant_iff (s : State) :
    invariant s = true ↔
      menvcfgLegal s = true ∧ modesLegal s = true ∧ elpIdle s = true ∧ widthsOk s = true ∧ memoryWf s.mem = true ∧
        memoryWf s.fetchCache = true := by
  simp [invariant, and_assoc]

/-! ## Register, program counter, memory, logs -/

theorem invariant_advance {s : State} (h : invariant s = true) (n : Nat) : invariant (advance n s) = true := by
  rw [invariant_iff] at *
  obtain ⟨h1, h2, h3, h4, h5⟩ := h
  refine ⟨h1, h2, h3, ?_, h5⟩
  simp only [widthsOk, Bool.and_eq_true] at *
  simp [h4, fits_trunc]

theorem invariant_setReg {s : State} (h : invariant s = true) (r : RegIdx) (v : XWord) :
    invariant (setReg r v s) = true := by
  unfold setReg
  split
  · exact h
  · rename_i hr
    rw [invariant_iff] at *
    obtain ⟨h1, h2, h3, h4, h5⟩ := h
    refine ⟨h1, h2, h3, ?_, h5⟩
    have hr0 : r.toNat ≠ 0 := fun e => hr (BitVec.eq_of_toNat_eq e)
    simp only [widthsOk, Bool.and_eq_true, beq_iff_eq, List.all_eq_true, Vector.mem_toList_iff] at *
    obtain ⟨⟨hx, hall⟩, hrest⟩ : (s.x[0] = 0#64 ∧ ∀ v, v ∈ s.x → fits s.cfg v = true) ∧ _ :=
      ⟨⟨h4.1.1.1.1.1.1.1.1.1.1.1.1.1.1, h4.1.1.1.1.1.1.1.1.1.1.1.1.1.2⟩, h4⟩
    refine ⟨⟨⟨⟨⟨⟨⟨⟨⟨⟨⟨⟨⟨⟨?_, ?_⟩, ?_⟩, ?_⟩, ?_⟩, ?_⟩, ?_⟩, ?_⟩, ?_⟩, ?_⟩, ?_⟩, ?_⟩, ?_⟩, ?_⟩, ?_⟩
    · rw [Vector.getElem_set_ne _ _ hr0]; exact hx
    · intro w hw
      rcases Vector.mem_or_eq_of_mem_set hw with hw | rfl
      · exact hall w hw
      · exact fits_trunc ..
    all_goals simp [h4]

/-- Memory may become any canonical memory. -/
theorem invariant_mem {s : State} (h : invariant s = true) {m : Memory} (hm : memoryWf m = true) :
    invariant { s with mem := m } = true := by
  rw [invariant_iff] at *
  exact ⟨h.1, h.2.1, h.2.2.1, h.2.2.2.1, hm, h.2.2.2.2.2⟩

theorem invariant_ordering {s : State} (h : invariant s = true) (l : List OrderEvent) :
    invariant { s with ordering := l } = true := h

theorem invariant_cacheOps {s : State} (h : invariant s = true) (l : List CacheEvent) :
    invariant { s with cacheOps := l } = true := h

theorem invariant_windows {s : State} (h : invariant s = true) (w : Windows) :
    invariant { s with windows := w } = true := h

theorem invariant_tick {s : State} (h : invariant s = true) : invariant (tick s) = true := by
  rw [invariant_iff] at *
  obtain ⟨h1, h2, h3, h4, h5, h6⟩ := h
  refine ⟨h1, h2, h3, h4, h5, ?_⟩
  unfold tick; dsimp only; split
  · exact h6
  · exact memoryWf_keepBytes _ (memoryWf_dropAll h6 _) _

/-! ## Traps and returns -/

theorem elpEntering_idle (mode : Mode) (s : State) (h : mode = lpMode s.cfg) (hl : lpeOn s = false) :
    elpEntering mode s = .noLpExpected := by simp [elpEntering, h, hl]

theorem invariant_enterM {s : State} (h : invariant s = true) (i : Bool) (n : Nat) {v : XWord}
    (hv : fits s.cfg v = true) : invariant (enterM i n v s) = true := by
  rw [invariant_iff] at *
  obtain ⟨h1, h2, h3, h4, h5⟩ := h
  refine ⟨h1, ?_, ?_, ?_, h5⟩
  · simp only [modesLegal, enterM, Bool.and_eq_true] at *
    exact ⟨⟨rfl, h2.1.1⟩, h2.2⟩
  · have : (Mode.m == lpMode s.cfg) = false := by unfold lpMode; split <;> rfl
    simp [elpIdle, enterM, this]
  · simp only [widthsOk, Bool.and_eq_true, enterM] at *
    simp [h4, hv, fits_causeWord, fits_handlerPc]

theorem invariant_enterS {s : State} (h : invariant s = true) (i : Bool) (n : Nat) {v : XWord}
    (hv : fits s.cfg v = true) (hs : s.cfg.sImplemented = true) (hp : s.priv ≠ .m) :
    invariant (enterS i n v s) = true := by
  rw [invariant_iff] at *
  obtain ⟨h1, h2, h3, h4, h5⟩ := h
  refine ⟨h1, ?_, ?_, ?_, h5⟩
  · simp only [modesLegal, enterS, Bool.and_eq_true] at *
    refine ⟨⟨by simp [modeLegal, hs], h2.1.2⟩, ?_⟩
    simp [h2.1.1, hp]
  · by_cases hc : Mode.s = lpMode s.cfg ∧ lpeOn s = false
    · simp [elpIdle, enterS, elpEntering, hc.1, hc.2]
    · simp only [not_and_or] at hc
      simp only [elpIdle, enterS, Bool.or_eq_true, Bool.not_eq_true', Bool.and_eq_false_iff, beq_eq_false_iff_ne,
        Bool.not_eq_false']
      refine .inl (hc.imp id fun hl => ?_)
      simpa [lpeOn] using hl
  · simp only [widthsOk, Bool.and_eq_true, enterS] at *
    simp [h4, hv, fits_causeWord, fits_handlerPc]

theorem invariant_takeTrap {s : State} (h : invariant s = true) (toS i : Bool) (n : Nat) {v : XWord}
    (hv : fits s.cfg v = true) (hs : toS = true → s.cfg.sImplemented = true ∧ s.priv ≠ .m) :
    invariant (takeTrap toS i n v s) = true := by
  rcases takeTrap_cases toS i n v s with ⟨_, e⟩ | ⟨ht, _, e⟩ | ⟨_, _, e⟩ <;> rw [e]
  · exact invariant_enterM h i n hv
  · exact invariant_enterS h i n hv (hs ht).1 (hs ht).2
  · exact invariant_enterM h _ _ (fits_trunc ..)

theorem invariant_raise {s : State} (h : invariant s = true) (e : Exception) {v : XWord}
    (hv : fits s.cfg v = true) : invariant (raise e v s) = true := by
  refine invariant_takeTrap h _ _ _ hv fun ht => ?_
  simp only [delegated, Bool.and_eq_true] at ht
  refine ⟨ht.1.1, fun hm => ?_⟩
  simp [hm, Mode.belowM] at ht

theorem modeLegal_leastMode (c : HartConfig) : modeLegal c (leastMode c) = true := by
  unfold leastMode; split
  · simp_all [modeLegal]
  · split <;> simp_all [modeLegal]

theorem leastMode_ne_m {c : HartConfig} (h : c.sImplemented = true) : leastMode c ≠ .m := by
  simp only [leastMode, h, if_true]; split <;> decide

theorem elpIdle_entering {s : State} {f : Mstatus} {p : XWord} (mode : Mode) :
    elpIdle { s with priv := mode, pc := p, elp := elpEntering mode s, mstatus := f } = true := by
  by_cases hc : mode = lpMode s.cfg ∧ lpeOn s = false
  · simp [elpIdle, elpEntering, hc.1, hc.2]
  · simp only [not_and_or] at hc
    simp only [elpIdle, Bool.or_eq_true, Bool.not_eq_true', Bool.and_eq_false_iff, beq_eq_false_iff_ne,
      Bool.not_eq_false']
    refine .inl (hc.imp id fun hl => ?_)
    simpa [lpeOn] using hl

theorem invariant_trapReturnM {s : State} (h : invariant s = true) : invariant (trapReturnM s) = true := by
  rw [invariant_iff] at *
  obtain ⟨h1, h2, h3, h4, h5⟩ := h
  refine ⟨h1, ?_, elpIdle_entering _, ?_, h5⟩
  · simp only [modesLegal, trapReturnM, Bool.and_eq_true] at *
    exact ⟨⟨h2.1.2, modeLegal_leastMode _⟩, h2.2⟩
  · simp only [widthsOk, Bool.and_eq_true, trapReturnM] at *
    simp [h4, fits_trunc]

theorem invariant_trapReturnS {s : State} (h : invariant s = true) (hs : s.cfg.sImplemented = true) :
    invariant (trapReturnS s) = true := by
  rw [invariant_iff] at *
  obtain ⟨h1, h2, h3, h4, h5⟩ := h
  refine ⟨h1, ?_, elpIdle_entering _, ?_, h5⟩
  · simp only [modesLegal, trapReturnS, Bool.and_eq_true] at *
    simp only [hs, Bool.not_true, Bool.false_or, Bool.and_eq_true] at h2
    refine ⟨⟨h2.2.1, h2.1.2⟩, ?_⟩
    simp [modeLegal_leastMode, leastMode_ne_m hs]
  · simp only [widthsOk, Bool.and_eq_true, trapReturnS] at *
    simp [h4, fits_trunc]

theorem invariant_trapReturnV {s : State} (h : invariant s = true) (hv : s.priv = .vs) :
    invariant (trapReturnV s) = true := by
  rw [invariant_iff] at *
  obtain ⟨h1, h2, h3, h4, h5⟩ := h
  refine ⟨h1, ?_, ?_, ?_, h5⟩
  · simp only [modesLegal, trapReturnV, Bool.and_eq_true] at *
    refine ⟨⟨?_, h2.1.2⟩, h2.2⟩
    have := h2.1.1
    rw [hv] at this
    unfold virtualReturnMode; split <;> exact this
  · have : ∀ mode : Mode, mode.virt = true → (mode == lpMode s.cfg) = false := by
      intro mode hm; unfold lpMode; cases mode <;> simp [Mode.virt] at hm <;> split <;> rfl
    have hr : (virtualReturnMode s).virt = true := by unfold virtualReturnMode; split <;> rfl
    simp [elpIdle, trapReturnV, this _ hr]
  · simp only [widthsOk, Bool.and_eq_true, trapReturnV] at *
    simp [h4, fits_trunc]

/-! ## Translation -/

/-- A translation that answers changes nothing but memory, which stays canonical. -/
theorem checkPtes_ok {kind : AccessKind} {virt : Bool} {ps : List Pte} {s t : State}
    (h : checkPtes kind virt ps s = .ok t) :
    ∃ m, t = { s with mem := m } ∧ (memoryWf s.mem = true → memoryWf m = true) := by
  induction ps generalizing s with
  | nil => simp only [checkPtes, Except.ok.injEq] at h; exact ⟨s.mem, by rw [← h], id⟩
  | cons p ps ih =>
    simp only [checkPtes] at h
    split at h
    · cases h
    · rename_i s' hs'
      obtain ⟨m, rfl, hm⟩ := ih h
      simp only [checkPte] at hs'
      split at hs'
      · cases hs'
      · split at hs'
        · split at hs'
          · cases hs'
            exact ⟨m, rfl, fun h => hm (memoryWf_writeBytes h ..)⟩
          · cases hs'
        · cases hs'; exact ⟨m, rfl, hm⟩

theorem translate_ok {kind : AccessKind} {mode : Mode} {va pa : XWord} {s t : State}
    (h : translate kind mode va s = .ok (pa, t)) :
    ∃ m, t = { s with mem := m } ∧ (memoryWf s.mem = true → memoryWf m = true) := by
  simp only [translate] at h
  split at h
  · split at h
    · cases h
    · rename_i t' ht'
      split at h
      · cases h
      · cases h; exact checkPtes_ok ht'
  · cases h; exact ⟨s.mem, rfl, id⟩

/-- Checking the PTEs answers exactly where all pass, and raises what the first rejected one raises. -/
theorem checkPtes_cases (kind : AccessKind) (virt : Bool) (ptes : List Pte) (s : State) :
    (∃ t, checkPtes kind virt ptes s = .ok t ∧ ptesPass kind virt ptes s t) ∨
    (∃ e, checkPtes kind virt ptes s = .error e ∧ ptesFail kind virt ptes s e) := by
  induction ptes generalizing s with
  | nil => exact .inl ⟨s, rfl, rfl⟩
  | cons p ps ih =>
    cases hp : checkPte kind virt p s with
    | error e => exact .inr ⟨e, by simp only [checkPtes, hp], [], p, ps, s, rfl, rfl, hp⟩
    | ok u =>
      rcases ih u with ⟨t, h1, h2⟩ | ⟨e, h1, before, q, after, v, h2, h3, h4⟩
      · exact .inl ⟨t, by simp only [checkPtes, hp, h1], u, hp, h2⟩
      · exact .inr ⟨e, by simp only [checkPtes, hp, h1], p :: before, q, after, v, by rw [h2]; rfl, ⟨u, hp, h3⟩, h4⟩

theorem checkPtes_of_pass {kind : AccessKind} {virt : Bool} {ptes : List Pte} {s t : State}
    (h : ptesPass kind virt ptes s t) : checkPtes kind virt ptes s = .ok t := by
  induction ptes generalizing s with
  | nil => cases h; rfl
  | cons p ps ih =>
    obtain ⟨u, h1, h2⟩ := h
    simp only [checkPtes, h1, ih h2]

theorem checkPtes_of_fail {kind : AccessKind} {virt : Bool} {ptes : List Pte} {s : State} {e : Exception}
    (h : ptesFail kind virt ptes s e) : checkPtes kind virt ptes s = .error e := by
  obtain ⟨before, p, after, u, rfl, hb, hp⟩ := h
  induction before generalizing s with
  | nil => cases hb; simp only [List.nil_append, checkPtes, hp]
  | cons q qs ih =>
    obtain ⟨v, h1, h2⟩ := hb
    simp only [List.cons_append, checkPtes, h1, ih h2]

/-- The modes of `accessesTranslated` are translated. -/
theorem translationOn_of_translated {mode : Mode} {s : State} (h : accessesTranslated mode s) :
    translationOn mode s = true := by
  rcases h with h | ⟨hm, hs⟩
  · cases mode <;> first | rfl | cases h
  · have ha : atpOn s.cfg s.satp = true := by
      rcases hs with ⟨hx, hs⟩ | ⟨hx, hs⟩
      · simpa [atpOn, hx] using hs
      · simp [atpOn, hx, hs]
    rcases hm with rfl | ⟨rfl, hi⟩
    · exact ha
    · simp [translationOn, hi, ha]

/-- Checking the PTEs of a walk writes no byte but those of PTEs that need A or D set. -/
theorem readByte_checkPtes {kind : AccessKind} {virt : Bool} {ps : List Pte} {s t : State}
    (h : checkPtes kind virt ps s = .ok t) (b : Nat)
    (hb : ∀ p ∈ ps, needsAd kind p = true → ¬ inSpan p.address p.updated.length b) :
    readByte t.mem b = readByte s.mem b := by
  induction ps generalizing s with
  | nil => cases h; rfl
  | cons p ps ih =>
    simp only [checkPtes] at h
    split at h
    · cases h
    · rename_i s1 h1
      rw [ih h fun p hp => hb p (List.mem_cons_of_mem _ hp)]
      simp only [checkPte] at h1
      split at h1
      · cases h1
      · split at h1
        · rename_i hn
          split at h1 <;> cases h1
          exact readByte_writeBytes_outside _ _ _ _ (hb p (List.mem_cons_self ..) hn)
        · cases h1; rfl

/-- Nor does a translation (R163, R164). -/
theorem readByte_translate {kind : AccessKind} {mode : Mode} {va pa : XWord} {s t : State}
    (h : translate kind mode va s = .ok (pa, t)) (b : Nat)
    (hb : ∀ p ∈ (Config.walk s.draws kind).ptes, needsAd kind p = true → ¬ inSpan p.address p.updated.length b) :
    readByte t.mem b = readByte s.mem b := by
  simp only [translate] at h
  split at h
  · split at h
    · cases h
    · rename_i hc
      split at h
      · cases h
      · cases h; exact readByte_checkPtes hc b hb
  · cases h; rfl

/-- Without translation the address is physical and nothing changes. -/
theorem translate_off {mode : Mode} {s : State} (h : translationOn mode s = false) (kind : AccessKind) (va : XWord) :
    translate kind mode va s = .ok (va, s) := by simp [translate, h]

/-- M-mode fetches are not translated. -/
theorem translate_off_m {s : State} (h : s.priv = .m) (kind : AccessKind) (va : XWord) :
    translate kind s.priv va s = .ok (va, s) := translate_off (by simp [translationOn, h]) kind va

theorem invariant_translate {kind : AccessKind} {mode : Mode} {va pa : XWord} {s t : State} (hi : invariant s = true)
    (h : translate kind mode va s = .ok (pa, t)) : invariant t = true := by
  obtain ⟨m, rfl, hm⟩ := translate_ok h
  exact invariant_mem hi (hm ((invariant_iff s).1 hi).2.2.2.2.1)

/-! ## The software-write function and CSR writes -/

theorem legalValue_swWrite {c : HartConfig} {old : BitVec 64} (h : legalValue c old = true) (v : BitVec 64) :
    legalValue c (swWrite c old v) = true := by
  rw [legalValue_iff]
  have hst := writtenCbie_storable h v
  refine ⟨fun i hi => ?_, ?_⟩
  · by_cases h45 : i = 4 ∨ i = 5
    · by_cases hz : c.zicbom = true
      · rcases h45 with rfl | rfl <;> simp [wmask, maskIf, hz]
      · have hz' : c.zicbom = false := by simpa using hz
        have h0 : rawCbie (swWrite c old v) = 0#2 := by simp [rawCbie_swWrite, hz']
        rw [rawCbie_eq_iff] at h0
        rcases h45 with rfl | rfl
        · rw [h0.1] at hi; simp at hi
        · rw [h0.2] at hi; simp at hi
    · rw [getLsbD_swWrite c old v i (fun e => h45 (.inl e)) (fun e => h45 (.inr e))] at hi
      simp only [Bool.and_eq_true] at hi
      exact hi.2
  · rw [rawCbie_swWrite]
    split
    · exact (cbieStorable_iff c _).1 hst
    · exact ⟨by decide, fun _ => by decide⟩

theorem legalValue_reset (c : HartConfig) (r : BitVec 64) : legalValue c (swWrite c 0#64 r) = true :=
  legalValue_swWrite (by simp [legalValue, rawCbie]) r

theorem modeLegal_modeOfBits {c : HartConfig} {old : Mode} (h : modeLegal c old = true) (b : BitVec 2) :
    modeLegal c (modeOfBits c old b) = true := by
  unfold modeOfBits
  split
  · rfl
  · split
    · rename_i hb
      cases old <;> simp_all [Mode.virt, modeLegal]
    · split
      · rename_i hb
        cases old <;> simp_all [Mode.virt, modeLegal]
      · exact h

theorem modeOfBits_ne_m {c : HartConfig} {old : Mode} (h : old ≠ .m) (b : Bool) :
    modeOfBits c old (if b then 1#2 else 0#2) ≠ .m := by
  unfold modeOfBits
  cases b <;> cases old <;> simp_all [Mode.virt] <;> split <;> simp

theorem modesLegal_writeSstatus {s : State} {f : Mstatus} (w : XWord)
    (hp : modeLegal s.cfg s.priv = true) (hm : modeLegal s.cfg f.mpp = true)
    (hs : s.cfg.sImplemented = true → modeLegal s.cfg f.spp = true ∧ f.spp ≠ .m) :
    modesLegal { s with mstatus := writeSstatusFields w s f } = true := by
  unfold writeSstatusFields
  split
  · rename_i h
    simp only [modesLegal, Bool.and_eq_true]
    refine ⟨⟨hp, hm⟩, ?_⟩
    simp [h, modeLegal_modeOfBits (hs h).1, modeOfBits_ne_m (hs h).2]
  · rename_i h
    simp only [modesLegal, Bool.and_eq_true]
    exact ⟨⟨hp, hm⟩, by simp [h]⟩

theorem fits_and_left {c : HartConfig} {v : XWord} (h : fits c v = true) (w : XWord) : fits c (v &&& w) = true := by
  rw [fits_iff] at *
  apply BitVec.eq_of_getLsbD_eq; intro i _
  have := congrArg (fun u => BitVec.getLsbD u i) h
  simp only [getLsbD_trunc, BitVec.getLsbD_and] at *
  cases hv : v.getLsbD i <;> simp_all

theorem fits_satpWrite (c : HartConfig) (w : XWord) : fits c (satpWrite c w) = true := by
  unfold satpWrite; split
  · exact fits_and_left (fits_trunc ..) _
  · exact fits_trunc ..

theorem invariant_writeMenvcfg {s : State} (h : invariant s = true) (hm : s.priv = .m) (v : BitVec 64) :
    invariant (writeMenvcfg v s) = true := by
  rw [invariant_iff] at *
  obtain ⟨h1, h2, h3, h4, h5⟩ := h
  refine ⟨legalValue_swWrite h1 v, h2, ?_, h4, h5⟩
  have : (Mode.m == lpMode s.cfg) = false := by unfold lpMode; split <;> rfl
  simp [elpIdle, hm, this]

/-- A CSR write keeps the invariants, where one to `menvcfg` comes from M-mode (R120). -/
theorem invariant_writeCsr {s : State} (h : invariant s = true) (r : CsrReg)
    (hm : r = .menvcfg ∨ r = .menvcfgh → s.priv = .m) (w : XWord) : invariant (writeCsr r w s) = true := by
  have h' := (invariant_iff s).1 h
  obtain ⟨h1, h2, h3, h4, h5⟩ := h'
  have h2' := h2
  have h4' := h4
  simp only [modesLegal, Bool.and_eq_true] at h2'
  simp only [widthsOk, Bool.and_eq_true] at h4'
  have hS : s.cfg.sImplemented = true → modeLegal s.cfg s.mstatus.spp = true ∧ s.mstatus.spp ≠ .m := by
    intro hs; simpa [hs] using h2'.2
  have width : ∀ t : State, menvcfgLegal t = menvcfgLegal s → modesLegal t = modesLegal s → elpIdle t = elpIdle s →
      widthsOk t = true → memoryWf t.mem = memoryWf s.mem →
      memoryWf t.fetchCache = memoryWf s.fetchCache → invariant t = true := by
    intro t e1 e2 e3 e4 e5 e6
    rw [invariant_iff, e1, e2, e3, e5, e6]; exact ⟨h1, h2, h3, e4, h5⟩
  cases r
  case menvcfg => exact invariant_writeMenvcfg h (hm (.inl rfl)) _
  case menvcfgh => exact invariant_writeMenvcfg h (hm (.inr rfl)) _
  case mstatus =>
    rw [invariant_iff]
    refine ⟨h1, ?_, h3, h4, h5⟩
    exact modesLegal_writeSstatus w h2'.1.1 (modeLegal_modeOfBits h2'.1.2 _) hS
  case sstatus =>
    rw [invariant_iff]
    exact ⟨h1, modesLegal_writeSstatus w h2'.1.1 h2'.1.2 hS, h3, h4, h5⟩
  all_goals first
    | exact h
    | (refine width _ rfl rfl rfl ?_ rfl rfl
       simp only [widthsOk, writeCsr, Bool.and_eq_true]
       simp [h4', fits_trunc, fits_satpWrite])

end Sys2Proof.Machine
end

