-- ==== Sys2Proof/Laws/Csr.lean ====
section
/-! SUPPORT. The CSR space: which numbers name `menvcfg`, the bits of the environment registers while a `menvcfg` field
is 0, and what a write of one CSR leaves alone. -/

namespace Sys2Proof.Machine

/-! ## CSR numbers -/

theorem existsIf_eq_some {p : Bool} {q r : CsrReg} (h : existsIf p q = some r) : q = r := by
  cases p <;> simp_all [existsIf]

theorem ite_ne_some {p : Prop} [Decidable p] {a b : Option (Bool × CsrReg)} {r : CsrReg}
    (ha : ∀ e, a ≠ some (e, r)) (hb : ∀ e, b ≠ some (e, r)) : ∀ e, (if p then a else b) ≠ some (e, r) := by
  intro e; split
  · exact ha e
  · exact hb e

/-- Only 0x30A and the number of `menvcfgh` name the register (R41, R62). -/
theorem csrNamed_menvcfg {n : CsrNum} {c : HartConfig} {r : CsrReg} (hr : r = .menvcfg ∨ r = .menvcfgh)
    (h0 : n ≠ 0x30A#12) (h1 : n ≠ c.csrMenvcfgh) : ∀ e, csrNamed n c ≠ some (e, r) := by
  simp only [csrNamed, h0, h1, if_false]
  rcases hr with rfl | rfl <;>
    repeat' first
      | apply ite_ne_some
      | simp

theorem csrLookup_menvcfg {n : CsrNum} {s : State} {r : CsrReg} (h : csrLookup n s = some r)
    (hr : r = .menvcfg ∨ r = .menvcfgh) : n = 0x30A#12 ∨ n = s.cfg.csrMenvcfgh := by
  by_contra hn
  rw [not_or] at hn
  have hne : r ≠ .hart := by rcases hr with rfl | rfl <;> simp
  unfold csrLookup at h
  split at h
  · rename_i e q hq
    rw [existsIf_eq_some h] at hq
    exact csrNamed_menvcfg hr hn.1 hn.2 _ hq
  · split at h
    · exact hne (existsIf_eq_some h).symm
    · split at h
      · exact hne (Option.some.inj h).symm
      · cases h

/-- A legal number of `menvcfgh` is a machine-level read/write one, and no other register's. -/
theorem menvcfghNumberLegal_cases {n : CsrNum} (h : menvcfghNumberLegal n = true) :
    n.extractLsb' 8 2 = 3#2 ∧ n.extractLsb' 10 2 ≠ 3#2 ∧ ∀ m ∈ machineNumbers, m ≠ n := by
  simp only [menvcfghNumberLegal, Bool.and_eq_true, Bool.not_eq_true', beq_iff_eq, bne_iff_ne] at h
  obtain ⟨⟨h1, h2⟩, h3⟩ := h
  refine ⟨h1, h2, fun m hm e => ?_⟩
  rw [← e] at h3
  simp [hm] at h3

/-! ## The environment registers -/

theorem getLsbD_maskIf (b : Bool) (m : BitVec 64) (i : Nat) : (maskIf b m).getLsbD i = (b && m.getLsbD i) := by
  cases b <;> simp [maskIf]

/-- PBMTE, ADUE, DTE and SSE are in the mask exactly while their `menvcfg` field is 1 (R71, R217, R222), the first three in
`henvcfg` only. -/
theorem envMask_pbmte (hyp cbie : Bool) (s : State) : (envMask hyp cbie s).getLsbD 62 = (hyp && svpbmtAvailable s) := by
  simp only [envMask, BitVec.getLsbD_or, getLsbD_maskIf]; simp

theorem envMask_adue (hyp cbie : Bool) (s : State) : (envMask hyp cbie s).getLsbD 61 = (hyp && adueActive s) := by
  simp only [envMask, BitVec.getLsbD_or, getLsbD_maskIf]; simp

theorem envMask_dte (hyp cbie : Bool) (s : State) : (envMask hyp cbie s).getLsbD 59 = (hyp && dteOn s) := by
  simp only [envMask, BitVec.getLsbD_or, getLsbD_maskIf]; simp

theorem envMask_sse (hyp cbie : Bool) (s : State) : (envMask hyp cbie s).getLsbD 3 = sseOn s := by
  simp only [envMask, BitVec.getLsbD_or, getLsbD_maskIf]; simp

/-- FIOM, LPE, CBCFE and CBZE depend on no `menvcfg` field (logs 6, 70), and CBIE on its own rule (R126, log 16). -/
theorem envMask_fiom (hyp cbie : Bool) (s : State) : (envMask hyp cbie s).getLsbD 0 = true := by
  simp only [envMask, BitVec.getLsbD_or, getLsbD_maskIf]; simp

theorem envMask_lpe (hyp cbie : Bool) (s : State) : (envMask hyp cbie s).getLsbD 2 = s.cfg.zicfilp := by
  simp only [envMask, BitVec.getLsbD_or, getLsbD_maskIf]; simp

theorem envMask_cbcfe (hyp cbie : Bool) (s : State) : (envMask hyp cbie s).getLsbD 6 = s.cfg.zicbom := by
  simp only [envMask, BitVec.getLsbD_or, getLsbD_maskIf]; simp

theorem envMask_cbze (hyp cbie : Bool) (s : State) : (envMask hyp cbie s).getLsbD 7 = s.cfg.zicboz := by
  simp only [envMask, BitVec.getLsbD_or, getLsbD_maskIf]; simp

theorem envMask_cbie (hyp cbie : Bool) (s : State) :
    (envMask hyp cbie s).getLsbD 4 = cbie ∧ (envMask hyp cbie s).getLsbD 5 = cbie := by
  simp only [envMask, BitVec.getLsbD_or, getLsbD_maskIf]; simp

/-- A write stores a bit that is in the mask and leaves one that is not. -/
theorem getLsbD_envWrite {hyp b : Bool} {s : State} {i : Nat} (hi : i < 64)
    (h : ∀ cbie, (envMask hyp cbie s).getLsbD i = b) (old v : BitVec 64) :
    (envWrite hyp old v s).getLsbD i = if b then v.getLsbD i else old.getLsbD i := by
  simp only [envWrite, BitVec.getLsbD_or, BitVec.getLsbD_and, BitVec.getLsbD_not, h, hi]
  cases b <;> simp

/-- A bit reads as stored while it is in the mask, and 0 while it is not. -/
theorem getLsbD_henvcfgView (s : State) (i : Nat) :
    (henvcfgView s).getLsbD i = (s.henvcfg.getLsbD i && (envMask true s.cfg.zicbom s).getLsbD i) :=
  BitVec.getLsbD_and ..

theorem getLsbD_senvcfgView (s : State) (i : Nat) :
    (senvcfgView s).getLsbD i = (s.senvcfg.getLsbD i && (envMask false s.cfg.zicbom s).getLsbD i) :=
  BitVec.getLsbD_and ..

/-! ## What a write of one CSR changes -/

/-- A write changes `menvcfg` only through its two names, and then by `sw_write` (R59, R124). -/
theorem writeCsr_menvcfg_cases (r : CsrReg) (w : XWord) (s : State) :
    ((writeCsr r w s).menvcfg = s.menvcfg ∧ (writeCsr r w s).windows = s.windows) ∨
    ((r = .menvcfg ∨ r = .menvcfgh) ∧ ∃ v, writeCsr r w s = writeMenvcfg v s) := by
  cases r
  case menvcfg => exact .inr ⟨.inl rfl, _, rfl⟩
  case menvcfgh => exact .inr ⟨.inr rfl, _, rfl⟩
  all_goals exact .inl ⟨rfl, rfl⟩

/-- A write of `menvcfg` closes no window (R159). -/
theorem writeMenvcfg_closes_no_window (v : BitVec 64) (s : State) :
    (s.windows.pbmteS = true → (writeMenvcfg v s).windows.pbmteS = true) ∧
    (s.windows.adueS = true → (writeMenvcfg v s).windows.adueS = true) := by
  simp only [writeMenvcfg, openedWindows]
  exact ⟨fun h => by simp [h], fun h => by simp [h]⟩

end Sys2Proof.Machine
end

