-- ==== Sys2Proof/Laws/Encoding.lean ====
section
/-! SUPPORT. The fields of the three word formats, and what the decoder makes of each format (R100 to R108). -/

namespace Sys2Proof

/-! ## Bits 31:20, 19:15, 14:12, 11:7, 6:0 -/

@[simp] theorem iType_op (imm : BitVec 12) (rs1 : RegIdx) (f3 : BitVec 3) (rd : RegIdx) (op : BitVec 7) :
    (iType imm rs1 f3 rd op).extractLsb' 0 7 = op := by
  apply BitVec.eq_of_getLsbD_eq; intro i hi
  simp only [iType, BitVec.getLsbD_extractLsb', BitVec.getLsbD_append]
  interval_cases i <;> simp

@[simp] theorem iType_rd (imm : BitVec 12) (rs1 : RegIdx) (f3 : BitVec 3) (rd : RegIdx) (op : BitVec 7) :
    (iType imm rs1 f3 rd op).extractLsb' 7 5 = rd := by
  apply BitVec.eq_of_getLsbD_eq; intro i hi
  simp only [iType, BitVec.getLsbD_extractLsb', BitVec.getLsbD_append]
  interval_cases i <;> simp

@[simp] theorem iType_funct3 (imm : BitVec 12) (rs1 : RegIdx) (f3 : BitVec 3) (rd : RegIdx) (op : BitVec 7) :
    (iType imm rs1 f3 rd op).extractLsb' 12 3 = f3 := by
  apply BitVec.eq_of_getLsbD_eq; intro i hi
  simp only [iType, BitVec.getLsbD_extractLsb', BitVec.getLsbD_append]
  interval_cases i <;> simp

@[simp] theorem iType_rs1 (imm : BitVec 12) (rs1 : RegIdx) (f3 : BitVec 3) (rd : RegIdx) (op : BitVec 7) :
    (iType imm rs1 f3 rd op).extractLsb' 15 5 = rs1 := by
  apply BitVec.eq_of_getLsbD_eq; intro i hi
  simp only [iType, BitVec.getLsbD_extractLsb', BitVec.getLsbD_append]
  interval_cases i <;> simp

@[simp] theorem iType_rs2 (imm : BitVec 12) (rs1 : RegIdx) (f3 : BitVec 3) (rd : RegIdx) (op : BitVec 7) :
    (iType imm rs1 f3 rd op).extractLsb' 20 5 = imm.extractLsb' 0 5 := by
  apply BitVec.eq_of_getLsbD_eq; intro i hi
  simp only [iType, BitVec.getLsbD_extractLsb', BitVec.getLsbD_append]
  interval_cases i <;> simp

@[simp] theorem iType_funct7 (imm : BitVec 12) (rs1 : RegIdx) (f3 : BitVec 3) (rd : RegIdx) (op : BitVec 7) :
    (iType imm rs1 f3 rd op).extractLsb' 25 7 = imm.extractLsb' 5 7 := by
  apply BitVec.eq_of_getLsbD_eq; intro i hi
  simp only [iType, BitVec.getLsbD_extractLsb', BitVec.getLsbD_append]
  interval_cases i <;> simp

@[simp] theorem iType_imm (imm : BitVec 12) (rs1 : RegIdx) (f3 : BitVec 3) (rd : RegIdx) (op : BitVec 7) :
    (iType imm rs1 f3 rd op).extractLsb' 20 12 = imm := by
  apply BitVec.eq_of_getLsbD_eq; intro i hi
  simp only [iType, BitVec.getLsbD_extractLsb', BitVec.getLsbD_append]
  interval_cases i <;> simp

/-! ## Bits 31:25, 24:20, 19:15, 14:12, 11:7, 6:0 -/

@[simp] theorem rType_op (f7 : BitVec 7) (rs2 rs1 : RegIdx) (f3 : BitVec 3) (rd : RegIdx) (op : BitVec 7) :
    (rType f7 rs2 rs1 f3 rd op).extractLsb' 0 7 = op := by
  apply BitVec.eq_of_getLsbD_eq; intro i hi
  simp only [rType, BitVec.getLsbD_extractLsb', BitVec.getLsbD_append]
  interval_cases i <;> simp

@[simp] theorem rType_rd (f7 : BitVec 7) (rs2 rs1 : RegIdx) (f3 : BitVec 3) (rd : RegIdx) (op : BitVec 7) :
    (rType f7 rs2 rs1 f3 rd op).extractLsb' 7 5 = rd := by
  apply BitVec.eq_of_getLsbD_eq; intro i hi
  simp only [rType, BitVec.getLsbD_extractLsb', BitVec.getLsbD_append]
  interval_cases i <;> simp

@[simp] theorem rType_funct3 (f7 : BitVec 7) (rs2 rs1 : RegIdx) (f3 : BitVec 3) (rd : RegIdx) (op : BitVec 7) :
    (rType f7 rs2 rs1 f3 rd op).extractLsb' 12 3 = f3 := by
  apply BitVec.eq_of_getLsbD_eq; intro i hi
  simp only [rType, BitVec.getLsbD_extractLsb', BitVec.getLsbD_append]
  interval_cases i <;> simp

@[simp] theorem rType_rs1 (f7 : BitVec 7) (rs2 rs1 : RegIdx) (f3 : BitVec 3) (rd : RegIdx) (op : BitVec 7) :
    (rType f7 rs2 rs1 f3 rd op).extractLsb' 15 5 = rs1 := by
  apply BitVec.eq_of_getLsbD_eq; intro i hi
  simp only [rType, BitVec.getLsbD_extractLsb', BitVec.getLsbD_append]
  interval_cases i <;> simp

@[simp] theorem rType_rs2 (f7 : BitVec 7) (rs2 rs1 : RegIdx) (f3 : BitVec 3) (rd : RegIdx) (op : BitVec 7) :
    (rType f7 rs2 rs1 f3 rd op).extractLsb' 20 5 = rs2 := by
  apply BitVec.eq_of_getLsbD_eq; intro i hi
  simp only [rType, BitVec.getLsbD_extractLsb', BitVec.getLsbD_append]
  interval_cases i <;> simp

@[simp] theorem rType_funct7 (f7 : BitVec 7) (rs2 rs1 : RegIdx) (f3 : BitVec 3) (rd : RegIdx) (op : BitVec 7) :
    (rType f7 rs2 rs1 f3 rd op).extractLsb' 25 7 = f7 := by
  apply BitVec.eq_of_getLsbD_eq; intro i hi
  simp only [rType, BitVec.getLsbD_extractLsb', BitVec.getLsbD_append]
  interval_cases i <;> simp

@[simp] theorem rType_imm (f7 : BitVec 7) (rs2 rs1 : RegIdx) (f3 : BitVec 3) (rd : RegIdx) (op : BitVec 7) :
    (rType f7 rs2 rs1 f3 rd op).extractLsb' 20 12 = f7 ++ rs2 := by
  apply BitVec.eq_of_getLsbD_eq; intro i hi
  simp only [rType, BitVec.getLsbD_extractLsb', BitVec.getLsbD_append]
  interval_cases i <;> simp

/-! ## Bits 31:12, 11:7, 6:0 -/

@[simp] theorem uType_op (imm : BitVec 20) (rd : RegIdx) (op : BitVec 7) :
    (uType imm rd op).extractLsb' 0 7 = op := by
  apply BitVec.eq_of_getLsbD_eq; intro i hi
  simp only [uType, BitVec.getLsbD_extractLsb', BitVec.getLsbD_append]
  interval_cases i <;> simp

@[simp] theorem uType_rd (imm : BitVec 20) (rd : RegIdx) (op : BitVec 7) :
    (uType imm rd op).extractLsb' 7 5 = rd := by
  apply BitVec.eq_of_getLsbD_eq; intro i hi
  simp only [uType, BitVec.getLsbD_extractLsb', BitVec.getLsbD_append]
  interval_cases i <;> simp

@[simp] theorem uType_imm (imm : BitVec 20) (rd : RegIdx) (op : BitVec 7) :
    (uType imm rd op).extractLsb' 12 20 = imm := by
  apply BitVec.eq_of_getLsbD_eq; intro i hi
  simp only [uType, BitVec.getLsbD_extractLsb', BitVec.getLsbD_append]
  interval_cases i <;> simp

/-! ## A word is its fields -/

theorem iType_of_fields (w : BitVec 32) :
    iType (w.extractLsb' 20 12) (w.extractLsb' 15 5) (w.extractLsb' 12 3) (w.extractLsb' 7 5) (w.extractLsb' 0 7)
      = w := by
  apply BitVec.eq_of_getLsbD_eq; intro i hi
  simp only [iType, BitVec.getLsbD_extractLsb', BitVec.getLsbD_append]
  interval_cases i <;> simp

theorem rType_of_fields (w : BitVec 32) :
    rType (w.extractLsb' 25 7) (w.extractLsb' 20 5) (w.extractLsb' 15 5) (w.extractLsb' 12 3) (w.extractLsb' 7 5)
      (w.extractLsb' 0 7) = w := by
  apply BitVec.eq_of_getLsbD_eq; intro i hi
  simp only [rType, BitVec.getLsbD_extractLsb', BitVec.getLsbD_append]
  interval_cases i <;> simp

theorem uType_of_fields (w : BitVec 32) :
    uType (w.extractLsb' 12 20) (w.extractLsb' 7 5) (w.extractLsb' 0 7) = w := by
  apply BitVec.eq_of_getLsbD_eq; intro i hi
  simp only [uType, BitVec.getLsbD_extractLsb', BitVec.getLsbD_append]
  interval_cases i <;> simp

/-! ## The sets of a FENCE and the bits of an atomic -/

@[simp] theorem accessSet_ofBits_toBits (a : AccessSet) : AccessSet.ofBits a.toBits = a := by
  obtain ⟨i, o, r, w⟩ := a
  cases i <;> cases o <;> cases r <;> cases w <;> rfl

@[simp] theorem accessSet_toBits_ofBits (b : BitVec 4) : (AccessSet.ofBits b).toBits = b := by revert b; decide

@[simp] theorem fenceImm_fm (fm : BitVec 4) (p q : AccessSet) : (fenceImm fm p q).extractLsb' 8 4 = fm := by
  apply BitVec.eq_of_getLsbD_eq; intro i hi
  simp only [fenceImm, BitVec.getLsbD_extractLsb', BitVec.getLsbD_append]
  interval_cases i <;> simp

@[simp] theorem fenceImm_pred (fm : BitVec 4) (p q : AccessSet) :
    (fenceImm fm p q).extractLsb' 4 4 = p.toBits := by
  apply BitVec.eq_of_getLsbD_eq; intro i hi
  simp only [fenceImm, BitVec.getLsbD_extractLsb', BitVec.getLsbD_append]
  interval_cases i <;> simp

@[simp] theorem fenceImm_succ (fm : BitVec 4) (p q : AccessSet) :
    (fenceImm fm p q).extractLsb' 0 4 = q.toBits := by
  apply BitVec.eq_of_getLsbD_eq; intro i hi
  simp only [fenceImm, BitVec.getLsbD_extractLsb', BitVec.getLsbD_append]
  interval_cases i <;> simp

theorem fenceImm_of_fields (b : BitVec 12) :
    fenceImm (b.extractLsb' 8 4) (.ofBits (b.extractLsb' 4 4)) (.ofBits (b.extractLsb' 0 4)) = b := by
  simp only [fenceImm, accessSet_toBits_ofBits]
  apply BitVec.eq_of_getLsbD_eq; intro i hi
  simp only [BitVec.getLsbD_extractLsb', BitVec.getLsbD_append]
  interval_cases i <;> simp

@[simp] theorem amoFunct7_funct5 (f : BitVec 5) (aq rl : Bool) : (amoFunct7 f aq rl).extractLsb' 2 5 = f := by
  revert f aq rl; decide

@[simp] theorem amoFunct7_aq (f : BitVec 5) (aq rl : Bool) : (amoFunct7 f aq rl)[1] = aq := by
  revert f aq rl; decide

@[simp] theorem amoFunct7_rl (f : BitVec 5) (aq rl : Bool) : (amoFunct7 f aq rl)[0] = rl := by
  revert f aq rl; decide

theorem amoFunct7_of_fields (b : BitVec 7) : amoFunct7 (b.extractLsb' 2 5) (b.getLsbD 1) (b.getLsbD 0) = b := by
  revert b; decide

/-! ## The decoder on each format -/

theorem decodeWord_iType_system (imm : BitVec 12) (rs1 : RegIdx) (f3 : BitVec 3) (rd : RegIdx) :
    decodeWord (iType imm rs1 f3 rd opSystem) =
      decodeSystem (imm.extractLsb' 5 7) imm (imm.extractLsb' 0 5) rs1 f3 rd := by simp [decodeWord]

theorem decodeWord_rType_system (f7 : BitVec 7) (rs2 rs1 : RegIdx) (f3 : BitVec 3) (rd : RegIdx) :
    decodeWord (rType f7 rs2 rs1 f3 rd opSystem) = decodeSystem f7 (f7 ++ rs2) rs2 rs1 f3 rd := by simp [decodeWord]

theorem decodeWord_iType_miscMem (imm : BitVec 12) (rs1 : RegIdx) (f3 : BitVec 3) (rd : RegIdx) :
    decodeWord (iType imm rs1 f3 rd opMiscMem) = decodeMiscMem imm rs1 f3 rd := by
  simp [decodeWord, show opMiscMem ≠ opSystem by decide]

theorem decodeWord_rType_amo (f7 : BitVec 7) (rs2 rs1 : RegIdx) (f3 : BitVec 3) (rd : RegIdx) :
    decodeWord (rType f7 rs2 rs1 f3 rd opAmo) = decodeAmo f7 rs2 rs1 f3 rd := by
  simp [decodeWord, show opAmo ≠ opSystem by decide, show opAmo ≠ opMiscMem by decide]

/-- A word of the AUIPC opcode (R107): LPAD with `rd` = x0. -/
theorem decodeWord_uType (imm : BitVec 20) (rd : RegIdx) :
    decodeWord (uType imm rd opAuipc) = if rd = 0#5 then .ok (.lpad imm) else .error .auipc := by
  simp [decodeWord, opAuipc, opSystem, opMiscMem, opAmo]

/-! ## Bytes -/

@[simp] theorem wordOf_bytes (w : BitVec 32) : wordOf (byteOf w 0) (byteOf w 1) (byteOf w 2) (byteOf w 3) = w := by
  apply BitVec.eq_of_getLsbD_eq; intro i hi
  simp only [wordOf, byteOf, BitVec.getLsbD_extractLsb', BitVec.getLsbD_append]
  interval_cases i <;> simp

@[simp] theorem byteOf_wordOf_0 (b0 b1 b2 b3 : Byte) : byteOf (wordOf b0 b1 b2 b3) 0 = b0 := by
  apply BitVec.eq_of_getLsbD_eq; intro i hi
  simp only [wordOf, byteOf, BitVec.getLsbD_extractLsb', BitVec.getLsbD_append]
  interval_cases i <;> simp

@[simp] theorem byteOf_wordOf_1 (b0 b1 b2 b3 : Byte) : byteOf (wordOf b0 b1 b2 b3) 1 = b1 := by
  apply BitVec.eq_of_getLsbD_eq; intro i hi
  simp only [wordOf, byteOf, BitVec.getLsbD_extractLsb', BitVec.getLsbD_append]
  interval_cases i <;> simp

@[simp] theorem byteOf_wordOf_2 (b0 b1 b2 b3 : Byte) : byteOf (wordOf b0 b1 b2 b3) 2 = b2 := by
  apply BitVec.eq_of_getLsbD_eq; intro i hi
  simp only [wordOf, byteOf, BitVec.getLsbD_extractLsb', BitVec.getLsbD_append]
  interval_cases i <;> simp

@[simp] theorem byteOf_wordOf_3 (b0 b1 b2 b3 : Byte) : byteOf (wordOf b0 b1 b2 b3) 3 = b3 := by
  apply BitVec.eq_of_getLsbD_eq; intro i hi
  simp only [wordOf, byteOf, BitVec.getLsbD_extractLsb', BitVec.getLsbD_append]
  interval_cases i <;> simp

/-- R100 on a byte is R100 on its word. -/
theorem isWide_byteOf (w : BitVec 32) : isWide (byteOf w 0) = (w.extractLsb' 0 2 == 3#2) := by
  unfold isWide
  congr 1
  apply BitVec.eq_of_getLsbD_eq; intro i hi
  simp only [byteOf, BitVec.getLsbD_extractLsb']
  interval_cases i <;> simp

/-- Bits 1:0 are the low bits of the opcode field. -/
theorem extractLsb'_low2 (w : BitVec 32) : w.extractLsb' 0 2 = (w.extractLsb' 0 7).extractLsb' 0 2 := by
  apply BitVec.eq_of_getLsbD_eq; intro i hi
  simp only [BitVec.getLsbD_extractLsb']
  interval_cases i <;> simp

/-- Four bytes whose first is wide decode as their word, whatever follows. -/
theorem decode_wide {b0 b1 b2 b3 : Byte} (rest : List Byte) (h : isWide b0 = true) :
    decode (b0 :: b1 :: b2 :: b3 :: rest) =
      match decodeWord (wordOf b0 b1 b2 b3) with
      | .ok i => .ok (i, rest)
      | .error e => .error e := if_pos h

/-- Two bytes whose first is not wide decode as their halfword, whatever follows. -/
theorem decode_narrow {b0 b1 : Byte} (rest : List Byte) (h : isWide b0 = false) :
    decode (b0 :: b1 :: rest) =
      match decodeHalfword (halfwordOf b0 b1) with
      | .ok i => .ok (i, rest)
      | .error e => .error e := if_neg (by simp [h])

end Sys2Proof
end

