-- ==== Sys2Proof/Laws/Exec.lean ====
section
/-! SUPPORT. What a step can do, said once: the shared bodies of the meanings, exec, the fetch and step. -/

namespace Sys2Proof.Machine

/-! ## The CSR instructions -/

theorem csrAccess_denied {word : BitVec 32} {n : CsrNum} {rd : RegIdx} {reads writes : Bool} {f : XWord → XWord}
    {s : State} {e : Exception} (h : csrDenied n writes s = some e) :
    csrAccess word n rd reads writes f s = .next (raise e (instrInfo s.cfg word) s) := by simp [csrAccess, h]

theorem csrAccess_ok {word : BitVec 32} {n : CsrNum} {rd : RegIdx} {reads writes : Bool} {f : XWord → XWord}
    {s : State} {r : CsrReg} (h : csrDenied n writes s = none) (hr : csrLookup n s = some r) :
    csrAccess word n rd reads writes f s =
      .next (advance 4
        (if reads then
          setReg rd (readCsr (substituted s.priv r) s)
            (if writes then writeCsr (substituted s.priv r) (f (readCsr (substituted s.priv r) s)) s else s)
        else if writes then writeCsr (substituted s.priv r) (f (readCsr (substituted s.priv r) s)) s else s)) := by
  simp [csrAccess, h, hr]

/-- An access that is not denied names a register. -/
theorem csrLookup_of_not_denied {n : CsrNum} {writes : Bool} {s : State} (h : csrDenied n writes s = none) :
    ∃ r, csrLookup n s = some r := by
  cases hr : csrLookup n s with
  | none => simp [csrDenied, hr] at h
  | some r => exact ⟨r, rfl⟩

/-! The access that each of the six makes. -/

theorem exec_csrrw (rd : RegIdx) (n : CsrNum) (rs1 : RegIdx) (s : State) : exec (.csrrw rd n rs1) s =
    csrAccess (encodeWord (.csrrw rd n rs1)) n rd (rd != 0#5) true (fun _ => getReg s rs1) s := rfl

theorem exec_csrrs (rd : RegIdx) (n : CsrNum) (rs1 : RegIdx) (s : State) : exec (.csrrs rd n rs1) s =
    csrAccess (encodeWord (.csrrs rd n rs1)) n rd true (rs1 != 0#5) (fun r => r ||| getReg s rs1) s := rfl

theorem exec_csrrc (rd : RegIdx) (n : CsrNum) (rs1 : RegIdx) (s : State) : exec (.csrrc rd n rs1) s =
    csrAccess (encodeWord (.csrrc rd n rs1)) n rd true (rs1 != 0#5) (fun r => r &&& ~~~(getReg s rs1)) s := rfl

theorem exec_csrrwi (rd : RegIdx) (n : CsrNum) (u : RegIdx) (s : State) : exec (.csrrwi rd n u) s =
    csrAccess (encodeWord (.csrrwi rd n u)) n rd (rd != 0#5) true (fun _ => uimmValue u) s := rfl

theorem exec_csrrsi (rd : RegIdx) (n : CsrNum) (u : RegIdx) (s : State) : exec (.csrrsi rd n u) s =
    csrAccess (encodeWord (.csrrsi rd n u)) n rd true (u != 0#5) (fun r => r ||| uimmValue u) s := rfl

theorem exec_csrrci (rd : RegIdx) (n : CsrNum) (u : RegIdx) (s : State) : exec (.csrrci rd n u) s =
    csrAccess (encodeWord (.csrrci rd n u)) n rd true (u != 0#5) (fun r => r &&& ~~~(uimmValue u)) s := rfl

/-- The six CSR instructions are one access (R122), with the value `csrValueOf` gives; where it does not read, `rd` is x0
(R134). -/
theorem exec_csr_value {i : Instr} {n : CsrNum} (h : csrNumberOf i = some n) (s : State) :
    ∃ reads, (reads = false → csrRdOf i = 0#5) ∧
      exec i s = csrAccess (encodeWord i) n (csrRdOf i) reads (csrWritesOf i) (fun old => csrValueOf i old s) s := by
  cases i <;> cases h
  case csrrw rd rs1 => exact ⟨rd != 0#5, by simp [csrRdOf], exec_csrrw ..⟩
  case csrrs rd rs1 => exact ⟨true, by simp, exec_csrrs ..⟩
  case csrrc rd rs1 => exact ⟨true, by simp, exec_csrrc ..⟩
  case csrrwi rd uimm => exact ⟨rd != 0#5, by simp [csrRdOf], exec_csrrwi ..⟩
  case csrrsi rd uimm => exact ⟨true, by simp, exec_csrrsi ..⟩
  case csrrci rd uimm => exact ⟨true, by simp, exec_csrrci ..⟩

/-- The same for whatever value. -/
theorem exec_csr {i : Instr} {n : CsrNum} (h : csrNumberOf i = some n) (s : State) :
    ∃ reads f, (reads = false → csrRdOf i = 0#5) ∧
      exec i s = csrAccess (encodeWord i) n (csrRdOf i) reads (csrWritesOf i) f s :=
  let ⟨reads, h1, h2⟩ := exec_csr_value h s
  ⟨reads, _, h1, h2⟩

/-- In M-mode and with the hart's other checks out of the way, only existence and a write of a read-only number deny an
access. -/
theorem csrDenied_of_m {n : CsrNum} {writes : Bool} {s : State} (hm : s.priv = .m) {r : CsrReg}
    (hr : csrLookup n s = some r) (hw : csrReadOnly n = false) : csrDenied n writes s = none := by
  have hl : ¬ 3 < csrLevel n := by
    have := (n.extractLsb' 8 2).isLt
    unfold csrLevel; omega
  simp [csrDenied, hr, hm, Mode.belowM, hw, modeLevel, hl]

theorem substituted_of_m {s : State} (h : s.priv = .m) (r : CsrReg) : substituted s.priv r = r := by
  simp [substituted, h]

theorem substituted_menvcfg (mode : Mode) (r : CsrReg) :
    (substituted mode r = .menvcfg ↔ r = .menvcfg) ∧ (substituted mode r = .menvcfgh ↔ r = .menvcfgh) := by
  unfold substituted
  split <;> cases r <;> simp

/-- R120: an access to the register that is not denied comes from M-mode. -/
theorem priv_of_not_denied {n : CsrNum} {writes : Bool} {s : State} {r : CsrReg} (h : csrDenied n writes s = none)
    (hr : csrLookup n s = some r) (hreg : r = .menvcfg ∨ r = .menvcfgh) : s.priv = .m := by
  have hb : s.priv.belowM = false := by
    cases hp : s.priv.belowM
    · rfl
    · simp only [csrDenied, hr, hp] at h
      rcases hreg with rfl | rfl <;> simp at h
  cases hp : s.priv <;> simp [hp, Mode.belowM] at hb ⊢

/-! ## Accesses to memory -/

/-- A memory operand that answers is a translation that answers. -/
theorem dataAccess_ok {kind : AccessKind} {n : Nat} {va pa : XWord} {s s' : State}
    (h : dataAccess kind n va s = .ok (pa, s')) : translate kind (dataMode s) va s = .ok (pa, s') := by
  unfold dataAccess at h
  split at h
  · cases h
  · exact h

/-- An aligned operand, or one on a hart that performs misaligned accesses, is a translation. -/
theorem dataAccess_eq {kind : AccessKind} {n : Nat} {va : XWord} {s : State}
    (h : misalignedFault s.cfg kind n va = none) : dataAccess kind n va s = translate kind (dataMode s) va s := by
  simp [dataAccess, h]

/-- The state after an atomic whose operand answers. -/
theorem atomicAccess_ok {n : Nat} {kind : AccessKind} {aq rl : Bool} {rs1 rd : RegIdx} {s s' : State} {pa : XWord}
    (h : dataAccess kind n (getReg s rs1) s = .ok (pa, s')) :
    atomicAccess n kind aq rl rs1 rd s =
      .next (advance 4 (setReg rd (Config.freeWord s.draws)
        { s' with
          mem := atomicMemory n kind pa s.draws s'.mem
          ordering := .atomic aq rl (orderedKinds s pa aq rl) :: s'.ordering })) := by
  simp [atomicAccess, h]

theorem atomicAccess_error {n : Nat} {kind : AccessKind} {aq rl : Bool} {rs1 rd : RegIdx} {s : State} {e : Exception}
    (h : dataAccess kind n (getReg s rs1) s = .error e) :
    atomicAccess n kind aq rl rs1 rd s = .next (raise e (getReg s rs1) s) := by simp [atomicAccess, h]

theorem memoryWf_atomicMemory {m : Memory} (h : memoryWf m = true) (n : Nat) (kind : AccessKind) (pa : XWord)
    (draw : Nat) : memoryWf (atomicMemory n kind pa draw m) = true := by
  cases kind
  · exact h
  · exact h
  · exact memoryWf_writeBytes h ..

theorem cboPerform_ok {op : CacheOp} {rs1 : RegIdx} {s s' : State} {pa : XWord}
    (h : translate .store (dataMode s) (getReg s rs1) s = .ok (pa, s')) :
    cboPerform op rs1 s =
      .next (advance 4
        { s' with
          mem := blockEffect op (blockBase op s.cfg pa) s'
          cacheOps := ⟨op, blockBase op s.cfg pa⟩ :: s'.cacheOps }) := by
  simp [cboPerform, h]

theorem cboPerform_error {op : CacheOp} {rs1 : RegIdx} {s : State} {e : Exception}
    (h : translate .store (dataMode s) (getReg s rs1) s = .error e) :
    cboPerform op rs1 s = .next (raise e (getReg s rs1) s) := by simp [cboPerform, h]

theorem memoryWf_blockEffect {s : State} (h : memoryWf s.mem = true) (op : CacheOp) (b : XWord) :
    memoryWf (blockEffect op b s) = true := by
  cases op
  · exact memoryWf_writeBytes h ..
  · exact h
  · exact h
  · exact memoryWf_writeBytes h ..

/-! ## Everything exec can do -/

/-- A next state of exec: an exception, a CSR access, or an update of memory, a register and what is handed to the base
model and the caches; SFENCE.VMA closes windows, and an active Zicfilp or Zicfiss has its own registers. -/
inductive ExecEffect (i : Instr) (s : State) : State → Prop where
  | raised (e : Exception) (v : XWord) (hv : fits s.cfg v = true) : ExecEffect i s (raise e v s)
  | csrRead {n : CsrNum} {r : CsrReg} (rd : RegIdx) (v : XWord) (hn : csrNumberOf i = some n)
      (hd : csrDenied n (csrWritesOf i) s = none) (hr : csrLookup n s = some r) :
      ExecEffect i s (advance 4 (setReg rd v s))
  | csrWritten {n : CsrNum} {r : CsrReg} (rd : RegIdx) (v w : XWord) (hn : csrNumberOf i = some n)
      (hd : csrDenied n (csrWritesOf i) s = none) (hr : csrLookup n s = some r) (hw : csrWritesOf i = true) :
      ExecEffect i s (advance 4 (setReg rd v (writeCsr (substituted s.priv r) w s)))
  | updated (size : Nat) (rd : RegIdx) (v : XWord) (m : Memory) (ord : List OrderEvent) (ops : List CacheEvent)
      (hm : memoryWf s.mem = true → memoryWf m = true) (hn : csrNumberOf i = none) :
      ExecEffect i s (advance size (setReg rd v { s with mem := m, ordering := ord, cacheOps := ops }))
  | closed (hi : i = .sfenceVma 0#5 0#5) :
      ExecEffect i s (advance 4 { s with windows := { s.windows with pbmteS := false, adueS := false } })
  | landingPad (elp : Elp) (hg : ¬ (s.priv = lpMode s.cfg ∧ lpeOn s = false)) (hn : csrNumberOf i = none) :
      ExecEffect i s (advance 4 { s with elp := elp })
  | shadowStack (size : Nat) (p : XWord) (m : Memory) (hm : memoryWf s.mem = true → memoryWf m = true)
      (hn : csrNumberOf i = none) : ExecEffect i s (advance size { s with ssp := trunc s.cfg p, mem := m })

theorem setReg_zero (v : XWord) (s : State) : setReg 0#5 v s = s := by simp [setReg]

theorem effect_illegal {i : Instr} {w : BitVec 32} {s t : State} (h : illegal w s = .next t) : ExecEffect i s t := by
  cases h; exact .raised _ _ (fits_instrInfo ..)

theorem effect_csr {i : Instr} {n : CsrNum} (hn : csrNumberOf i = some n) {s t : State} (h : exec i s = .next t) :
    ExecEffect i s t := by
  obtain ⟨reads, f, -, he⟩ := exec_csr hn s
  rw [he] at h
  cases hd : csrDenied n (csrWritesOf i) s with
  | some e => rw [csrAccess_denied hd] at h; cases h; exact .raised _ _ (fits_instrInfo ..)
  | none =>
    obtain ⟨r, hr⟩ := csrLookup_of_not_denied hd
    rw [csrAccess_ok hd hr] at h
    cases h
    cases hw : csrWritesOf i <;> cases reads <;> simp only [if_true, Bool.false_eq_true, if_false]
    · rw [← setReg_zero 0#64 s]; exact .csrRead _ _ hn hd hr
    · exact .csrRead _ _ hn hd hr
    · rw [← setReg_zero 0#64 (writeCsr _ _ _)]; exact .csrWritten _ _ _ hn hd hr hw
    · exact .csrWritten _ _ _ hn hd hr hw

theorem effect_atomic {i : Instr} (hn : csrNumberOf i = none) {n : Nat} {kind : AccessKind} {aq rl : Bool}
    {rs1 rd : RegIdx} {s t : State} (h : atomicAccess n kind aq rl rs1 rd s = .next t) : ExecEffect i s t := by
  cases ht : dataAccess kind n (getReg s rs1) s with
  | error e => rw [atomicAccess_error ht] at h; cases h; exact .raised _ _ (fits_getReg ..)
  | ok p =>
    obtain ⟨pa, s'⟩ := p
    rw [atomicAccess_ok ht] at h; cases h
    obtain ⟨m, rfl, hm⟩ := translate_ok (dataAccess_ok ht)
    exact .updated _ _ _ _ _ _ (fun h => memoryWf_atomicMemory (hm h) ..) hn

theorem effect_cbo {i : Instr} (hn : csrNumberOf i = none) {w : BitVec 32} {present : Bool} {d : Option Exception}
    {op : CacheOp} {rs1 : RegIdx} {s t : State} (h : cboGuarded w present d op rs1 s = .next t) :
    ExecEffect i s t := by
  unfold cboGuarded at h
  split at h
  · split at h
    · cases h; exact .raised _ _ (fits_instrInfo ..)
    · cases ht : translate .store (dataMode s) (getReg s rs1) s with
      | error e => rw [cboPerform_error ht] at h; cases h; exact .raised _ _ (fits_getReg ..)
      | ok p =>
        obtain ⟨pa, s'⟩ := p
        rw [cboPerform_ok ht] at h; cases h
        obtain ⟨m, rfl, hm⟩ := translate_ok ht
        rw [← setReg_zero 0#64 ({ s with mem := _, cacheOps := _ } : State)]
        exact .updated _ _ _ _ _ _ (fun h => memoryWf_blockEffect (hm h) ..) hn
  · exact effect_illegal h

theorem effect_advance {i : Instr} (hn : csrNumberOf i = none) (size : Nat) (rd : RegIdx) (v : XWord) (s : State) :
    ExecEffect i s (advance size (setReg rd v s)) := .updated size rd v s.mem s.ordering s.cacheOps id hn

theorem effect_advance' {i : Instr} (hn : csrNumberOf i = none) (size : Nat) (s : State) :
    ExecEffect i s (advance size s) := by
  have := effect_advance hn size 0#5 0#64 s
  rwa [setReg_zero] at this

theorem effect_behaviour {i : Instr} (hn : csrNumberOf i = none) (size : Nat) (s : State) :
    ExecEffect i s (shadowStackBehaviour size s) := by
  unfold shadowStackBehaviour
  split
  · exact .raised _ _ (fits_trunc ..)
  · exact .shadowStack _ _ _ (fun h => memoryWf_writeCells h _) hn

theorem effect_shadowStackOp {i : Instr} (hn : csrNumberOf i = none) {size : Nat} {s t : State}
    (h : shadowStackOp size s = .next t) : ExecEffect i s t := by
  unfold shadowStackOp at h
  split at h <;> cases h
  · exact effect_advance' hn size s
  · exact effect_behaviour hn size s
  · exact effect_behaviour hn size s

theorem effect_ssamoswap {i : Instr} (hn : csrNumberOf i = none) {w : BitVec 32} {n : Nat} {aq rl : Bool}
    {rs1 rd : RegIdx} {s t : State} (h : ssamoswap w n aq rl rs1 rd s = .next t) : ExecEffect i s t := by
  unfold ssamoswap at h
  split at h
  · cases h; exact .raised _ _ (fits_instrInfo ..)
  · exact effect_atomic hn h
  · exact effect_atomic hn h

/-- Everything exec can do. -/
theorem exec_effect {i : Instr} {s t : State} (h : exec i s = .next t) : ExecEffect i s t := by
  cases i
  case csrrw => exact effect_csr rfl h
  case csrrs => exact effect_csr rfl h
  case csrrc => exact effect_csr rfl h
  case csrrwi => exact effect_csr rfl h
  case csrrsi => exact effect_csr rfl h
  case csrrci => exact effect_csr rfl h
  case fence =>
    cases h
    rw [← setReg_zero 0#64 ({ s with ordering := _ } : State)]
    exact .updated 4 0#5 0#64 s.mem _ s.cacheOps id rfl
  case amoW => exact effect_atomic rfl h
  case amoD =>
    simp only [exec, execAmoD] at h
    split at h
    · exact effect_illegal h
    · exact effect_atomic rfl h
  case sfenceVma rs1 rs2 =>
    simp only [exec, execSfenceVma] at h
    split at h
    · rename_i h0; cases h; exact .closed (by rw [h0.1, h0.2])
    · cases h; exact effect_advance' rfl 4 s
  case cboInval =>
    simp only [exec, execCboInval] at h
    split at h
    · cases h
    · exact effect_cbo rfl h
  case cboClean => exact effect_cbo rfl h
  case cboFlush => exact effect_cbo rfl h
  case cboZero => exact effect_cbo rfl h
  case lpad =>
    simp only [exec, execLpad] at h
    split at h
    · cases h; exact effect_advance' rfl 4 s
    · rename_i hg
      cases h
      unfold landingPadBehaviour
      split
      · exact .raised _ _ (fits_trunc ..)
      · exact .landingPad _ (fun hh => hg (.inl hh)) rfl
  case ssamoswapW => exact effect_ssamoswap rfl h
  case ssamoswapD =>
    simp only [exec, execSsamoswapD] at h
    split at h
    · exact effect_illegal h
    · exact effect_ssamoswap rfl h
  case sspush => exact effect_shadowStackOp rfl h
  case sspopchk => exact effect_shadowStackOp rfl h
  case ssrdp =>
    simp only [exec, execSsrdp] at h
    split at h <;> cases h <;> exact effect_advance rfl ..
  case cSspush => exact effect_shadowStackOp rfl h
  case cSspopchk => exact effect_shadowStackOp rfl h

/-! ## The fetch, and everything step can do -/

/-- A fetch changes nothing but memory, by A and D bits. -/
theorem fetch_bytes {s s' : State} {bs : List Byte} (h : fetch s = .bytes bs s') :
    ∃ m, s' = { s with mem := m } ∧ (memoryWf s.mem = true → memoryWf m = true) := by
  unfold fetch at h
  split at h
  · cases h
  · split at h
    · cases h
    · rename_i pa s'' ht
      have := translate_ok ht
      split at h
      · cases h
      · split at h
        · split at h <;> cases h
          exact this
        · cases h; exact this

/-- A next state of an instruction that is no row of the table; only one form of HFENCE.GVMA changes a window. -/
inductive HartStep (i : HartInstr) (s : State) : State → Prop where
  | raised (e : Exception) (w : BitVec 32) : HartStep i s (raise e (instrInfo s.cfg w) s)
  | mret (h : s.priv = .m) : HartStep i s (trapReturnM s)
  | sret (h : s.cfg.sImplemented = true) : HartStep i s (trapReturnS s)
  | sretV (h : s.priv = .vs) : HartStep i s (trapReturnV s)
  | mop (size : Nat) (rd : RegIdx) : HartStep i s (advance size (setReg rd 0#64 s))
  | fenced (w : Windows) (h : w.pbmteS = s.windows.pbmteS ∧ w.adueS = s.windows.adueS)
      (hg : w ≠ s.windows → i = .hfenceGvma 0#5 0#5) : HartStep i s (advance 4 { s with windows := w })

theorem execHart_effect {i : HartInstr} {w : BitVec 32} {s t : State} (h : execHart i w s = .next t) :
    HartStep i s t := by
  cases i
  case mret =>
    simp only [execHart] at h
    split at h <;> cases h
    · rename_i hm; exact .mret hm
    · exact .raised _ w
  case sret =>
    simp only [execHart] at h
    split at h
    · rename_i hv; cases h; exact .sretV hv
    · split at h
      · cases h; exact .raised _ w
      · split at h <;> cases h
        · rename_i hm; exact .sret hm.1
        · exact .raised _ w
  case hfenceGvma rs1 rs2 =>
    simp only [execHart] at h
    split at h
    · cases h
      split
      · rename_i h0; exact .fenced _ ⟨rfl, rfl⟩ fun _ => by rw [h0.1, h0.2]
      · exact .fenced s.windows ⟨rfl, rfl⟩ fun hw => absurd rfl hw
    · cases h; exact .raised _ w
  case mopR => cases h; exact .mop ..
  case mopRr => cases h; exact .mop ..
  case cMop =>
    cases h
    rw [← setReg_zero 0#64 s]; exact .mop ..

/-- The state a step leaves, before the end of the step. -/
inductive StepEffect (s : State) : State → Prop where
  | interrupt (toS : Bool) (h : interruptTaken s = some toS) :
      StepEffect s (takeTrap toS true supervisorTimerCode (interruptInfo s) s)
  | fetchFault (e : Exception) : StepEffect s (raise e s.pc s)
  | ran {bs rest : List Byte} {i : Instr} {s' u : State} (hf : fetch s = .bytes bs s') (hd : decode bs = .ok (i, rest))
      (h : ExecEffect i s' u) : StepEffect s u
  | hart {bs : List Byte} {e : DecodeError} {i : HartInstr} {w : BitVec 32} {s' u : State}
      (hf : fetch s = .bytes bs s') (he : decode bs = .error e) (hd : decodeOther bs = some (i, w)) (h : HartStep i s' u) : StepEffect s u

/-- Everything step can do. -/
theorem step_effect {s t : State} (h : step s = .next t) :
    configLegal s.cfg = true ∧ ∃ u, t = tick u ∧ StepEffect s u := by
  unfold step at h
  split at h
  · rename_i hc
    refine ⟨hc, ?_⟩
    split at h
    · rename_i toS hi
      cases h; exact ⟨_, rfl, .interrupt toS hi⟩
    · cases hs : stepInstr s with
      | next u =>
        rw [hs] at h; cases h
        refine ⟨u, rfl, ?_⟩
        unfold stepInstr at hs
        split at hs
        · cases hs; exact .fetchFault _
        · cases hs
        · rename_i bs s' hf
          split at hs
          · rename_i i rest hd; exact .ran hf hd (exec_effect hs)
          · rename_i e he
            unfold execOther at hs
            split at hs
            · cases hs
            · rename_i hd; exact .hart hf he hd (execHart_effect hs)
      | fault r => rw [hs] at h; cases h
      | refused r => rw [hs] at h; cases h
  · cases h

end Sys2Proof.Machine
end

