-- ==== Sys2Proof/Laws/PerInstr.lean ====
section
/-! SUPPORT. A law of every instruction as syntax: R100, bits 1:0 of the word are 11 exactly where it is 32 bits long. -/

namespace Sys2Proof.Laws

/-- R100 for one instruction. -/
def LengthBits.Statement (i : Instr) : Prop := isWide (byteOf (encodeWord i) 0) = decide (i.size = 4)

/-- Bits 1:0 are the low bits of the opcode field. -/
theorem isWide_of_opcode (w : BitVec 32) : isWide (byteOf w 0) = ((w.extractLsb' 0 7).extractLsb' 0 2 == 3#2) := by
  rw [isWide_byteOf, extractLsb'_low2]

theorem LengthBits.csrrw (rd : RegIdx) (csr : CsrNum) (rs1 : RegIdx) :
    LengthBits.Statement (.csrrw rd csr rs1) := by
  rw [LengthBits.Statement, isWide_of_opcode, encodeWord, iType_op]; rfl

theorem LengthBits.csrrs (rd : RegIdx) (csr : CsrNum) (rs1 : RegIdx) :
    LengthBits.Statement (.csrrs rd csr rs1) := by
  rw [LengthBits.Statement, isWide_of_opcode, encodeWord, iType_op]; rfl

theorem LengthBits.csrrc (rd : RegIdx) (csr : CsrNum) (rs1 : RegIdx) :
    LengthBits.Statement (.csrrc rd csr rs1) := by
  rw [LengthBits.Statement, isWide_of_opcode, encodeWord, iType_op]; rfl

theorem LengthBits.csrrwi (rd : RegIdx) (csr : CsrNum) (uimm : RegIdx) :
    LengthBits.Statement (.csrrwi rd csr uimm) := by
  rw [LengthBits.Statement, isWide_of_opcode, encodeWord, iType_op]; rfl

theorem LengthBits.csrrsi (rd : RegIdx) (csr : CsrNum) (uimm : RegIdx) :
    LengthBits.Statement (.csrrsi rd csr uimm) := by
  rw [LengthBits.Statement, isWide_of_opcode, encodeWord, iType_op]; rfl

theorem LengthBits.csrrci (rd : RegIdx) (csr : CsrNum) (uimm : RegIdx) :
    LengthBits.Statement (.csrrci rd csr uimm) := by
  rw [LengthBits.Statement, isWide_of_opcode, encodeWord, iType_op]; rfl

theorem LengthBits.fence (fm : BitVec 4) (pred : AccessSet) (succ : AccessSet) (rs1 : RegIdx) (rd : RegIdx) :
    LengthBits.Statement (.fence fm pred succ rs1 rd) := by
  rw [LengthBits.Statement, isWide_of_opcode, encodeWord, iType_op]; rfl

theorem LengthBits.amoW (funct5 : BitVec 5) (aq : Bool) (rl : Bool) (rs2 : RegIdx) (rs1 : RegIdx) (rd : RegIdx) :
    LengthBits.Statement (.amoW funct5 aq rl rs2 rs1 rd) := by
  rw [LengthBits.Statement, isWide_of_opcode, encodeWord, rType_op]; rfl

theorem LengthBits.amoD (funct5 : BitVec 5) (aq : Bool) (rl : Bool) (rs2 : RegIdx) (rs1 : RegIdx) (rd : RegIdx) :
    LengthBits.Statement (.amoD funct5 aq rl rs2 rs1 rd) := by
  rw [LengthBits.Statement, isWide_of_opcode, encodeWord, rType_op]; rfl

theorem LengthBits.sfenceVma (rs1 : RegIdx) (rs2 : RegIdx) : LengthBits.Statement (.sfenceVma rs1 rs2) := by
  rw [LengthBits.Statement, isWide_of_opcode, encodeWord, rType_op]; rfl

theorem LengthBits.cboInval (rs1 : RegIdx) : LengthBits.Statement (.cboInval rs1) := by
  rw [LengthBits.Statement, isWide_of_opcode, encodeWord, iType_op]; rfl

theorem LengthBits.cboClean (rs1 : RegIdx) : LengthBits.Statement (.cboClean rs1) := by
  rw [LengthBits.Statement, isWide_of_opcode, encodeWord, iType_op]; rfl

theorem LengthBits.cboFlush (rs1 : RegIdx) : LengthBits.Statement (.cboFlush rs1) := by
  rw [LengthBits.Statement, isWide_of_opcode, encodeWord, iType_op]; rfl

theorem LengthBits.cboZero (rs1 : RegIdx) : LengthBits.Statement (.cboZero rs1) := by
  rw [LengthBits.Statement, isWide_of_opcode, encodeWord, iType_op]; rfl

theorem LengthBits.lpad (label : BitVec 20) : LengthBits.Statement (.lpad label) := by
  rw [LengthBits.Statement, isWide_of_opcode, encodeWord, uType_op]; rfl

theorem LengthBits.ssamoswapW (aq : Bool) (rl : Bool) (rs2 : RegIdx) (rs1 : RegIdx) (rd : RegIdx) :
    LengthBits.Statement (.ssamoswapW aq rl rs2 rs1 rd) := by
  rw [LengthBits.Statement, isWide_of_opcode, encodeWord, rType_op]; rfl

theorem LengthBits.ssamoswapD (aq : Bool) (rl : Bool) (rs2 : RegIdx) (rs1 : RegIdx) (rd : RegIdx) :
    LengthBits.Statement (.ssamoswapD aq rl rs2 rs1 rd) := by
  rw [LengthBits.Statement, isWide_of_opcode, encodeWord, rType_op]; rfl

theorem LengthBits.sspush (rs2 : RegIdx) : LengthBits.Statement (.sspush rs2) := by
  rw [LengthBits.Statement, isWide_of_opcode, encodeWord, rType_op]; rfl

theorem LengthBits.sspopchk (rs1 : RegIdx) : LengthBits.Statement (.sspopchk rs1) := by
  rw [LengthBits.Statement, isWide_of_opcode, encodeWord, iType_op]; rfl

theorem LengthBits.ssrdp (rd : RegIdx) : LengthBits.Statement (.ssrdp rd) := by
  rw [LengthBits.Statement, isWide_of_opcode, encodeWord, iType_op]; rfl

theorem LengthBits.cSspush : LengthBits.Statement .cSspush := rfl

theorem LengthBits.cSspopchk : LengthBits.Statement .cSspopchk := rfl

end Sys2Proof.Laws
end

