-- ==== Sys2Proof/Tests/Slice0.lean ====
section
/-! SUPPORT. The model's own tests. The words are written out from 30_encoding.md and opcode_table.json, and the expected
results are the vectors of 95_test_vectors.md (W, A, F, H, E, B, T, S) or are worked out by hand from the rule named. -/

namespace Sys2Proof.Tests

open Sys2Proof Sys2Proof.Machine

/-! ## States to test on -/

/-- The variants of 92_eei_decisions.md. -/
def baseF : HartConfig := { HartConfig.base with forceUpgradeCboInvalToFlush := true }

def base32 : HartConfig := { HartConfig.base with xlen := .rv32 }

def full : HartConfig :=
  { HartConfig.base with smcdeleg := true, ssdbltrp := true, zicfiss := true, zicfilp := true }

def minimal : HartConfig :=
  { HartConfig.base with
    svpbmt := false, svadu := false, sstc := false, zicboz := false, zicbom := false }

/-- FULL with the hypervisor extension. -/
def fullH : HartConfig := { full with hImplemented := true }

/-- A device I/O region at 0x1000 (R30). -/
def withDevice : HartConfig := { HartConfig.base with ioRegions := [⟨0x1000, 0x100⟩] }

/-- The state after reset of a configuration, in a mode and with a value of `menvcfg`. -/
def start (c : HartConfig) (mode : Mode) (v : BitVec 64) : State :=
  { State.resetOf c 0#64 with priv := mode, menvcfg := v }

/-- The next state of an outcome, if it is one. -/
def nextState : Host.Outcome State Fault Refusal → Option State
  | .next s => some s
  | .fault _ => none
  | .refused _ => none

/-- `o` is a next state that meets `p`. -/
def reaches (o : Host.Outcome State Fault Refusal) (p : State → Bool) : Bool := (nextState o).any p

theorem reaches_next {o : Host.Outcome State Fault Refusal} {p : State → Bool} (h : reaches o p = true) :
    ∃ t, o = .next t ∧ p t = true := by
  cases o with
  | next t => exact ⟨t, rfl, h⟩
  | fault r => cases h
  | refused r => cases h

/-- The hart took exception `code` to M-mode. -/
def trapped (code : XWord) (t : State) : Bool := t.mcause == code && t.priv == .m

/-- `t0` = x5 holds a value. -/
def t0 (v : XWord) (s : State) : State := setReg 5#5 v s

/-- A machine-mode state whose next fetch meets a word. -/
def fetching (c : HartConfig) (word : Nat) : State := (start c .m 0#64).withFetchWord 32 word

/-! ## WellFormed refuses -/

theorem test_wellFormed_amoW_with_ssamoswap_funct5 :
    (Instr.amoW 0b01001#5 false false 11#5 12#5 10#5).wellFormed = false := by decide

theorem test_wellFormed_amoD_with_ssamoswap_funct5 :
    (Instr.amoD 0b01001#5 true true 11#5 12#5 10#5).wellFormed = false := by decide

theorem test_wellFormed_sspush_of_no_link_register : (Instr.sspush 2#5).wellFormed = false := by decide

theorem test_wellFormed_sspopchk_of_no_link_register : (Instr.sspopchk 0#5).wellFormed = false := by decide

theorem test_wellFormed_ssrdp_into_x0 : (Instr.ssrdp 0#5).wellFormed = false := by decide

/-! ## Decoding, field by field (R101 to R108): the words are written high field first -/

theorem test_decode_csrrw_fields :
    decodeWord (0x30A#12 ++ 5#5 ++ 0b001#3 ++ 10#5 ++ 0b1110011#7) = .ok (.csrrw 10#5 0x30A#12 5#5) := by decide

theorem test_decode_fence_fields :
    decodeWord (0b0000#4 ++ 0b1000#4 ++ 0b0100#4 ++ 0#5 ++ 0b000#3 ++ 0#5 ++ 0b0001111#7)
      = .ok (.fence 0#4 ⟨true, false, false, false⟩ ⟨false, true, false, false⟩ 0#5 0#5) := by decide

theorem test_decode_amo_fields :
    decodeWord (0b00001#5 ++ 1#1 ++ 0#1 ++ 11#5 ++ 12#5 ++ 0b011#3 ++ 10#5 ++ 0b0101111#7)
      = .ok (.amoD 1#5 true false 11#5 12#5 10#5) := by decide

theorem test_decode_sfenceVma_fields :
    decodeWord (0b0001001#7 ++ 7#5 ++ 6#5 ++ 0b000#3 ++ 0#5 ++ 0b1110011#7) = .ok (.sfenceVma 6#5 7#5) := by decide

theorem test_decode_cboFlush_fields :
    decodeWord (0b000000000010#12 ++ 10#5 ++ 0b010#3 ++ 0#5 ++ 0b0001111#7) = .ok (.cboFlush 10#5) := by decide

theorem test_decode_lpad_fields :
    decodeWord (0x12345#20 ++ 0#5 ++ 0b0010111#7) = .ok (.lpad 0x12345#20) := by decide

/-! ## Decoding, one word of the spec for each constructor -/

theorem test_decode_csrrw : decodeTableWord 32 0x30A51573 = some (.csrrw 10#5 0x30A#12 10#5) := by decide
theorem test_decode_csrrs : decodeTableWord 32 0x30A2A573 = some (.csrrs 10#5 0x30A#12 5#5) := by decide
theorem test_decode_csrrc : decodeTableWord 32 0x30A2B573 = some (.csrrc 10#5 0x30A#12 5#5) := by decide
theorem test_decode_csrrwi : decodeTableWord 32 0x30A8D573 = some (.csrrwi 10#5 0x30A#12 0x11#5) := by decide
theorem test_decode_csrrsi : decodeTableWord 32 0x30A86573 = some (.csrrsi 10#5 0x30A#12 0x10#5) := by decide
theorem test_decode_csrrci : decodeTableWord 32 0x30A8F573 = some (.csrrci 10#5 0x30A#12 0x11#5) := by decide

theorem test_decode_fence : decodeTableWord 32 0x0330000F
    = some (.fence 0#4 ⟨false, false, true, true⟩ ⟨false, false, true, true⟩ 0#5 0#5) := by decide

theorem test_decode_amoW : decodeTableWord 32 0x0EB6252F = some (.amoW 1#5 true true 11#5 12#5 10#5) := by decide
theorem test_decode_amoD : decodeTableWord 32 0x00B6352F = some (.amoD 0#5 false false 11#5 12#5 10#5) := by decide
theorem test_decode_sfenceVma : decodeTableWord 32 0x12000073 = some (.sfenceVma 0#5 0#5) := by decide
theorem test_decode_cboInval : decodeTableWord 32 0x0005200F = some (.cboInval 10#5) := by decide
theorem test_decode_cboClean : decodeTableWord 32 0x0015200F = some (.cboClean 10#5) := by decide
theorem test_decode_cboFlush : decodeTableWord 32 0x0025200F = some (.cboFlush 10#5) := by decide
theorem test_decode_cboZero : decodeTableWord 32 0x0045200F = some (.cboZero 10#5) := by decide
theorem test_decode_lpad : decodeTableWord 32 0x00000017 = some (.lpad 0#20) := by decide

theorem test_decode_ssamoswapW :
    decodeTableWord 32 0x48B6252F = some (.ssamoswapW false false 11#5 12#5 10#5) := by decide

theorem test_decode_ssamoswapD :
    decodeTableWord 32 0x4800302F = some (.ssamoswapD false false 0#5 0#5 0#5) := by decide

theorem test_decode_sspush : decodeTableWord 32 0xCE504073 = some (.sspush 5#5) := by decide
theorem test_decode_sspopchk : decodeTableWord 32 0xCDC2C073 = some (.sspopchk 5#5) := by decide
theorem test_decode_ssrdp : decodeTableWord 32 0xCDC04573 = some (.ssrdp 10#5) := by decide
theorem test_decode_cSspush : decodeTableWord 16 0x6081 = some .cSspush := by decide
theorem test_decode_cSspopchk : decodeTableWord 16 0x6281 = some .cSspopchk := by decide

/-! ## Words of no row are refused by name -/

/-- AUIPC with `rd` = x1 is no LPAD (R107). -/
theorem test_decode_refuses_auipc : decodeWord 0x00000097#32 = .error .auipc := by decide

/-- Bits 31:20 = 3 select no cache-block operation (R106). -/
theorem test_decode_refuses_unknown_cbo : decodeWord 0x0035200F#32 = .error .unknownCbo := by decide

/-- MOP.R.28 with `rd` and `rs1` both x0 is no row (R108). -/
theorem test_decode_refuses_unlisted_mop : decodeWord 0xCDC04073#32 = .error .unknownMop := by decide

/-- MRET is SYSTEM with funct3 000 and no SFENCE.VMA (R102). -/
theorem test_decode_refuses_mret : decodeWord 0x30200073#32 = .error .unknownPrivileged := by decide

/-! ## The software-write function: W1, W7, W11, W16 -/

theorem test_swWrite_W1 : swWrite HartConfig.base 0#64 0xFFFFFFFFFFFFFFFF#64 = 0xE0000000000000F1#64 := by decide
theorem test_swWrite_W7 : swWrite HartConfig.base 0x30#64 0xA0000000000000A1#64 = 0xA0000000000000B1#64 := by decide
theorem test_swWrite_W11 : swWrite baseF 0x10#64 0xFFFFFFFFFFFFFFFF#64 = 0xE0000000000000D1#64 := by decide
theorem test_swWrite_W14 : swWrite full 0#64 0xFFFFFFFFFFFFFFFF#64 = 0xF8000000000000FD#64 := by decide
theorem test_swWrite_W16 : swWrite minimal 0#64 0xFFFFFFFFFFFFFFFF#64 = 0x1#64 := by decide

/-! ## The CSR instructions -/

/-- A3: a swap. -/
theorem test_csrrw_A3 :
    reaches (exec (.csrrw 10#5 0x30A#12 10#5) (setReg 10#5 0x81#64 (start HartConfig.base .m 0x41#64)))
      (fun t => getReg t 10#5 == 0x41#64 && t.menvcfg == 0x81#64 && t.pc == 4#64) = true := by decide

/-- H5: a write of the upper half keeps CBIE 3 in the lower. -/
theorem test_csrrw_H5 :
    reaches (exec (.csrrw 0#5 0x31A#12 5#5) (t0 0xE0000000#64 (start base32 .m 0x30#64)))
      (fun t => t.menvcfg == 0xE000000000000030#64) = true := by decide

/-- A6: setting bit 5 from CBIE 0 presents 2, refused. -/
theorem test_csrrs_A6 :
    reaches (exec (.csrrs 10#5 0x30A#12 5#5) (t0 0x20#64 (start HartConfig.base .m 0#64)))
      (fun t => getReg t 10#5 == 0#64 && t.menvcfg == 0#64) = true := by decide

/-- F1: below M an illegal instruction, with the word recorded. -/
theorem test_csrrs_F1 :
    reaches (exec (.csrrs 10#5 0x30A#12 0#5) (start HartConfig.base .s 0xF1#64))
      (fun t => trapped 2#64 t && t.menvcfg == 0xF1#64 && t.mtval == 0x30A02573#64 && t.mstatus.mpp == .s) = true := by
  decide

/-- A8: clearing bit 4 from CBIE 3 presents 2, refused. -/
theorem test_csrrc_A8 :
    reaches (exec (.csrrc 10#5 0x30A#12 5#5) (t0 0x10#64 (start HartConfig.base .m 0x30#64)))
      (fun t => getReg t 10#5 == 0x30#64 && t.menvcfg == 0x30#64) = true := by decide

/-- A9: CBIE 3 to 1. -/
theorem test_csrrc_A9 :
    reaches (exec (.csrrc 10#5 0x30A#12 5#5) (t0 0x20#64 (start HartConfig.base .m 0x30#64)))
      (fun t => t.menvcfg == 0x10#64) = true := by decide

/-- A11: the immediate is zero-extended. -/
theorem test_csrrwi_A11 :
    reaches (exec (.csrrwi 10#5 0x30A#12 0x11#5) (start HartConfig.base .m 0xE0000000000000F1#64))
      (fun t => getReg t 10#5 == 0xE0000000000000F1#64 && t.menvcfg == 0x11#64) = true := by decide

/-- H8: in `menvcfgh` the immediate reaches bits 36:32, which hold no field. -/
theorem test_csrrwi_H8 :
    reaches (exec (.csrrwi 0#5 0x31A#12 0x1F#5) (start base32 .m 0xE0000000000000F1#64))
      (fun t => t.menvcfg == 0xF1#64) = true := by decide

/-- A15 -/
theorem test_csrrsi_A15 :
    reaches (exec (.csrrsi 10#5 0x30A#12 0x10#5) (start HartConfig.base .m 0#64))
      (fun t => getReg t 10#5 == 0#64 && t.menvcfg == 0x10#64) = true := by decide

/-- A17: clearing bit 4 from CBIE 3, refused. -/
theorem test_csrrci_A17 :
    reaches (exec (.csrrci 0#5 0x30A#12 0x10#5) (start HartConfig.base .m 0x30#64))
      (fun t => t.menvcfg == 0x30#64) = true := by decide

/-- A19: FIOM cleared, CBIE kept. -/
theorem test_csrrci_A19 :
    reaches (exec (.csrrci 10#5 0x30A#12 0x11#5) (start HartConfig.base .m 0x31#64))
      (fun t => getReg t 10#5 == 0x31#64 && t.menvcfg == 0x30#64) = true := by decide

/-- F3: no `menvcfgh` with XLEN = 64. -/
theorem test_menvcfgh_absent_F3 :
    reaches (exec (.csrrs 10#5 0x31A#12 0#5) (start HartConfig.base .m 0#64)) (trapped 2#64) = true := by decide

/-- T2: no access to `stimecmp` in S-mode with STCE clear. -/
theorem test_stimecmp_T2 :
    reaches (exec (.csrrw 0#5 0x14D#12 5#5) (t0 7#64 (start HartConfig.base .s 0#64)))
      (fun t => trapped 2#64 t && t.stimecmp == 0#64) = true := by decide

/-- T3 and R181: with STCE set the access is made. -/
theorem test_stimecmp_T3 :
    reaches (exec (.csrrw 0#5 0x14D#12 5#5) (t0 7#64 (start HartConfig.base .s 0x8000000000000000#64)))
      (fun t => t.priv == .s && t.stimecmp == 7#64) = true := by decide

/-! ## FENCE, atomics, SFENCE.VMA -/

/-- E1: `fence i, o` orders as `fence ir, ow` below M with FIOM. -/
theorem test_fence_E1 :
    reaches (exec (.fence 0#4 ⟨true, false, false, false⟩ ⟨false, true, false, false⟩ 0#5 0#5)
        (start HartConfig.base .s 1#64))
      (fun t => t.ordering == [.fence 0#4 ⟨true, false, true, false⟩ ⟨false, true, false, true⟩]) = true := by decide

/-- E8: M-mode is not governed. -/
theorem test_fence_E8 :
    reaches (exec (.fence 0#4 ⟨true, false, false, false⟩ ⟨false, true, false, false⟩ 0#5 0#5)
        (start HartConfig.base .m 1#64))
      (fun t => t.ordering == [.fence 0#4 ⟨true, false, false, false⟩ ⟨false, true, false, false⟩]) = true := by decide

/-- E10: both kinds, for a device I/O region with aq and rl below M with FIOM. -/
theorem test_amoW_E10 :
    reaches (exec (.amoW 1#5 true true 11#5 12#5 10#5) (setReg 12#5 0x1000#64 (start withDevice .s 1#64)))
      (fun t => t.ordering == [.atomic true true ⟨true, true⟩]) = true := by decide

/-- E12: neither aq nor rl, unchanged. -/
theorem test_amoW_E12 :
    reaches (exec (.amoW 0#5 false false 11#5 12#5 10#5) (setReg 12#5 0x1000#64 (start withDevice .s 1#64)))
      (fun t => t.ordering == [.atomic false false ⟨true, false⟩]) = true := by decide

/-- E11 on the doubleword form: a main memory region, unchanged; the address is just past the device region. -/
theorem test_amoD_E11 :
    reaches (exec (.amoD 1#5 true true 11#5 12#5 10#5) (setReg 12#5 0x1100#64 (start withDevice .s 1#64)))
      (fun t => t.ordering == [.atomic true true ⟨false, true⟩]) = true := by decide

/-- P4, R160: the form with both register numbers 0 closes the windows. -/
theorem test_sfenceVma_closes :
    reaches (exec (.sfenceVma 0#5 0#5)
        { start HartConfig.base .m 0#64 with windows := ⟨true, true, true, true⟩ })
      (fun t => t.windows == ⟨false, true, false, true⟩) = true := by decide

/-- R160: x5 holding 0 is not the register number 0. -/
theorem test_sfenceVma_with_a_register_closes_nothing :
    reaches (exec (.sfenceVma 5#5 0#5)
        { start HartConfig.base .m 0#64 with windows := ⟨true, true, true, true⟩ })
      (fun t => t.windows == ⟨true, true, true, true⟩) = true := by decide

/-! ## Cache-block instructions -/

/-- B1 -/
theorem test_cboZero_B1 :
    reaches (exec (.cboZero 10#5) (start HartConfig.base .s 0#64)) (trapped 2#64) = true := by decide

/-- B2, with the block of 0x7F at 0x40 (log 14) and zeros in it (log 13). -/
theorem test_cboZero_B2 :
    reaches (exec (.cboZero 10#5) (setReg 10#5 0x7F#64 (start HartConfig.base .s 0x80#64)))
      (fun t => t.cacheOps == [⟨.zero, 0x40#64⟩] && readByte t.mem 0x40 == some 0#8 && readByte t.mem 0x7F == some 0#8
        && readByte t.mem 0x80 == none) = true := by decide

/-- B3: CBZE does not enable CBO.CLEAN. -/
theorem test_cboClean_B3 :
    reaches (exec (.cboClean 10#5) (start HartConfig.base .s 0x80#64)) (trapped 2#64) = true := by decide

/-- B4 -/
theorem test_cboClean_B4 :
    reaches (exec (.cboClean 10#5) (start HartConfig.base .s 0x40#64))
      (fun t => t.cacheOps == [⟨.clean, 0#64⟩]) = true := by decide

/-- B5: the same bit. -/
theorem test_cboFlush_B5 :
    reaches (exec (.cboFlush 10#5) (start HartConfig.base .s 0x40#64))
      (fun t => t.cacheOps == [⟨.flush, 0#64⟩]) = true := by decide

/-- B6 -/
theorem test_cboFlush_B6 :
    reaches (exec (.cboFlush 10#5) (start HartConfig.base .u 0#64)) (trapped 2#64) = true := by decide

/-- B8: CBIE = 1 is a flush. -/
theorem test_cboInval_B8 :
    reaches (exec (.cboInval 10#5) (start HartConfig.base .s 0x10#64))
      (fun t => t.cacheOps == [⟨.flush, 0#64⟩]) = true := by decide

/-- B9: CBIE = 3 is an invalidate. -/
theorem test_cboInval_B9 :
    reaches (exec (.cboInval 10#5) (start HartConfig.base .s 0x30#64))
      (fun t => t.cacheOps == [⟨.inval, 0#64⟩]) = true := by decide

/-! ## Landing pads and shadow stacks, on FULL -/

/-- S9: no label check. -/
theorem test_lpad_S9 :
    reaches (exec (.lpad 0x12345#20) (start full .s 0#64))
      (fun t => t.pc == 4#64 && t.elp == .noLpExpected && t.priv == .s) = true := by decide

/-- S1 -/
theorem test_ssamoswapW_S1 :
    reaches (exec (.ssamoswapW false false 11#5 12#5 10#5) (start full .s 0#64))
      (fun t => trapped 2#64 t && t.ordering == []) = true := by decide

/-- An access to ssp in VS-mode with SSE = 1 that `henvcfg` withholds (log 69), and with SSE = 0. -/
theorem test_ssp_denied_in_vs :
    reaches (exec (.csrrs 5#5 0x011#12 0#5) (start fullH .vs 8#64)) (trapped 22#64) = true ∧
    reaches (exec (.csrrs 5#5 0x011#12 0#5) (start fullH .vs 0#64)) (trapped 2#64) = true := by decide

/-- LPE of `senvcfg` is stored on a hart with Zicfilp (log 70). -/
theorem test_senvcfg_lpe :
    readCsr .senvcfg (writeCsr .senvcfg 4#64 (start full .m 0#64)) = 4#64 ∧
    readCsr .senvcfg (writeCsr .senvcfg 4#64 (start HartConfig.base .m 0#64)) = 0#64 := by decide

/-- SRET on a hart with S-mode and without U-mode leaves SPP at S-mode (R240), and the hart runs (log 38). -/
theorem test_sret_without_u :
    let c := { HartConfig.base with uImplemented := false }
    configLegal c = true ∧
    reaches (execHart .sret 0x10200073#32 (start c .s 0#64)) (fun t => t.mstatus.spp == .s) = true := by decide

/-- S2, with the base word recorded. -/
theorem test_ssamoswapD_S2 :
    reaches (exec (.ssamoswapD false false 0#5 0#5 0#5) (start full .u 0#64))
      (fun t => trapped 2#64 t && t.mtval == 0x4800302F#64) = true := by decide

/-- S3: `a0 <- 0`. -/
theorem test_ssrdp_S3 :
    reaches (exec (.ssrdp 10#5) (setReg 10#5 9#64 { start full .s 0#64 with ssp := 8#64 }))
      (fun t => getReg t 10#5 == 0#64 && t.pc == 4#64) = true := by decide

/-- R213: with SSE = 1 SSRDP reads the shadow stack pointer. -/
theorem test_ssrdp_active :
    reaches (exec (.ssrdp 10#5) { start full .s 8#64 with ssp := 0x40#64 }) (fun t => getReg t 10#5 == 0x40#64)
      = true := by decide

/-- S4 -/
theorem test_sspush_S4 :
    reaches (exec (.sspush 1#5) { start full .s 0#64 with ssp := 8#64 })
      (fun t => t.pc == 4#64 && t.ssp == 8#64 && t.mem == []) = true := by decide

/-- S5 -/
theorem test_sspopchk_S5 :
    reaches (exec (.sspopchk 5#5) { start full .s 0#64 with ssp := 8#64 })
      (fun t => t.pc == 4#64 && t.ssp == 8#64 && t.priv == .s) = true := by decide

/-- S6 -/
theorem test_cSspush_S6 : reaches (exec .cSspush (start full .s 0#64)) (fun t => t.pc == 2#64) = true := by decide

/-- S7 -/
theorem test_cSspopchk_S7 : reaches (exec .cSspopchk (start full .u 0#64)) (fun t => t.pc == 2#64) = true := by decide

/-! ## Steps, traps and returns -/

/-- R239, R242: a delegated illegal instruction goes to S-mode. -/
theorem test_delegated_trap :
    reaches (exec (.cboZero 10#5) { start HartConfig.base .u 0#64 with medeleg := 4#64, stvec := 0x101#64, pc := 8#64 })
      (fun t => t.priv == .s && t.scause == 2#64 && t.sepc == 8#64 && t.pc == 0x100#64 && t.mstatus.spp == .u)
      = true := by decide

/-- R240: MRET enters the mode in MPP. -/
theorem test_mret :
    reaches (step { fetching HartConfig.base 0x30200073 with
        mepc := 0x80#64
        mstatus := { mie := false, mpie := true, mpp := .s, mprv := false,
                     sie := false, spie := false, spp := .u, sdt := false } })
      (fun t => t.priv == .s && t.pc == 0x80#64 && t.mstatus.mie && t.mstatus.mpp == .u) = true := by decide

/-- R240: SRET returns from S-mode, where HS and S are one. -/
theorem test_sret :
    reaches (execHart .sret 0x10200073#32 { start HartConfig.base .s 0#64 with sepc := 0x80#64 })
      (fun t => t.priv == .u && t.pc == 0x80#64 && t.mstatus.spie) = true := by decide

/-- R161: HFENCE.GVMA closes the G-stage windows only. -/
theorem test_hfenceGvma :
    reaches (execHart (.hfenceGvma 0#5 0#5) 0x62000073#32
        { start fullH .m 0#64 with windows := ⟨true, true, true, true⟩ })
      (fun t => t.windows == ⟨true, false, true, false⟩) = true := by decide

/-- R240 with the virtual supervisor's registers free: SRET in VS-mode goes on in a virtualised mode. -/
theorem test_sret_in_vs :
    (nextState (execHart .sret 0x10200073#32 (start fullH .vs 0#64))).any (fun t => t.mepc == 0#64 && t.mcause == 0#64)
      = true := by decide

/-- SRET in VU-mode is a virtual instruction (log 33). -/
theorem test_sret_in_vu :
    reaches (execHart .sret 0x10200073#32 (start fullH .vu 0#64)) (trapped 22#64) = true := by decide

/-- R215: the words of MOP.R.28 and MOP.RR.7 (R108) with other operands, and C.MOP.3. -/
theorem test_decodeOther_mops :
    decodeHart 0xCDC04073#32 = some (.mopR 28#5 0#5 0#5) ∧ decodeHart 0xCE3100F3#32 = none ∧
    decodeHart 0xCE3140F3#32 = some (.mopRr 7#3 3#5 2#5 1#5) ∧ decodeHartHalfword 0x6181#16 = some (.cMop 1#3) := by
  decide

/-- R215: MOP.R.0 writes 0 to `a0`. -/
theorem test_mopR :
    reaches (step (setReg 10#5 9#64 (fetching HartConfig.base 0x81C04573)))
      (fun t => getReg t 10#5 == 0#64 && t.pc == 4#64) = true := by decide

/-- R84: a policy that stops a misaligned word atomic, with the address recorded. -/
theorem test_misaligned_amoW :
    reaches (exec (.amoW 0#5 false false 11#5 12#5 10#5)
        (setReg 12#5 0x1002#64 (start { HartConfig.base with misaligned := .addressMisaligned } .m 0#64)))
      (fun t => trapped 6#64 t && t.mtval == 0x1002#64 && t.mem == []) = true := by decide

/-- R247: `instret` from U-mode. -/
theorem test_counter_instret :
    reaches (exec (.csrrs 10#5 0xC02#12 0#5)
        { start HartConfig.base .u 0#64 with counters := ⟨1#64, 2#64, Vector.replicate 29 3#64⟩ })
      (fun t => getReg t 10#5 == 2#64) = true := by decide

/-- A write of a read-only number is an illegal instruction (log 55). -/
theorem test_counter_write :
    reaches (exec (.csrrw 0#5 0xC00#12 5#5) (start HartConfig.base .m 0#64)) (trapped 2#64) = true := by decide

/-- R93: without coherent fetch a kept C.SSPUSH runs where memory holds C.SSPOPCHK. -/
theorem test_stale_fetch :
    fetchMemory { start { full with fetchCoherent := false } .s 0#64 with
                  mem := [(0, 0x81#8), (1, 0x62#8)], fetchCache := [(1, 0x60#8)] } = [(0, 0x81#8), (1, 0x60#8)] := by
  decide

/-- R236, R239: the supervisor timer interrupt in vectored mode. -/
theorem test_timer_interrupt :
    reaches (step { start HartConfig.base .u 0x8000000000000000#64 with
        mieStie := true, midelegSti := true, stvec := 0x101#64, stimecmp := 5#64, time := 5#64, pc := 8#64 })
      (fun t => t.priv == .s && t.scause == 0x8000000000000005#64 && t.pc == 0x114#64 && t.sepc == 8#64) = true := by
  decide

/-- A configuration that R16 does not allow is refused. -/
theorem test_illegal_configuration_is_refused :
    (nextState (step (start { HartConfig.base with fiomReadOnlyZero := true } .m 0#64))).isNone = true := by decide

/-! ## Witnesses: concrete states and operands that meet the hypotheses of each statement, each clause at a boundary -/

theorem witness_DecodeOfEncodeIsTheInstruction :
    (Instr.sspopchk 5#5).wellFormed = true ∧ (Instr.amoD 0b01000#5 true true 31#5 0#5 31#5).wellFormed = true := by
  decide

theorem witness_EncodeOfDecodeIsTheBytes :
    decode [0x81#8, 0x60#8, 0xFF#8] = .ok (.cSspush, [0xFF#8]) ∧
    decode [0x73#8, 0x40#8, 0x10#8, 0xCE#8] = .ok (.sspush 1#5, []) := by decide

/-- A row of the table; MOP.R.0, a word of Zimop; an odd `pc` where misaligned fetches are stopped. -/
theorem witness_StepRunsTheDecodedInstruction :
    let s := fetching HartConfig.base 0x0330000F
    let m := fetching HartConfig.base 0x81C04573
    let c := { HartConfig.base with misaligned := .addressMisaligned }
    (configLegal s.cfg = true ∧ interruptTaken s = none ∧
      fetch s = .bytes [0x0F#8, 0x00#8, 0x30#8, 0x03#8] s ∧
      decode [0x0F#8, 0x00#8, 0x30#8, 0x03#8]
        = .ok (.fence 0#4 ⟨false, false, true, true⟩ ⟨false, false, true, true⟩ 0#5 0#5, [])) ∧
    (fetch m = .bytes [0x73#8, 0x45#8, 0xC0#8, 0x81#8] m ∧ interruptTaken m = none ∧
      decode [0x73#8, 0x45#8, 0xC0#8, 0x81#8] = .error .unknownMop ∧
      decodeOther [0x73#8, 0x45#8, 0xC0#8, 0x81#8] = some (.mopR 0#5 0#5 10#5, 0x81C04573#32)) ∧
    (configLegal c = true ∧ misalignedFault c .fetch 2 1#64 = some .instrAddressMisaligned) ∧
    (misalignedFault s.cfg .fetch 2 s.pc = none ∧ translate .fetch .m 0#64 State.reset = .ok (0#64, State.reset) ∧
      readBytes (fetchMemory State.reset) 0#64 2 = none) :=
  ⟨⟨by decide, by decide, rfl, by decide⟩, ⟨rfl, by decide, by decide, by decide⟩, by decide, by decide, rfl, rfl⟩

/-- At the last halfword of the address space; on a hart without coherent fetch, from bytes it has kept. -/
theorem witness_StepRunsTheInstructionAtPc :
    let s : State := { start full .s 0#64 with mem := [(0xFFFFFFFFFFFFFFFE, 0x81#8), (0xFFFFFFFFFFFFFFFF, 0x60#8)],
                                               pc := 0xFFFFFFFFFFFFFFFE#64 }
    let k : State := { start { full with fetchCoherent := false } .s 0#64 with
                       mem := [(0, 0x81#8), (1, 0x62#8)], fetchCache := [(1, 0x60#8)] }
    (configLegal s.cfg = true ∧ interruptTaken s = none ∧ translationOn s.priv s = false ∧
      misalignedFault s.cfg .fetch 2 s.pc = none ∧ Instr.cSspush.wellFormed = true ∧
      readBytes (fetchMemory s) s.pc Instr.cSspush.size = some (encode .cSspush) ∧ s.cfg.fetchCoherent = true) ∧
    (configLegal k.cfg = true ∧ readBytes (fetchMemory k) k.pc Instr.cSspush.size = some (encode .cSspush) ∧
      memoryWf k.fetchCache = true ∧ reaches (step k) (fun t => t.pc == 2#64) = true) := by decide

theorem witness_ResetRegisterIsAnyLegalValue :
    fieldsDistinct full = true ∧ fieldsDistinct baseF = true ∧ registerInvariants full 0xF8000000000000FD#64 ∧
    registerInvariants baseF 0x10#64 ∧ ¬ registerInvariants baseF 0x30#64 :=
  ⟨by decide, by decide, ⟨by decide, by decide, by decide⟩, ⟨by decide, by decide, by decide⟩,
    fun h => h.2.2 (by decide) (by decide)⟩

/-- On a hart with S-mode and without U-mode. -/
theorem witness_ResetMeetsTheInvariant :
    invariant (State.resetOf { HartConfig.base with uImplemented := false } 0#64) = true := by decide

theorem witness_BitsOutsideWmaskStayZero :
    (wmask HartConfig.base).getLsbD 1 = false ∧ (wmask HartConfig.base).getLsbD 60 = false ∧
    menvcfgLegal (start HartConfig.base .s 0xE0000000000000F1#64) = true := by decide

theorem witness_CbieOnAWriteCaseByCase :
    baseF.zicbom = true ∧ (0x10#64).extractLsb' 4 2 = 1#2 ∧ (0xA0#64).extractLsb' 4 2 = 2#2 ∧
    (0x30#64).extractLsb' 4 2 = 3#2 ∧ (start baseF .m 0x10#64).priv = .m ∧ baseF.uImplemented = true := by decide

theorem witness_SwWriteLaws :
    fieldsDistinct full = true ∧ legalValue full 0xF8000000000000FD#64 = true ∧ legalValue full 0#64 = true := by decide

theorem witness_RegisterFormsAccessMenvcfg :
    (menvcfghNumberLegal base32.csrMenvcfgh = true ∧ (start base32 .m 0x30#64).priv = .m ∧ base32.uImplemented = true) ∧
    namesMenvcfg base32 0x31A#12 ∧ namesMenvcfg HartConfig.base 0x30A#12 :=
  ⟨by decide, .inr ⟨by decide, by decide⟩, .inl rfl⟩

theorem witness_ImmediateFormsAccessMenvcfg :
    (menvcfghNumberLegal HartConfig.base.csrMenvcfgh = true ∧ (start HartConfig.base .m 0#64).priv = .m
      ∧ HartConfig.base.uImplemented = true) ∧ namesMenvcfg HartConfig.base 0x30A#12 :=
  ⟨by decide, .inl rfl⟩

theorem witness_MenvcfghReachesTheUpperHalf :
    let s := start base32 .m 0xE0000000000000F1#64
    s.priv = .m ∧ s.cfg.uImplemented = true ∧ s.cfg.xlen = .rv32 ∧
    menvcfghNumberLegal s.cfg.csrMenvcfgh = true ∧ fieldsDistinct s.cfg = true ∧ menvcfgLegal s = true := by decide

theorem witness_MenvcfgBelowMIsIllegal :
    csrNumberOf (.csrrsi 0#5 0x30A#12 0#5) = some 0x30A#12 ∧ (start HartConfig.base .u 0#64).priv ≠ .m ∧
    csrNumberOf (.csrrc 0#5 0x31A#12 0#5) = some base32.csrMenvcfgh ∧ (start base32 .vs 0#64).priv ≠ .m := by decide

/-- Each of the four cases, in M-mode. -/
theorem witness_AbsentCsrIsIllegal :
    let noU := { HartConfig.base with
                 uImplemented := false, sImplemented := false, svpbmt := false, svadu := false, sstc := false }
    (menvcfghNumberLegal HartConfig.base.csrMenvcfgh = true ∧ csrLookup 0x7FF#12 (start HartConfig.base .m 0#64) = none) ∧
    (menvcfghNumberLegal noU.csrMenvcfgh = true ∧ noU.uImplemented = false) ∧
    (HartConfig.base.xlen = .rv64 ∧ HartConfig.base.csrMenvcfgh = 0x31A#12) ∧
    (menvcfghNumberLegal minimal.csrMenvcfgh = true ∧ minimal.sstc = false ∧ csrNumberOf (.csrrw 0#5 0x14D#12 0#5) = some 0x14D#12) := by
  decide

/-- `mstatus` from S-mode, and a write of `time`, a read-only number, from M-mode. -/
theorem witness_CsrRightsAreEnforced :
    (csrNumberOf (.csrrs 1#5 0x300#12 0#5) = some 0x300#12 ∧ (start HartConfig.base .s 0#64).priv.virt = false ∧
      modeLevel HartConfig.base .s < ((0x300#12).extractLsb' 8 2).toNat) ∧
    (csrWritesOf (.csrrsi 1#5 0xC01#12 1#5) = true ∧ (0xC01#12).extractLsb' 10 2 = 3#2) := by decide

/-- A write and a read. And `hpmcounter31` from U-mode, and `cycleh` from VU-mode with XLEN = 32. -/
theorem witness_CsrInstructionsComplete :
    (csrDenied 0x105#12 (csrWritesOf (.csrrw 1#5 0x105#12 2#5)) (start HartConfig.base .s 0#64) = none ∧
      csrWritesOf (.csrrw 1#5 0x105#12 2#5) = true) ∧
    csrDenied 0xC01#12 (csrWritesOf (.csrrs 1#5 0xC01#12 0#5)) (start HartConfig.base .m 0#64) = none ∧
    csrWritesOf (.csrrci 1#5 0xC01#12 0#5) = false ∧
    (menvcfghNumberLegal HartConfig.base.csrMenvcfgh = true ∧ csrWritesOf (.csrrs 1#5 0xC1F#12 0#5) = false ∧
      csrNumberOf (.csrrs 1#5 0xC1F#12 0#5) = some (0b1100000#7 ++ 31#5) ∧
      csrDenied 0xC1F#12 false (start HartConfig.base .u 0#64) = none) ∧
    (menvcfghNumberLegal base32.csrMenvcfgh = true ∧ csrNumberOf (.csrrsi 1#5 0xC80#12 0#5) = some (0b1100100#7 ++ 0#5) ∧
      csrDenied 0xC80#12 false (start base32 .vu 0#64) = none) := by decide

theorem witness_CsrWriteChangesOnlyTheNamedRegister :
    csrDenied 0x30A#12 true (start HartConfig.base .m 0#64) = none ∧
    ∃ t, exec (.csrrwi 0#5 0x30A#12 1#5) (start HartConfig.base .m 0#64) = .next t :=
  ⟨by decide, _, rfl⟩

theorem witness_SmcdelegCsrsExistOnlyWithCde :
    let c := { full with smcdelegCsrs := [0x150#12] }
    csrNamed 0x150#12 c = none ∧ 0x150#12 ∈ c.smcdelegCsrs ∧ c.smcdeleg = true ∧ c.uImplemented = true ∧
    (start c .s 0#64).menvcfg.getLsbD c.posCde.val = false ∧
    (start c .m 0x1000000000000000#64).menvcfg.getLsbD c.posCde.val = true ∧
    csrNumberOf (.csrrs 1#5 0x150#12 0#5) = some 0x150#12 ∧ csrWritesOf (.csrrs 1#5 0x150#12 0#5) = false ∧
    { c with uImplemented := false }.uImplemented = false := by decide

theorem witness_StimecmpBelowMWithStceClearIsIllegal :
    (menvcfghNumberLegal base32.csrMenvcfgh = true ∧ csrNumberOf (.csrrw 1#5 0x15D#12 2#5) = some 0x15D#12 ∧ base32.xlen = .rv32) ∧
    ((start base32 .s 0#64).priv ≠ .m ∧ stceOn (start base32 .s 0#64) = false) ∧
    ((start base32 .m 0#64).priv = .m ∧ base32.sstc = true) ∧
    csrNumberOf (.csrrsi 1#5 0x14D#12 0#5) = some 0x14D#12 := by decide

theorem witness_StimecmpIsReadAndWritten :
    menvcfghNumberLegal base32.csrMenvcfgh = true ∧ base32.sstc = true ∧ base32.xlen = .rv32 ∧
    (start base32 .m 0#64).priv = .m ∧
    (start base32 .s 0x8000000000000000#64).priv = .s ∧ stceOn (start base32 .s 0x8000000000000000#64) = true := by
  decide

/-- STCE on, with `time = stimecmp`, and off. -/
theorem witness_TimerPendingBitInMip :
    menvcfghNumberLegal HartConfig.base.csrMenvcfgh = true ∧ HartConfig.base.sImplemented = true ∧
    stceOn (start HartConfig.base .m 0x8000000000000000#64) = true ∧
    stceOn (start HartConfig.base .m 0#64) = false ∧ (start HartConfig.base .m 0#64).priv = .m ∧
    (start HartConfig.base .s 0#64).priv = .s := by decide

/-- All four fields off, and on, on a hart that has all four, with XLEN = 64 and 32. -/
theorem witness_CoupledFieldsReadZeroAndIgnoreWrites :
    let off := start fullH .m 0#64
    let on := start { fullH with xlen := .rv32 } .m 0x6800000000000008#64
    (svpbmtAvailable off = false ∧ adueActive off = false ∧ sseOn off = false ∧ dteOn off = false) ∧
    (svpbmtAvailable on = true ∧ adueActive on = true ∧ sseOn on = true ∧ dteOn on = true) ∧
    fullH.xlen = .rv64 ∧ on.cfg.xlen = .rv32 ∧ on.cfg.sImplemented = true ∧
    fullH.zicfilp = true ∧ fullH.zicbom = true ∧ fullH.zicboz = true ∧ fullH.forceUpgradeCboInvalToFlush = false ∧
    (0x30#64).extractLsb' 4 2 = 3#2 ∧ (0x20#64).extractLsb' 4 2 = 2#2 := by decide

/-- Through 0x30A, and with XLEN = 32 by CSRRSI through `menvcfgh`, which without a write opens nothing. -/
theorem witness_MenvcfgWriteOpensWindows :
    let s := setReg 5#5 0x6000000000000000#64 (start fullH .m 0#64)
    let h := t0 0x60000000#64 (start base32 .m 0#64)
    (menvcfghNumberLegal s.cfg.csrMenvcfgh = true ∧ s.priv = .m ∧ s.cfg.uImplemented = true ∧
      csrNumberOf (.csrrw 0#5 0x30A#12 5#5) = some 0x30A#12 ∧
      reaches (exec (.csrrw 0#5 0x30A#12 5#5) s) (fun t => t.windows == ⟨true, true, true, true⟩) = true) ∧
    (menvcfghNumberLegal h.cfg.csrMenvcfgh = true ∧ h.cfg.xlen = .rv32 ∧
      csrNumberOf (.csrrs 0#5 0x31A#12 5#5) = some h.cfg.csrMenvcfgh ∧
      reaches (exec (.csrrs 0#5 0x31A#12 5#5) h) (fun t => t.windows == ⟨true, false, true, false⟩) = true) ∧
    csrWritesOf (.csrrsi 0#5 0x31A#12 0#5) = false := by decide

theorem witness_HfenceGvmaClosesTheGStageWindows :
    fullH.hImplemented = true ∧ HartConfig.base.hImplemented = false := by decide

theorem witness_PlainCsrsReadBack :
    CsrReg.medeleg ∈ [CsrReg.medeleg, .hgatp, .mcause, .mtval, .scause, .stval, .ssp] ∧
    CsrReg.satp ∈ [CsrReg.medeleg, .hgatp, .mcause, .mtval, .scause, .stval, .ssp, .mepc, .sepc, .mtvec, .stvec, .satp]
    := by decide

/-- In M-mode and S-mode, with `satp.MODE` writable and read-only zero. -/
theorem witness_StatusAndTrapCsrsStoreTheirFields :
    let z := { HartConfig.base with satpModeReadOnlyZero := true }
    menvcfghNumberLegal HartConfig.base.csrMenvcfgh = true ∧ HartConfig.base.sImplemented = true ∧
    (start HartConfig.base .m 0#64).priv = .m ∧ (start HartConfig.base .s 0#64).priv = .s ∧
    HartConfig.base.satpModeReadOnlyZero = false ∧ menvcfghNumberLegal z.csrMenvcfgh = true ∧
    z.satpModeReadOnlyZero = true := by decide

/-- The two steps that close a window. -/
theorem witness_OnlyTheFullFenceClosesAWindow :
    (let s := { fetching HartConfig.base 0x12000073 with windows := ⟨true, true, true, true⟩ }
     ∃ t, step s = .next t ∧ s.windows.pbmteS = true ∧ t.windows.pbmteS = false) ∧
    (let s := { fetching fullH 0x62000073 with windows := ⟨true, true, true, true⟩ }
     ∃ t, step s = .next t ∧ s.windows.adueG = true ∧ t.windows.adueG = false) := by
  constructor
  · obtain ⟨t, h, ht⟩ := reaches_next (p := fun t => t.windows.pbmteS == false)
      (o := step { fetching HartConfig.base 0x12000073 with windows := ⟨true, true, true, true⟩ }) (by decide)
    exact ⟨t, h, rfl, by simpa using ht⟩
  · obtain ⟨t, h, ht⟩ := reaches_next (p := fun t => t.windows.adueG == false)
      (o := step { fetching fullH 0x62000073 with windows := ⟨true, true, true, true⟩ }) (by decide)
    exact ⟨t, h, rfl, by simpa using ht⟩

/-- M-mode with XLEN = 32, and a doubleword in U-mode. -/
theorem witness_AtomicsAreOrderedByFiom :
    let m := start base32 .m 0#64
    let u := start withDevice .u 1#64
    (m.cfg.xlen = .rv32 ∧ dataAccess (atomicKind 0b00010#5) 4 (getReg m 12#5) m = .ok (0#64, m)) ∧
    (u.cfg.xlen = .rv64 ∧ dataAccess (atomicKind 1#5) 8 (getReg u 12#5) u = .ok (0#64, u)) :=
  ⟨⟨rfl, rfl⟩, rfl, rfl⟩

/-- `satp.MODE` Bare with every other bit set, with XLEN = 64 and 32. -/
theorem witness_TranslationChangesOnlyMemory :
    let s := { start HartConfig.base .u 0#64 with satp := 0x0FFFFFFFFFFFFFFF#64 }
    let h := { start base32 .s 0#64 with satp := 0x7FFFFFFF#64 }
    (s.cfg.xlen = .rv64 ∧ s.satp.extractLsb' 60 4 = 0#4 ∧ s.priv = .u ∧
      translate .store s.priv 8#64 s = .ok (8#64, s) ∧ memoryWf s.mem = true) ∧
    (h.cfg.xlen = .rv32 ∧ h.satp.getLsbD 31 = false ∧ h.priv = .s) :=
  ⟨⟨rfl, by decide, rfl, rfl, rfl⟩, rfl, by decide, rfl⟩

/-- Modes that translate, at the lowest MODE bit with XLEN = 64 and with XLEN = 32; and whatever the walk, its PTEs pass or
one is rejected. -/
theorem witness_TranslationChangesOnlyMemory_translated :
    accessesTranslated .u { start HartConfig.base .u 0#64 with satp := 0x1000000000000000#64 } ∧
    accessesTranslated .s { start base32 .s 0#64 with satp := 0x80000000#64 } ∧
    accessesTranslated .vu (start fullH .vu 0#64) ∧
    (∀ (kind : AccessKind) (virt : Bool) (ptes : List Pte) (s : State),
      (∃ t, ptesPass kind virt ptes s t) ∨ ∃ e, ptesFail kind virt ptes s e) :=
  ⟨.inr ⟨.inr ⟨rfl, rfl⟩, .inl ⟨rfl, by decide⟩⟩, .inr ⟨.inl rfl, .inr ⟨rfl, by decide⟩⟩, .inl rfl,
    fun kind virt ptes s => (checkPtes_cases kind virt ptes s).imp (fun ⟨t, h⟩ => ⟨t, h.2⟩) fun ⟨e, h⟩ => ⟨e, h.2⟩⟩

/-- A PTE that passes, before one that is rejected for its xwr. -/
theorem test_ptesFail :
    let p : Pte := ⟨false, 0#2, 0b001#3, true, true, 0#64, []⟩
    let q : Pte := ⟨false, 0#2, 0b010#3, true, true, 8#64, []⟩
    ptesFail .load false [p, q] (start HartConfig.base .s 0#64) .loadPageFault :=
  ⟨[_], _, [], _, rfl, ⟨_, rfl, rfl⟩, rfl⟩

/-- A misaligned operand under each policy, an active Zicfiss, and each cache-block instruction where its enables let it
run. The walk is a free value, so no state can be shown to page-fault by it: the fault branch is a case of the match. -/
theorem witness_TranslatedAccessCompletesOrPageFaults :
    let s := start HartConfig.base .s 0x90#64
    let u := { start HartConfig.base .u 0xC0#64 with senvcfg := 0x40#64 }
    let a := { HartConfig.base with misaligned := .addressMisaligned }
    let f := { full with misaligned := .accessFault }
    (cboRuns (.cboZero 10#5) s ∧ cboRuns (.cboInval 10#5) s ∧ cboRuns (.cboClean 10#5) u ∧ cboRuns (.cboFlush 10#5) u ∧
      cboRuns (.cboInval 10#5) (start HartConfig.base .m 0#64)) ∧
    ((0x1003#64).toNat % 4 ≠ 0 ∧ (0x1004#64).toNat % 4 = 0 ∧ HartConfig.base.misaligned = .perform ∧
      a.misaligned = .addressMisaligned ∧ f.misaligned = .accessFault) ∧
    (shadowStackActive (start f .s 8#64) = true ∧ f.xlen = .rv64 ∧
      dataAccess .store 8 4#64 (start f .s 8#64) = .error .storeAccessFault) :=
  ⟨⟨⟨true, false, false, rfl, .inr ⟨rfl, .inl rfl⟩⟩, ⟨true, false, false, rfl, .inr ⟨rfl, .inl rfl⟩⟩,
      ⟨true, true, false, rfl, .inr ⟨rfl, .inr (.inl ⟨rfl, .inr rfl⟩)⟩⟩,
      ⟨true, true, false, rfl, .inr ⟨rfl, .inr (.inl ⟨rfl, .inr rfl⟩)⟩⟩, ⟨false, false, false, rfl, .inl rfl⟩⟩,
    by decide, by decide, rfl, rfl⟩

theorem witness_DisabledCboIsIllegal :
    (start HartConfig.base .vu 0#64).priv ≠ .m ∧ (0#64).getLsbD 7 = false ∧ (0x80#64).getLsbD 6 = false ∧
    (0xC1#64).extractLsb' 4 2 = 0#2 := by decide

/-- M-mode with the fields clear, S-mode, U-mode under S with the `senvcfg` bits, U-mode without S. In a virtualised mode
the translation is the walk, a free value: the gates there are met, the translation is a premise. -/
theorem witness_EnabledCboIsExecuted :
    let m := start HartConfig.base .m 0#64
    let s := start HartConfig.base .s 0xC0#64
    let u := { start HartConfig.base .u 0xC0#64 with senvcfg := 0xC0#64 }
    let v := { start fullH .vu 0xC0#64 with senvcfg := 0xC0#64, henvcfg := 0xC0#64 }
    translate .store (dataMode m) (getReg m 10#5) m = .ok (0#64, m) ∧
    translate .store (dataMode s) (getReg s 10#5) s = .ok (0#64, s) ∧
    translate .store (dataMode u) (getReg u 10#5) u = .ok (0#64, u) ∧
    s.menvcfg.getLsbD 7 = true ∧ u.menvcfg.getLsbD 6 = true ∧
    lowerAllows ((senvcfgView s).getLsbD 7) ((henvcfgView s).getLsbD 7) s ∧
    lowerAllows ((senvcfgView u).getLsbD 6) ((henvcfgView u).getLsbD 6) u ∧
    lowerAllows ((senvcfgView v).getLsbD 6) ((henvcfgView v).getLsbD 6) v :=
  ⟨rfl, rfl, rfl, by decide, by decide, .inl rfl, .inr (.inl ⟨rfl, .inr (by decide)⟩),
    .inr (.inr (.inr ⟨rfl, by decide, by decide⟩))⟩

theorem witness_CboInvalFlushesOrInvalidates :
    let s1 := start HartConfig.base .s 0x10#64
    let s3 := start HartConfig.base .s 0x30#64
    HartConfig.base.zicbom = true ∧
    translate .store (dataMode s1) (getReg s1 10#5) s1 = .ok (0#64, s1) ∧
    (s1.menvcfg.extractLsb' 4 2 = 1#2 ∧
      lowerAllows ((senvcfgView s1).extractLsb' 4 2 != 0#2) ((henvcfgView s1).extractLsb' 4 2 != 0#2) s1) ∧
    (s3.menvcfg.extractLsb' 4 2 = 3#2 ∧
      lowerAllows ((senvcfgView s3).extractLsb' 4 2 != 0#2) ((henvcfgView s3).extractLsb' 4 2 != 0#2) s3) ∧
    ((start baseF .m 0#64).priv = .m ∧ baseF.forceUpgradeCboInvalToFlush = true) ∧
    ((start HartConfig.base .m 0#64).priv = .m ∧ HartConfig.base.forceUpgradeCboInvalToFlush = false) :=
  ⟨by decide, rfl, ⟨by decide, .inl rfl⟩, ⟨by decide, .inl rfl⟩, by decide, by decide⟩

/-- U-mode under S-mode; VS-mode; VU-mode with `henvcfg` set and `senvcfg` clear. -/
theorem witness_LowerGatesStopCacheBlockInstructions :
    let u := start fullH .u 0x80#64
    let vs := { start fullH .vs 0x10#64 with senvcfg := 0x10#64 }
    let vu := { start fullH .vu 0x40#64 with henvcfg := 0x40#64 }
    (cboEnables (.cboZero 10#5) u = some (true, false, false) ∧ u.priv = .u ∧ u.cfg.sImplemented = true) ∧
    (cboEnables (.cboInval 10#5) vs = some (true, true, false) ∧ vs.priv.virt = true) ∧
    (cboEnables (.cboClean 10#5) vu = some (true, false, true) ∧
      cboEnables (.cboFlush 10#5) vu = some (true, false, true) ∧ vu.priv = .vu) := by decide

/-- With S-mode, and on a hart without it. -/
theorem witness_LpadIsANoOpWithLpeClear :
    let noS := { full with sImplemented := false, svpbmt := false, svadu := false, sstc := false, smcdeleg := false,
                           ssdbltrp := false, zicfiss := false }
    ((start full .s 0#64).priv = (if full.sImplemented then .s else .u) ∧ lpeOn (start full .s 0#64) = false) ∧
    ((start noS .u 0#64).priv = (if noS.sImplemented then .s else .u) ∧ lpeOn (start noS .u 0#64) = false) := by decide

theorem witness_ElpStaysIdleWithLpeClear :
    ((start full .s 0#64).priv = lpMode full ∧ lpeOn (start full .s 0#64) = false ∧
      (start full .s 0#64).elp = .noLpExpected ∧
      ∃ t, exec (.lpad 1#20) (start full .s 0#64) = .next t) ∧
    (let s := { start full .s 0#64 with mem := [(0, 0x17#8), (1, 0x00#8), (2, 0x00#8), (3, 0x00#8)] }
     invariant s = true ∧ ∃ t, step s = .next t ∧ t.priv = lpMode t.cfg ∧ lpeOn t = false) := by
  refine ⟨⟨by decide, by decide, by decide, _, rfl⟩, by decide, ?_⟩
  obtain ⟨t, h, ht⟩ := reaches_next (p := fun t => t.priv == lpMode t.cfg && !lpeOn t)
    (o := step { start full .s 0#64 with mem := [(0, 0x17#8), (1, 0x00#8), (2, 0x00#8), (3, 0x00#8)] }) (by decide)
  exact ⟨t, h, by simpa using ht⟩

theorem witness_RevertedWordsFollowZimop :
    (start full .u 0#64).priv ≠ .m ∧ sseOn (start full .u 0#64) = false := by decide

theorem witness_RevertedHalfwordsFollowZcmop :
    (start HartConfig.base .s 0#64).priv ≠ .m ∧ sseOn (start HartConfig.base .s 0#64) = false := by decide

theorem witness_SsamoswapWithSseClearIsIllegal :
    (start base32 .vs 0#64).priv ≠ .m ∧ sseOn (start base32 .vs 0#64) = false := by decide

theorem witness_ActiveZicfissCompletes :
    let s := start full .s 8#64
    let h := start { full with xlen := .rv32 } .s 8#64
    (shadowStackActive s = true ∧ s.cfg.xlen = .rv64 ∧ dataAccess .store 4 (getReg s 12#5) s = .ok (0#64, s) ∧
      dataAccess .store 8 (getReg s 12#5) s = .ok (0#64, s)) ∧
    (shadowStackActive h = true ∧ h.cfg.xlen = .rv32) := ⟨⟨by decide, rfl, rfl, rfl⟩, by decide, rfl⟩

theorem witness_ZicfissIsActiveBySse :
    sseOn (start full .u 0#64) = false ∧ (sseOn (start full .s 8#64) = true ∧ (start full .s 8#64).priv = .s) ∧
    (start full .m 8#64).priv = .m ∧ (sseOn (start full .u 8#64) = true ∧ (start full .u 8#64).priv = .u) ∧
    (sseOn (start fullH .vs 8#64) = true ∧ (start fullH .vs 8#64).priv = .vs) ∧
    (sseOn (start fullH .vu 8#64) = true ∧ (start fullH .vu 8#64).priv = .vu) := by decide

/-- A PTE with PBMT = 1, one with xwr = 010, and a G-stage one with xwr = 010; with PBMTE = 1 a VS-stage one with PBMT
set; the windows open. -/
theorem witness_ReservedPtesPageFault :
    let s := start full .s 0#64
    let on := { start fullH .vs 0x4000000000000000#64 with henvcfg := 0x4000000000000000#64 }
    let w := { on with windows := ⟨true, true, true, true⟩ }
    let p : Pte := ⟨false, 1#2, 0b010#3, true, true, 0#64, []⟩
    let g : Pte := ⟨true, 0#2, 0b010#3, true, true, 0#64, []⟩
    let q : Pte := ⟨false, 2#2, 0b011#3, true, true, 0#64, []⟩
    (svpbmtAvailable s = false ∧ s.windows.pbmteS = false ∧ s.windows.pbmteG = false ∧ p.pbmt ≠ 0#2) ∧
    (sseOn s = false ∧ p.xwr = 0b010#3 ∧ (true && p.gStage) = false) ∧
    (g.pbmt = 0#2 ∧ needsAd .store g = false ∧ (true && g.gStage) = true) ∧
    (svpbmtAvailable on = true ∧ on.windows.pbmteS = false ∧ on.windows.pbmteG = false ∧ q.gStage = false ∧
      (henvcfgView on).getLsbD 62 = true ∧ q.xwr ≠ 0b010#3 ∧ needsAd .store q = false) ∧
    (pbmteWindow .s w = true ∧ pbmteWindow .vs w = true ∧ pbmteWindow .g w = true ∧ q.pbmt ≠ 0#2) := by decide

/-- A PTE with A clear, and a store to one with only D clear, of each stage; updating on for all three, and off; the
windows open. -/
theorem witness_AdueChoosesUpdateOrPageFault :
    let on := { start fullH .vs 0x2000000000000000#64 with henvcfg := 0x2000000000000000#64 }
    let off := start fullH .vs 0#64
    let w := { on with windows := ⟨true, true, true, true⟩ }
    let p : Pte := ⟨false, 0#2, 0b011#3, false, false, 0x10#64, [0x47#8]⟩
    let q : Pte := ⟨true, 0#2, 0b011#3, true, false, 0x10#64, [0xC7#8]⟩
    (stageOf false p = .s ∧ stageOf true p = .vs ∧ stageOf true q = .g) ∧
    (p.a = false ∧ q.d = false ∧ p.updated.length ≤ 2 ^ 64) ∧
    (pteReserved .load .s p on = false ∧ adueWindow .s on = false ∧ stageAdue .s on = true) ∧
    (pteReserved .load .vs p on = false ∧ adueWindow .vs on = false ∧ stageAdue .vs on = true) ∧
    (pteReserved .store .g q on = false ∧ adueWindow .g on = false ∧ stageAdue .g on = true) ∧
    (pteReserved .store .g q off = false ∧ stageAdue .s off = false ∧ stageAdue .vs off = false ∧
      stageAdue .g off = false) ∧
    (adueWindow .s w = true ∧ adueWindow .vs w = true ∧ adueWindow .g w = true ∧
      pteReserved .load .s p w = false ∧ pteReserved .load .vs p w = false ∧ pteReserved .store .g q w = false) := by
  decide

theorem witness_TrapToMachineMode :
    (start HartConfig.base .u 0#64).medeleg.getLsbD Exception.illegalInstruction.code = false ∧
    { start HartConfig.base .m 0#64 with medeleg := 4#64 }.priv = .m ∧
    { HartConfig.base with sImplemented := false }.sImplemented = false := by
  decide

theorem witness_TrapToSupervisorMode :
    sdtView (start full .u 0#64) = false ∧ HartConfig.base.sImplemented = true ∧
    (start HartConfig.base .u 0#64).priv ≠ .m ∧
    { start HartConfig.base .u 0#64 with medeleg := 4#64 }.medeleg.getLsbD Exception.illegalInstruction.code = true := by
  decide

theorem witness_DoubleTrapGoesToMachineMode :
    let s := start full .s 0x0800000000000000#64
    let s' := { s with mstatus := { s.mstatus with sdt := true } }
    dteOn s' = true ∧ s'.mstatus.sdt = true := by decide

theorem witness_TrapReturnsRestore :
    (start HartConfig.base .m 0#64).priv = .m ∧ (start HartConfig.base .s 0#64).priv = .s ∧
    HartConfig.base.sImplemented = true ∧ (start fullH .vs 0#64).priv = .vs ∧ dteOn (start fullH .vs 0#64) = false ∧
    (start fullH .vu 0#64).priv = .vu ∧ (start HartConfig.base .u 0#64).priv = .u ∧
    { HartConfig.base with sImplemented := false }.sImplemented = false ∧
    (start HartConfig.base .m 0#64).priv.virt = false := by decide

theorem witness_NoTimerInterruptWithStceClear :
    stceOn (start HartConfig.base .u 0#64) = false ∧ (start HartConfig.base .u 0#64).mipStip = false := by decide

/-- From U-mode, with `time = stimecmp`. -/
theorem witness_TimerInterruptIsTaken :
    let s := { start HartConfig.base .u 0x8000000000000000#64 with
               mieStie := true, midelegSti := true, stimecmp := 5#64, time := 5#64 }
    configLegal s.cfg = true ∧ s.cfg.sImplemented = true ∧ stceOn s = true ∧ s.stimecmp.toNat ≤ s.time.toNat ∧
    s.mieStie = true ∧ s.midelegSti = true ∧ s.priv = .u ∧ sdtView s = false := by decide

theorem witness_StepKeepsMenvcfgLegal :
    let s := fetching HartConfig.base 0x30A8D573
    registerInvariants s.cfg s.menvcfg ∧ ∃ t, step s = .next t := by
  refine ⟨⟨by decide, by decide, by decide⟩, ?_⟩
  obtain ⟨t, h, -⟩ := reaches_next (p := fun _ => true) (o := step (fetching HartConfig.base 0x30A8D573)) (by decide)
  exact ⟨t, h⟩

theorem witness_StepKeepsTheInvariant :
    let s := (start full .m 0#64).withFetchWord 32 0x30A51573
    invariant s = true ∧ ∃ t, step s = .next t := by
  refine ⟨by decide, ?_⟩
  obtain ⟨t, h, -⟩ := reaches_next (p := fun _ => true)
    (o := step ((start full .m 0#64).withFetchWord 32 0x30A51573)) (by decide)
  exact ⟨t, h⟩

/-- A step that changes the register, by CSRRWI. -/
theorem witness_OnlyMachineModeCsrInstructionsChangeMenvcfg :
    let s := fetching HartConfig.base 0x30A8D573
    ∃ t, step s = .next t ∧ t.menvcfg ≠ s.menvcfg := by
  obtain ⟨t, h, ht⟩ := reaches_next (p := fun t => t.menvcfg == 0x11#64)
    (o := step (fetching HartConfig.base 0x30A8D573)) (by decide)
  exact ⟨t, h, by rw [beq_iff_eq.mp ht]; decide⟩

theorem witness_MachineModeIsNotGoverned :
    (start HartConfig.base .m 0xF1#64).priv = .m ∧ (start HartConfig.base .m 0xF1#64).mstatus.mprv = false ∧
    csrNumberOf (.cboZero 10#5) = none ∧ HartInstr.mopR 0#5 0#5 10#5 ≠ .mret ∧ HartInstr.mopR 0#5 0#5 10#5 ≠ .sret := by
  decide

theorem witness_TimeDoesNotDecrease : ∃ t, step (fetching HartConfig.base 0x0330000F) = .next t := by
  obtain ⟨t, h, -⟩ := reaches_next (p := fun _ => true)
    (o := step (fetching HartConfig.base 0x0330000F)) (by decide)
  exact ⟨t, h⟩

end Sys2Proof.Tests
end

section
/-! PROOFS. The register's state: reset, the write function on CBIE and on the halves, what a CSR instruction that
completes leaves, and the fields of `senvcfg`, `henvcfg` and the status registers that `menvcfg` couples. -/

namespace Sys2Proof.Machine

/-! ## Reset -/

theorem resetOf_mpp (c : HartConfig) (r : BitVec 64) : (State.resetOf c r).mstatus.mpp = leastMode c := rfl

theorem resetOf_spp (c : HartConfig) (r : BitVec 64) : (State.resetOf c r).mstatus.spp = leastMode c := rfl

theorem modesLegal_resetOf (c : HartConfig) (r : BitVec 64) : modesLegal (State.resetOf c r) = true := by
  have hcfg : (State.resetOf c r).cfg = c := rfl
  have hpriv : modeLegal c (State.resetOf c r).priv = true := rfl
  rw [modesLegal, resetOf_mpp, resetOf_spp, hcfg, hpriv, modeLegal_leastMode]
  cases hs : c.sImplemented
  · rfl
  · simp [leastMode_ne_m hs]

theorem elpIdle_resetOf (c : HartConfig) (r : BitVec 64) : elpIdle (State.resetOf c r) = true :=
  Bool.or_true _

theorem widthsOk_resetOf (c : HartConfig) (r : BitVec 64) : widthsOk (State.resetOf c r) = true := by
  simp [widthsOk, State.resetOf, fits_zero, fits_trunc]

theorem invariant_resetOf (c : HartConfig) (r : BitVec 64) : invariant (State.resetOf c r) = true :=
  (invariant_iff _).2
    ⟨legalValue_reset c r, modesLegal_resetOf c r, elpIdle_resetOf c r, widthsOk_resetOf c r, rfl, rfl⟩

/-- Settles O8: each part of the invariant holds of the reset state, `menvcfg` by the write rule. -/
theorem resetMeetsTheInvariant : Obligations.ResetMeetsTheInvariant :=
  ⟨invariant_resetOf, invariant_resetOf _ _⟩

/-! ## Values -/

theorem getLsbD_highView {v : BitVec 64} {i : Nat} (hi : i < 32) : (highView v).getLsbD i = v.getLsbD (32 + i) := by
  simp [highView, hi]; omega

theorem trunc_highView (c : HartConfig) (v : BitVec 64) : trunc c (highView v) = highView v := by
  apply BitVec.eq_of_getLsbD_eq; intro i _
  by_cases hi : i < 32 <;> simp [getLsbD_trunc, highView, hi]

theorem trunc_rv32 {c : HartConfig} (h : c.xlen = .rv32) (v : XWord) :
    trunc c v = (v.extractLsb' 0 32).setWidth 64 := by
  apply BitVec.eq_of_getLsbD_eq; intro i _
  by_cases hi : i < 32 <;> simp [trunc, h, hi]

/-- The bits of two halves joined. -/
theorem getLsbD_joined (hi lo : BitVec 32) (i : Nat) :
    (hi ++ lo : BitVec 64).getLsbD i = if i < 32 then lo.getLsbD i else hi.getLsbD (i - 32) :=
  BitVec.getLsbD_append

/-- The bits that the base number reaches: all of them, with XLEN = 32 those below 32 (R61). -/
theorem getLsbD_presentLow_reached {c : HartConfig} {i : Nat} (hi : i < 32 ∨ c.xlen = .rv64) (old : BitVec 64)
    (w : XWord) : (presentLow c old w).getLsbD i = w.getLsbD i := by
  cases hx : c.xlen
  · simp [presentLow, hx, getLsbD_joined, show i < 32 by simpa [hx] using hi]
  · simp [presentLow, hx]

theorem getLsbD_presentLow_high {c : HartConfig} (hx : c.xlen = .rv32) {i : Nat} (hi : 32 ≤ i) (hlt : i < 64)
    (old : BitVec 64) (w : XWord) : (presentLow c old w).getLsbD i = old.getLsbD i := by
  simp [presentLow, hx, getLsbD_joined, show ¬ i < 32 by omega, show i - 32 < 32 by omega, Nat.add_sub_cancel' hi]

theorem getLsbD_presentHigh_low {i : Nat} (hi : i < 32) (old : BitVec 64) (w : XWord) :
    (presentHigh old w).getLsbD i = old.getLsbD i := by
  simp [presentHigh, getLsbD_joined, hi]

theorem getLsbD_presentHigh_high {i : Nat} (hi : 32 ≤ i) (hlt : i < 64) (old : BitVec 64) (w : XWord) :
    (presentHigh old w).getLsbD i = w.getLsbD (i - 32) := by
  simp [presentHigh, getLsbD_joined, show ¬ i < 32 by omega, show i - 32 < 32 by omega]

theorem rawCbie_congr {v w : BitVec 64} (h4 : v.getLsbD 4 = w.getLsbD 4) (h5 : v.getLsbD 5 = w.getLsbD 5) :
    rawCbie v = rawCbie w :=
  (rawCbie_eq_iff v _).2 (by simpa [rawCbie] using And.intro h4 h5)

theorem rawCbie_presentLow (c : HartConfig) (old : BitVec 64) (w : XWord) : rawCbie (presentLow c old w) = rawCbie w :=
  rawCbie_congr (getLsbD_presentLow_reached (.inl (by decide)) ..) (getLsbD_presentLow_reached (.inl (by decide)) ..)

theorem rawCbie_presentHigh (old : BitVec 64) (w : XWord) : rawCbie (presentHigh old w) = rawCbie old :=
  rawCbie_congr (getLsbD_presentHigh_low (by decide) ..) (getLsbD_presentHigh_low (by decide) ..)

theorem rawCbie_swWrite_kept {c : HartConfig} (hd : fieldsDistinct c = true) {old v : BitVec 64}
    (hl : legalValue c old = true) (hv : rawCbie v = rawCbie old) : rawCbie (swWrite c old v) = rawCbie old := by
  rw [rawCbie_swWrite, writtenCbie, hv, ite_self]
  cases hz : c.zicbom
  · exact (rawCbie_of_no_zicbom hd hz hl).symm
  · rfl

/-- A legal value keeps the bits that a write presents unchanged, those of CBIE when the whole field is. -/
theorem getLsbD_swWrite_kept {c : HartConfig} (hd : fieldsDistinct c = true) {old v : BitVec 64}
    (hl : legalValue c old = true) {i : Nat} (hi : v.getLsbD i = old.getLsbD i)
    (hc : i = 4 ∨ i = 5 → rawCbie v = rawCbie old) : (swWrite c old v).getLsbD i = old.getLsbD i := by
  by_cases h45 : i = 4 ∨ i = 5
  · have hk := rawCbie_swWrite_kept hd hl (hc h45)
    rw [rawCbie_eq_iff] at hk
    rcases h45 with rfl | rfl
    · simpa [rawCbie] using hk.1
    · simpa [rawCbie] using hk.2
  · rw [getLsbD_swWrite c old v i (fun e => h45 (.inl e)) (fun e => h45 (.inr e)), hi]
    have := ((legalValue_iff c old).1 hl).1 i
    cases ho : old.getLsbD i
    · rfl
    · rw [this ho]; rfl

/-! ## CBIE on a write -/

theorem rawCbie_swWrite_storable {c : HartConfig} (hz : c.zicbom = true) {v : BitVec 64}
    (hv : cbieStorable c (rawCbie v) = true) (old : BitVec 64) : rawCbie (swWrite c old v) = rawCbie v := by
  rw [rawCbie_swWrite, if_pos hz, writtenCbie, if_pos hv]

theorem rawCbie_swWrite_not_storable {c : HartConfig} (hz : c.zicbom = true) {v : BitVec 64}
    (hv : cbieStorable c (rawCbie v) = false) (old : BitVec 64) : rawCbie (swWrite c old v) = rawCbie old := by
  rw [rawCbie_swWrite, if_pos hz, writtenCbie, if_neg (by simp [hv])]

/-- The four rows of R126. -/
theorem rawCbie_swWrite_cases {c : HartConfig} (hz : c.zicbom = true) (old v : BitVec 64) :
    (rawCbie v = 0#2 → rawCbie (swWrite c old v) = 0#2) ∧
    (rawCbie v = 1#2 → rawCbie (swWrite c old v) = 1#2) ∧
    (rawCbie v = 2#2 → rawCbie (swWrite c old v) = rawCbie old) ∧
    (rawCbie v = 3#2 → rawCbie (swWrite c old v) =
      if c.forceUpgradeCboInvalToFlush then rawCbie old else 3#2) := by
  refine ⟨fun h => ?_, fun h => ?_, fun h => ?_, fun h => ?_⟩
  · rw [rawCbie_swWrite_storable hz (by simp [h, cbieStorable]), h]
  · rw [rawCbie_swWrite_storable hz (by simp [h, cbieStorable]), h]
  · exact rawCbie_swWrite_not_storable hz (by simp [h, cbieStorable]) old
  · cases hf : c.forceUpgradeCboInvalToFlush
    · rw [rawCbie_swWrite_storable hz (by simp [h, hf, cbieStorable]), h]; rfl
    · exact rawCbie_swWrite_not_storable hz (by simp [h, hf, cbieStorable]) old

/-! ## A CSR instruction that completes -/

/-- What a CSR instruction on the register `r` leaves, where it is not denied: the write it makes, `rd`, the program
counter (R122). -/
def csrCompleted (i : Instr) (r : CsrReg) (s : State) : State :=
  advance 4 (setReg (csrRdOf i) (readCsr r s)
    (if csrWritesOf i then writeCsr r (csrValueOf i (readCsr r s) s) s else s))

theorem exec_csr_completed {i : Instr} {n : CsrNum} {s : State} {r : CsrReg} (hn : csrNumberOf i = some n)
    (hd : csrDenied n (csrWritesOf i) s = none) (hr : csrLookup n s = some r) :
    exec i s = .next (csrCompleted i (substituted s.priv r) s) := by
  obtain ⟨reads, hrd, he⟩ := exec_csr_value hn s
  rw [he, csrAccess_ok hd hr, csrCompleted]
  cases reads
  · rw [hrd rfl, setReg_zero]; rfl
  · rfl

/-- In M-mode an access to a read/write number of a register that exists completes (R111, R120, R121). -/
theorem exec_csr_of_m {i : Instr} {n : CsrNum} {s : State} {r : CsrReg} (hn : csrNumberOf i = some n)
    (hm : s.priv = .m) (hr : csrLookup n s = some r) (hw : csrReadOnly n = false) :
    exec i s = .next (csrCompleted i r s) := by
  rw [exec_csr_completed hn (csrDenied_of_m hm hr hw) hr, substituted_of_m hm]

/-- A CSR access that reads and maybe writes the register changes `rd`, the program counter and what the write names. -/
theorem csrFrame_advance_setReg {r : CsrReg} {s t : State} (ht : t = s ∨ ∃ w, t = writeCsr r w s) (rd : RegIdx)
    (v : XWord) : csrFrame rd (trunc s.cfg v) s (advance 4 (setReg rd v t)) := by
  have hcfg : t.cfg = s.cfg := by rcases ht with rfl | ⟨w, rfl⟩ <;> simp
  have hreg : ∀ q, getReg t q = getReg s q := by rcases ht with rfl | ⟨w, rfl⟩ <;> simp
  refine ⟨?_, fun q hq => ?_, ?_⟩
  · rw [getReg_advance, getReg_setReg_same, hcfg]
  · rw [getReg_advance, getReg_setReg_other hq, hreg]
  · rcases ht with rfl | ⟨w, rfl⟩ <;> simp [sameMemory, sameLogs]

/-- The frame of every CSR instruction that completes (R128 to R133). -/
theorem csrFrame_csrCompleted (i : Instr) (r : CsrReg) (s : State) :
    csrFrame (csrRdOf i) (trunc s.cfg (readCsr r s)) s (csrCompleted i r s) := by
  apply csrFrame_advance_setReg (r := r)
  split
  · exact .inr ⟨_, rfl⟩
  · exact .inl rfl

/-! ## The numbers of `menvcfg` -/

theorem csrLookup_menvcfg_number {s : State} (hu : s.cfg.uImplemented = true) :
    csrLookup 0x30A#12 s = some .menvcfg := by
  simp [csrLookup, csrNamed, hu, existsIf]

theorem csrLookup_menvcfgh_number {s : State} (hu : s.cfg.uImplemented = true) (hx : s.cfg.xlen = .rv32)
    (hl : menvcfghNumberLegal s.cfg.csrMenvcfgh = true) : csrLookup s.cfg.csrMenvcfgh s = some .menvcfgh := by
  have h0 : s.cfg.csrMenvcfgh ≠ 0x30A#12 := ((menvcfghNumberLegal_cases hl).2.2 _ (by simp [machineNumbers])).symm
  simp [csrLookup, csrNamed, h0, hu, existsIf, isRv32, hx]

theorem csrReadOnly_menvcfgh_number {n : CsrNum} (hl : menvcfghNumberLegal n = true) : csrReadOnly n = false := by
  simpa [csrReadOnly] using (menvcfghNumberLegal_cases hl).2.1

theorem exec_csrrw_menvcfg {s : State} (hm : s.priv = .m) (hu : s.cfg.uImplemented = true) (rd rs1 : RegIdx) :
    exec (.csrrw rd 0x30A#12 rs1) s = .next (csrCompleted (.csrrw rd 0x30A#12 rs1) .menvcfg s) :=
  exec_csr_of_m rfl hm (csrLookup_menvcfg_number hu) (by decide)

theorem exec_csrrw_menvcfgh {s : State} (hm : s.priv = .m) (hu : s.cfg.uImplemented = true)
    (hx : s.cfg.xlen = .rv32) (hl : menvcfghNumberLegal s.cfg.csrMenvcfgh = true) (rd rs1 : RegIdx) :
    exec (.csrrw rd s.cfg.csrMenvcfgh rs1) s = .next (csrCompleted (.csrrw rd s.cfg.csrMenvcfgh rs1) .menvcfgh s) :=
  exec_csr_of_m rfl hm (csrLookup_menvcfgh_number hu hx hl) (csrReadOnly_menvcfgh_number hl)

theorem csrCompleted_menvcfg (rd : RegIdx) (n : CsrNum) (rs1 : RegIdx) (s : State) :
    (csrCompleted (.csrrw rd n rs1) .menvcfg s).menvcfg =
      swWrite s.cfg s.menvcfg (presentLow s.cfg s.menvcfg (getReg s rs1)) := by
  simp [csrCompleted, csrWritesOf, csrValueOf, writeCsr]

theorem csrCompleted_menvcfgh (rd : RegIdx) (n : CsrNum) (rs1 : RegIdx) (s : State) :
    (csrCompleted (.csrrw rd n rs1) .menvcfgh s).menvcfg =
      swWrite s.cfg s.menvcfg (presentHigh s.menvcfg (getReg s rs1)) := by
  simp [csrCompleted, csrWritesOf, csrValueOf, writeCsr]

/-- Settles O11: R126 from what `swWrite` stores in CBIE, and the completing access of M-mode. -/
theorem cbieOnAWriteCaseByCase : Obligations.CbieOnAWriteCaseByCase := by
  refine ⟨fun c old v hz => ?_, fun s rd rs1 hm hu => ⟨_, exec_csrrw_menvcfg hm hu rd rs1, ?_⟩⟩
  · obtain ⟨h0, h1, h2, h3⟩ := rawCbie_swWrite_cases hz old v
    exact ⟨h0, h1, h2, h3, getLsbD_swWrite c old v⟩
  · obtain ⟨-, -, hpc, hpriv, -⟩ := csrFrame_csrCompleted (.csrrw rd 0x30A#12 rs1) .menvcfg s
    exact ⟨hpc, hpriv.trans hm, csrCompleted_menvcfg ..⟩

/-! ## What a write of `menvcfg` leaves -/

theorem getLsbD_drawBit_kept {on : Bool} {pos i : Nat} (h : i = pos → on = false) (b : Bool) (v : BitVec 64) :
    (drawBit on pos b v).getLsbD i = v.getLsbD i := by
  by_cases hi : i = pos
  · rw [h hi]; rfl
  · exact getLsbD_drawBit_other hi on b v

/-- A bit of `henvcfg` whose `menvcfg` field does not rise is kept, and so is every bit that is not coupled (U11). -/
theorem getLsbD_coupledHenvcfg_kept {new : BitVec 64} {s : State} {i : Nat}
    (hp : i = 62 → rises (fieldPbmte s.cfg) s.menvcfg new = false)
    (ha : i = 61 → rises (fieldAdue s.cfg) s.menvcfg new = false)
    (hd : i = 59 → rises (fieldDte s.cfg) s.menvcfg new = false)
    (hs : i = 3 → rises (fieldSse s.cfg) s.menvcfg new = false) :
    (coupledHenvcfg new s).getLsbD i = s.henvcfg.getLsbD i := by
  rw [coupledHenvcfg, getLsbD_drawBit_kept hp, getLsbD_drawBit_kept ha, getLsbD_drawBit_kept hd,
    getLsbD_drawBit_kept hs]

theorem rises_of_notFreed {field : HartConfig → BitVec 64 → Bool} {s t : State} (h : notFreed field s t) :
    rises (field s.cfg) s.menvcfg t.menvcfg = false := by
  rcases h with h | h <;> simp [rises, h]

theorem writeMenvcfg_henvcfg (v : BitVec 64) (s : State) :
    (writeMenvcfg v s).henvcfg = coupledHenvcfg (writeMenvcfg v s).menvcfg s := rfl

theorem writeMenvcfg_senvcfg (v : BitVec 64) (s : State) :
    (writeMenvcfg v s).senvcfg =
      drawBit (rises (fieldSse s.cfg) s.menvcfg (writeMenvcfg v s).menvcfg) 3 (Config.freeBit s.draws 5) s.senvcfg :=
  rfl

/-- SDT and its virtual copy are kept where DTE does not rise. -/
theorem writeMenvcfg_sdt_kept {v : BitVec 64} {s : State}
    (h : rises (fieldDte s.cfg) s.menvcfg (writeMenvcfg v s).menvcfg = false) :
    (writeMenvcfg v s).mstatus.sdt = s.mstatus.sdt ∧ (writeMenvcfg v s).vsSdt = s.vsSdt := by
  rw [writeMenvcfg_menvcfg] at h
  simp [writeMenvcfg, h]

theorem menvcfgFrame_writeMenvcfg (v : BitVec 64) (s : State) : menvcfgFrame s (writeMenvcfg v s) := by
  refine ⟨by simp [sameTrapRegs], by simp [sameUnits], rfl, rfl, fun h => ?_, fun h => ?_, fun h => ?_, fun h => ?_,
    fun i h3 => ?_, fun i h3 h59 h61 h62 => ?_⟩
  · have hr := rises_of_notFreed h
    obtain ⟨hsdt, hvs⟩ := writeMenvcfg_sdt_kept hr
    rw [writeMenvcfg_henvcfg]
    exact ⟨hsdt, hvs, getLsbD_coupledHenvcfg_kept (by simp) (by simp) (fun _ => hr) (by simp)⟩
  · have hr := rises_of_notFreed h
    rw [writeMenvcfg_henvcfg, writeMenvcfg_senvcfg]
    exact ⟨getLsbD_drawBit_kept (fun _ => hr) ..,
      getLsbD_coupledHenvcfg_kept (by simp) (by simp) (by simp) fun _ => hr⟩
  · rw [writeMenvcfg_henvcfg]
    exact getLsbD_coupledHenvcfg_kept (by simp) (fun _ => rises_of_notFreed h) (by simp) (by simp)
  · rw [writeMenvcfg_henvcfg]
    exact getLsbD_coupledHenvcfg_kept (fun _ => rises_of_notFreed h) (by simp) (by simp) (by simp)
  · rw [writeMenvcfg_senvcfg]
    exact getLsbD_drawBit_other h3 ..
  · rw [writeMenvcfg_henvcfg]
    exact getLsbD_coupledHenvcfg_kept (absurd · h62) (absurd · h61) (absurd · h59) (absurd · h3)

theorem menvcfgFrame_refl (s : State) : menvcfgFrame s s := by
  simp [menvcfgFrame, sameTrapRegs, sameUnits, windowsAfter]

/-- `rd` and the program counter are outside the frame. -/
theorem menvcfgFrame_advance_setReg {s t : State} (h : menvcfgFrame s t) (n : Nat) (rd : RegIdx) (v : XWord) :
    menvcfgFrame s (advance n (setReg rd v t)) := by
  simpa [menvcfgFrame, sameTrapRegs, sameUnits, windowsAfter, notFreed, svpbmtAvailable, adueActive] using h

theorem menvcfgFrame_csrCompleted (i : Instr) {r : CsrReg} (hr : r = .menvcfg ∨ r = .menvcfgh) (s : State) :
    menvcfgFrame s (csrCompleted i r s) := by
  apply menvcfgFrame_advance_setReg
  split
  · rcases hr with rfl | rfl <;> exact menvcfgFrame_writeMenvcfg ..
  · exact menvcfgFrame_refl s

/-! ## The half that a number does not reach -/

theorem extractLsb'_eq_of_getLsbD {v w : BitVec 64} {a n : Nat}
    (h : ∀ i, a ≤ i → i < a + n → v.getLsbD i = w.getLsbD i) : v.extractLsb' a n = w.extractLsb' a n := by
  apply BitVec.eq_of_getLsbD_eq; intro i hi
  simp only [BitVec.getLsbD_extractLsb', h (a + i) (by omega) (by omega)]

theorem swWrite_presentHigh_lower {c : HartConfig} (hd : fieldsDistinct c = true) {old : BitVec 64}
    (hl : legalValue c old = true) (w : XWord) :
    (swWrite c old (presentHigh old w)).extractLsb' 0 32 = old.extractLsb' 0 32 :=
  extractLsb'_eq_of_getLsbD fun _ _ hi =>
    getLsbD_swWrite_kept hd hl (getLsbD_presentHigh_low (by omega) old w) fun _ => rawCbie_presentHigh old w

theorem swWrite_presentLow_upper {c : HartConfig} (hx : c.xlen = .rv32) (hd : fieldsDistinct c = true)
    {old : BitVec 64} (hl : legalValue c old = true) (w : XWord) :
    (swWrite c old (presentLow c old w)).extractLsb' 32 32 = old.extractLsb' 32 32 :=
  extractLsb'_eq_of_getLsbD fun _ hi hlt =>
    getLsbD_swWrite_kept hd hl (getLsbD_presentLow_high hx hi hlt old w) fun h45 => by omega

/-- Settles O15: a legal register keeps every bit that a write presents as it is, and the two numbers present one half
each. -/
theorem menvcfghReachesTheUpperHalf : Obligations.MenvcfghReachesTheUpperHalf := by
  intro s rd rs1 hm hu hx hl
  refine ⟨⟨_, exec_csrrw_menvcfgh hm hu hx hl rd rs1, csrCompleted_menvcfgh .., fun hd hv => ?_, ?_,
      menvcfgFrame_csrCompleted _ (.inr rfl) s⟩,
    ⟨_, exec_csrrw_menvcfg hm hu rd rs1, fun hd hv => ?_, ?_, menvcfgFrame_csrCompleted _ (.inl rfl) s⟩⟩
  · rw [csrCompleted_menvcfgh]; exact swWrite_presentHigh_lower hd hv _
  · have hf := csrFrame_csrCompleted (.csrrw rd s.cfg.csrMenvcfgh rs1) .menvcfgh s
    rwa [readCsr, trunc_highView] at hf
  · rw [csrCompleted_menvcfg]; exact swWrite_presentLow_upper hx hd hv _
  · have hf := csrFrame_csrCompleted (.csrrw rd 0x30A#12 rs1) .menvcfg s
    rwa [readCsr, lowView, trunc_trunc, trunc_rv32 hx] at hf

/-! ## Bits of `senvcfg` and `henvcfg` -/

/-- The mask depends on the configuration and on `menvcfg` alone. -/
theorem envMask_congr {s t : State} (hc : t.cfg = s.cfg) (hm : t.menvcfg = s.menvcfg) (hyp cbie : Bool) :
    envMask hyp cbie t = envMask hyp cbie s := by
  simp only [envMask, sseOn, dteOn, adueActive, svpbmtAvailable, hc, hm]

theorem getLsbD_lowView_reached {c : HartConfig} {i : Nat} (hi : i < 32 ∨ c.xlen = .rv64) (v : BitVec 64) :
    (lowView c v).getLsbD i = v.getLsbD i := by
  rcases hi with hi | hi <;> simp [lowView, getLsbD_trunc, hi]

/-! Below, `b` says whether bit `i` is in the mask of the register, whatever the rule of CBIE decides. -/

section
variable {s : State} {i : Nat} {b : Bool}

theorem readCsr_senvcfg_bit (hi : i < 32) (h : ∀ cbie, (envMask false cbie s).getLsbD i = b) :
    (readCsr .senvcfg s).getLsbD i = (b && s.senvcfg.getLsbD i) := by
  rw [readCsr, getLsbD_lowView_reached (.inl hi), getLsbD_senvcfgView, h, Bool.and_comm]

theorem readCsr_henvcfg_bit (hi : i < 32 ∨ s.cfg.xlen = .rv64) (h : ∀ cbie, (envMask true cbie s).getLsbD i = b) :
    (readCsr .henvcfg s).getLsbD i = (b && s.henvcfg.getLsbD i) := by
  rw [readCsr, getLsbD_lowView_reached hi, getLsbD_henvcfgView, h, Bool.and_comm]

theorem readCsr_henvcfg_bit_off (h : ∀ cbie, (envMask true cbie s).getLsbD i = false) :
    (readCsr .henvcfg s).getLsbD i = false := by
  rw [readCsr, lowView, getLsbD_trunc, getLsbD_henvcfgView, h, Bool.and_false, Bool.false_and]

theorem readCsr_henvcfgh_bit (hi : 32 ≤ i) (hlt : i < 64) (h : ∀ cbie, (envMask true cbie s).getLsbD i = b) :
    (readCsr .henvcfgh s).getLsbD (i - 32) = (b && s.henvcfg.getLsbD i) := by
  rw [readCsr, getLsbD_highView (by omega), Nat.add_sub_cancel' hi, getLsbD_henvcfgView, h, Bool.and_comm]

theorem writeCsr_senvcfg_bit (hi : i < 32) (h : ∀ cbie, (envMask false cbie s).getLsbD i = b) (w : XWord) :
    (writeCsr .senvcfg w s).senvcfg.getLsbD i = if b then w.getLsbD i else s.senvcfg.getLsbD i := by
  rw [← getLsbD_presentLow_reached (c := s.cfg) (.inl hi) s.senvcfg w]
  exact getLsbD_envWrite (by omega) h ..

theorem writeCsr_henvcfg_bit (hi : i < 32 ∨ s.cfg.xlen = .rv64) (hlt : i < 64)
    (h : ∀ cbie, (envMask true cbie s).getLsbD i = b) (w : XWord) :
    (writeCsr .henvcfg w s).henvcfg.getLsbD i = if b then w.getLsbD i else s.henvcfg.getLsbD i := by
  rw [← getLsbD_presentLow_reached hi s.henvcfg w]
  exact getLsbD_envWrite hlt h ..

theorem writeCsr_henvcfg_bit_off (hlt : i < 64) (h : ∀ cbie, (envMask true cbie s).getLsbD i = false) (w : XWord) :
    (writeCsr .henvcfg w s).henvcfg.getLsbD i = s.henvcfg.getLsbD i :=
  getLsbD_envWrite hlt h ..

theorem writeCsr_henvcfgh_bit (hi : 32 ≤ i) (hlt : i < 64) (h : ∀ cbie, (envMask true cbie s).getLsbD i = b)
    (w : XWord) :
    (writeCsr .henvcfgh w s).henvcfg.getLsbD i = if b then w.getLsbD (i - 32) else s.henvcfg.getLsbD i := by
  rw [← getLsbD_presentHigh_high hi hlt s.henvcfg w]
  exact getLsbD_envWrite hlt h ..

/-! While the bit is in the mask, a read returns what was just written. -/

theorem readCsr_writeCsr_senvcfg_bit (hi : i < 32) (h : ∀ cbie, (envMask false cbie s).getLsbD i = true) (w : XWord) :
    (readCsr .senvcfg (writeCsr .senvcfg w s)).getLsbD i = w.getLsbD i := by
  have h' : ∀ cbie, (envMask false cbie (writeCsr .senvcfg w s)).getLsbD i = true := fun cbie => by
    rw [envMask_congr (writeCsr_cfg ..) rfl, h]
  rw [readCsr_senvcfg_bit hi h', writeCsr_senvcfg_bit hi h, if_pos rfl, Bool.true_and]

theorem readCsr_writeCsr_henvcfg_bit (hi : i < 32 ∨ s.cfg.xlen = .rv64) (hlt : i < 64)
    (h : ∀ cbie, (envMask true cbie s).getLsbD i = true) (w : XWord) :
    (readCsr .henvcfg (writeCsr .henvcfg w s)).getLsbD i = w.getLsbD i := by
  have h' : ∀ cbie, (envMask true cbie (writeCsr .henvcfg w s)).getLsbD i = true := fun cbie => by
    rw [envMask_congr (writeCsr_cfg ..) rfl, h]
  rw [readCsr_henvcfg_bit (s := writeCsr .henvcfg w s) hi h', writeCsr_henvcfg_bit hi hlt h, if_pos rfl, Bool.true_and]

theorem readCsr_writeCsr_henvcfgh_bit (hi : 32 ≤ i) (hlt : i < 64)
    (h : ∀ cbie, (envMask true cbie s).getLsbD i = true) (w : XWord) :
    (readCsr .henvcfgh (writeCsr .henvcfgh w s)).getLsbD (i - 32) = w.getLsbD (i - 32) := by
  have h' : ∀ cbie, (envMask true cbie (writeCsr .henvcfgh w s)).getLsbD i = true := fun cbie => by
    rw [envMask_congr (writeCsr_cfg ..) rfl, h]
  rw [readCsr_henvcfgh_bit hi hlt h', writeCsr_henvcfgh_bit hi hlt h, if_pos rfl, Bool.true_and]

end

/-! ## The fields of `senvcfg` and `henvcfg` -/

/-- The coupled fields of `henvcfg` alone: where they stand, and that the mask has them by their `menvcfg` field. -/
theorem envMask_upperField {s : State} {pos : Nat} {b : Bool}
    (h : (pos = 62 ∧ svpbmtAvailable s = b) ∨ (pos = 61 ∧ adueActive s = b) ∨ (pos = 59 ∧ dteOn s = b)) :
    32 ≤ pos ∧ pos < 64 ∧ ∀ cbie, (envMask true cbie s).getLsbD pos = b := by
  rcases h with ⟨rfl, rfl⟩ | ⟨rfl, rfl⟩ | ⟨rfl, rfl⟩
  · exact ⟨by decide, by decide, fun _ => envMask_pbmte ..⟩
  · exact ⟨by decide, by decide, fun _ => envMask_adue ..⟩
  · exact ⟨by decide, by decide, fun _ => envMask_dte ..⟩

/-- The fields that no `menvcfg` field governs, but CBIE. -/
theorem envMask_uncoupledField {s : State} {pos : Nat} {held : Bool}
    (h : (pos = 0 ∧ held = true) ∨ (pos = 2 ∧ held = s.cfg.zicfilp) ∨ (pos = 6 ∧ held = s.cfg.zicbom) ∨
      (pos = 7 ∧ held = s.cfg.zicboz)) :
    pos < 32 ∧ ∀ hyp cbie, (envMask hyp cbie s).getLsbD pos = held := by
  rcases h with ⟨rfl, rfl⟩ | ⟨rfl, rfl⟩ | ⟨rfl, rfl⟩ | ⟨rfl, rfl⟩
  · exact ⟨by decide, fun hyp cbie => envMask_fiom hyp cbie s⟩
  · exact ⟨by decide, fun hyp cbie => envMask_lpe hyp cbie s⟩
  · exact ⟨by decide, fun hyp cbie => envMask_cbcfe hyp cbie s⟩
  · exact ⟨by decide, fun hyp cbie => envMask_cbze hyp cbie s⟩

/-! ## CBIE of `senvcfg` and `henvcfg` -/

section
variable {s : State} {pos : Nat} (h : pos = 4 ∨ pos = 5)
include h

theorem envMask_cbieBit (hyp cbie : Bool) : (envMask hyp cbie s).getLsbD pos = cbie := by
  rcases h with rfl | rfl
  · exact (envMask_cbie hyp cbie s).1
  · exact (envMask_cbie hyp cbie s).2

theorem readCsr_senvcfg_cbieBit : (readCsr .senvcfg s).getLsbD pos = (s.cfg.zicbom && s.senvcfg.getLsbD pos) := by
  rw [readCsr, getLsbD_lowView_reached (.inl (by omega)), getLsbD_senvcfgView, envMask_cbieBit h, Bool.and_comm]

theorem readCsr_henvcfg_cbieBit : (readCsr .henvcfg s).getLsbD pos = (s.cfg.zicbom && s.henvcfg.getLsbD pos) := by
  rw [readCsr, getLsbD_lowView_reached (.inl (by omega)), getLsbD_henvcfgView, envMask_cbieBit h, Bool.and_comm]

/-- A write of either register stores CBIE where the value is storable, and else keeps it (R126, log 16). -/
theorem getLsbD_envWrite_cbieBit (hyp : Bool) (old : BitVec 64) (w : XWord) :
    (envWrite hyp old (presentLow s.cfg old w) s).getLsbD pos =
      if s.cfg.zicbom && cbieStorable s.cfg (rawCbie w) then w.getLsbD pos else old.getLsbD pos := by
  simp only [envWrite, rawCbie_presentLow, BitVec.getLsbD_or, BitVec.getLsbD_and, BitVec.getLsbD_not,
    envMask_cbieBit h, getLsbD_presentLow_reached (c := s.cfg) (.inl (show pos < 32 by omega)),
    show pos < 64 by omega]
  cases s.cfg.zicbom && cbieStorable s.cfg (rawCbie w) <;> simp

end

/-- The values of CBIE that such a write stores. -/
theorem cbieStored_iff (c : HartConfig) (b : BitVec 2) :
    (c.zicbom && cbieStorable c b) = true ↔
      c.zicbom = true ∧ (b = 0#2 ∨ b = 1#2 ∨ (b = 3#2 ∧ c.forceUpgradeCboInvalToFlush = false)) := by
  simp [cbieStorable, or_assoc, and_comm]

/-! ## SDT -/

theorem getLsbD_placeBit {pos i : Nat} (hi : i < 64) (b : Bool) :
    (placeBit pos b).getLsbD i = (b && decide (i = pos)) := by
  rw [placeBit, getLsbD_maskIf]
  by_cases h : i = pos
  · subst h; simp [hi]
  · rw [getLsbD_one_shiftLeft_other h, decide_eq_false h]

theorem readCsr_sstatus_sdt (s : State) : (readCsr .sstatus s).getLsbD 24 = sdtView s := by
  simp only [readCsr, sstatusView, BitVec.getLsbD_or, getLsbD_placeBit (i := 24) (by decide)]
  simp

theorem readCsr_vsstatus_sdt (s : State) : (readCsr .vsstatus s).getLsbD 24 = vsSdtView s := by
  rw [readCsr, vsstatusView, getLsbD_placeBit (by decide)]
  simp

theorem writeSstatusFields_sdt (w : XWord) (s : State) (f : Mstatus) :
    (writeSstatusFields w s f).sdt = if s.cfg.sImplemented && dteOn s then w.getLsbD 24 else f.sdt := by
  unfold writeSstatusFields
  cases s.cfg.sImplemented <;> rfl

theorem writeCsr_sstatus_sdt (w : XWord) (s : State) :
    (writeCsr .sstatus w s).mstatus.sdt = if s.cfg.sImplemented && dteOn s then w.getLsbD 24 else s.mstatus.sdt :=
  writeSstatusFields_sdt ..

theorem writeCsr_mstatus_sdt (w : XWord) (s : State) :
    (writeCsr .mstatus w s).mstatus.sdt = if s.cfg.sImplemented && dteOn s then w.getLsbD 24 else s.mstatus.sdt :=
  writeSstatusFields_sdt ..

theorem writeCsr_vsstatus_sdt (w : XWord) (s : State) :
    (writeCsr .vsstatus w s).vsSdt = if dteOn s then w.getLsbD 24 else s.vsSdt := rfl

theorem sdtView_writeCsr_sstatus (w : XWord) (s : State) :
    sdtView (writeCsr .sstatus w s) = (dteOn s && (writeCsr .sstatus w s).mstatus.sdt) := rfl

theorem vsSdtView_writeCsr_vsstatus (w : XWord) (s : State) :
    vsSdtView (writeCsr .vsstatus w s) = (dteOn s && (writeCsr .vsstatus w s).vsSdt) := rfl

/-- Settles O25: every clause but those of CBIE and SDT is one bit of the mask that reads and writes share. -/
theorem coupledFieldsReadZeroAndIgnoreWrites : Obligations.CoupledFieldsReadZeroAndIgnoreWrites := by
  intro s w
  refine ⟨fun pos h => ?upperOff, fun pos h => ?upperOn, fun h => ?sseOff, fun h => ?sseOn, fun h => ?dteOff,
    fun h => ?dteOn, fun pos held h => ?uncoupled, fun pos h => ?cbie⟩
  case upperOff =>
    obtain ⟨hlo, hlt, hmask⟩ := envMask_upperField h
    exact ⟨readCsr_henvcfg_bit_off hmask, readCsr_henvcfgh_bit hlo hlt hmask,
      writeCsr_henvcfg_bit_off hlt hmask w, writeCsr_henvcfgh_bit hlo hlt hmask w⟩
  case upperOn =>
    obtain ⟨hlo, hlt, hmask⟩ := envMask_upperField h
    exact ⟨fun hx =>
        ⟨writeCsr_henvcfg_bit (.inr hx) hlt hmask w, readCsr_writeCsr_henvcfg_bit (.inr hx) hlt hmask w⟩,
      fun _ => ⟨writeCsr_henvcfgh_bit hlo hlt hmask w, readCsr_writeCsr_henvcfgh_bit hlo hlt hmask w⟩⟩
  case sseOff =>
    have hmask : ∀ hyp cbie, (envMask hyp cbie s).getLsbD 3 = false := fun _ _ => (envMask_sse ..).trans h
    exact ⟨readCsr_henvcfg_bit_off (hmask true), readCsr_senvcfg_bit (by decide) (hmask false),
      writeCsr_henvcfg_bit_off (by decide) (hmask true) w, writeCsr_senvcfg_bit (by decide) (hmask false) w⟩
  case sseOn =>
    have hmask : ∀ hyp cbie, (envMask hyp cbie s).getLsbD 3 = true := fun _ _ => (envMask_sse ..).trans h
    exact ⟨writeCsr_henvcfg_bit (.inl (by decide)) (by decide) (hmask true) w,
      writeCsr_senvcfg_bit (by decide) (hmask false) w,
      readCsr_writeCsr_henvcfg_bit (.inl (by decide)) (by decide) (hmask true) w,
      readCsr_writeCsr_senvcfg_bit (by decide) (hmask false) w⟩
  case dteOff =>
    refine ⟨?_, ?_, ?_, ?_, ?_⟩
    · rw [readCsr_sstatus_sdt, sdtView, h, Bool.false_and]
    · rw [readCsr_vsstatus_sdt, vsSdtView, h, Bool.false_and]
    · simp [writeCsr_sstatus_sdt, h]
    · simp [writeCsr_mstatus_sdt, h]
    · simp [writeCsr_vsstatus_sdt, h]
  case dteOn =>
    have hv : (writeCsr .vsstatus w s).vsSdt = w.getLsbD 24 := by rw [writeCsr_vsstatus_sdt, if_pos h]
    refine ⟨fun hS => ?_, hv, ?_⟩
    · have hs : (writeCsr .sstatus w s).mstatus.sdt = w.getLsbD 24 := by
        rw [writeCsr_sstatus_sdt, hS, h]; rfl
      exact ⟨hs, by rw [readCsr_sstatus_sdt, sdtView_writeCsr_sstatus, h, hs, Bool.true_and]⟩
    · rw [readCsr_vsstatus_sdt, vsSdtView_writeCsr_vsstatus, h, hv, Bool.true_and]
  case uncoupled =>
    obtain ⟨hlo, hmask⟩ := envMask_uncoupledField h
    exact ⟨readCsr_senvcfg_bit hlo (hmask false), readCsr_henvcfg_bit (.inl hlo) (hmask true),
      writeCsr_senvcfg_bit hlo (hmask false) w, writeCsr_henvcfg_bit (.inl hlo) (by omega) (hmask true) w⟩
  case cbie =>
    refine ⟨readCsr_senvcfg_cbieBit h, readCsr_henvcfg_cbieBit h, fun hs => ?_, fun hs => ?_⟩
    · have hst := (cbieStored_iff s.cfg (rawCbie w)).2 hs
      exact ⟨(getLsbD_envWrite_cbieBit h ..).trans (if_pos hst), (getLsbD_envWrite_cbieBit h ..).trans (if_pos hst)⟩
    · have hst := mt (cbieStored_iff s.cfg (rawCbie w)).1 hs
      exact ⟨(getLsbD_envWrite_cbieBit h ..).trans (if_neg hst), (getLsbD_envWrite_cbieBit h ..).trans (if_neg hst)⟩

end Sys2Proof.Machine
end

section
/-! PROOFS. Memory and a step: what a translation answers and changes, the decoder on an encoding, the fetch case by case,
and what the fetch keeps. -/

namespace Sys2Proof.Machine

/-! ## Translation -/

/-- `satp.MODE` Bare (R169, log 51). -/
theorem atpOn_of_bare {c : HartConfig} {v : XWord}
    (h : (c.xlen = .rv64 ∧ v.extractLsb' 60 4 = 0#4) ∨ (c.xlen = .rv32 ∧ v.getLsbD 31 = false)) : atpOn c v = false := by
  rcases h with ⟨hx, hv⟩ | ⟨hx, hv⟩
  · simp [atpOn, hx, hv]
  · simpa [atpOn, hx] using hv

theorem translationOn_of_atpOff {mode : Mode} {s : State} (ha : atpOn s.cfg s.satp = false)
    (hm : mode = .s ∨ mode = .u) : translationOn mode s = false := by
  rcases hm with rfl | rfl
  · exact ha
  · simp [translationOn, ha]

/-- A rejected PTE of the walk is the page fault of the access. -/
theorem translate_of_ptesFail {kind : AccessKind} {mode : Mode} {s : State} {e : Exception}
    (hon : translationOn mode s = true) (h : ptesFail kind mode.virt (Config.walk s.draws kind).ptes s e) (va : XWord) :
    translate kind mode va s = .error e := by
  simp [translate, hon, checkPtes_of_fail h]

/-- Where all PTEs pass, the walk answers its address or raises the fault of its own. -/
theorem translate_of_ptesPass {kind : AccessKind} {mode : Mode} {s t : State} (hon : translationOn mode s = true)
    (h : ptesPass kind mode.virt (Config.walk s.draws kind).ptes s t) (va : XWord) :
    translate kind mode va s =
      match (Config.walk s.draws kind).ownFault with
      | none => .ok ((Config.walk s.draws kind).pa, t)
      | some g => .error (pageFault kind (mode.virt && g)) := by
  cases hw : (Config.walk s.draws kind).ownFault <;> simp [translate, hon, checkPtes_of_pass h, hw]

/-- Settles O35: modes that are not translated change nothing; a translation that answers changes memory alone, by the
PTEs that need A or D; and the walk's PTEs, judged in order, decide what it answers. -/
theorem translationChangesOnlyMemory : Obligations.TranslationChangesOnlyMemory := by
  refine ⟨fun s kind va => ⟨fun hm => ?machine, fun hbare hm => ?bare⟩, fun s s' kind mode va pa h => ?answers,
    fun s kind mode va ht => ⟨fun e hf => ?fails, fun t hp => ?passes⟩⟩
  case machine => exact translate_off_m hm kind va
  case bare => exact translate_off (translationOn_of_atpOff (atpOn_of_bare hbare) hm) kind va
  case answers =>
    have hbytes := readByte_translate h
    obtain ⟨m, rfl, hwf⟩ := translate_ok h
    exact ⟨fun _ => rfl, by simp [sameSpecial, sameStatus, sameTrapRegs, sameEnvironment, sameUnits], ⟨rfl, rfl⟩, rfl,
      hwf, hbytes⟩
  case fails => exact translate_of_ptesFail (translationOn_of_translated ht) hf va
  case passes => exact translate_of_ptesPass (translationOn_of_translated ht) hp va

/-! ## The decoder on an encoding -/

/-- R100: bits 1:0 of an encoding are 11 exactly where it has four bytes. -/
theorem isWide_encodeWord (i : Instr) : isWide (byteOf (encodeWord i) 0) = decide (i.size = 4) := by
  cases i
  case csrrw => exact Laws.LengthBits.csrrw ..
  case csrrs => exact Laws.LengthBits.csrrs ..
  case csrrc => exact Laws.LengthBits.csrrc ..
  case csrrwi => exact Laws.LengthBits.csrrwi ..
  case csrrsi => exact Laws.LengthBits.csrrsi ..
  case csrrci => exact Laws.LengthBits.csrrci ..
  case fence => exact Laws.LengthBits.fence ..
  case amoW => exact Laws.LengthBits.amoW ..
  case amoD => exact Laws.LengthBits.amoD ..
  case sfenceVma => exact Laws.LengthBits.sfenceVma ..
  case cboInval => exact Laws.LengthBits.cboInval ..
  case cboClean => exact Laws.LengthBits.cboClean ..
  case cboFlush => exact Laws.LengthBits.cboFlush ..
  case cboZero => exact Laws.LengthBits.cboZero ..
  case lpad => exact Laws.LengthBits.lpad ..
  case ssamoswapW => exact Laws.LengthBits.ssamoswapW ..
  case ssamoswapD => exact Laws.LengthBits.ssamoswapD ..
  case sspush => exact Laws.LengthBits.sspush ..
  case sspopchk => exact Laws.LengthBits.sspopchk ..
  case ssrdp => exact Laws.LengthBits.ssrdp ..
  case cSspush => exact Laws.LengthBits.cSspush
  case cSspopchk => exact Laws.LengthBits.cSspopchk

/-- The only instructions of two bytes (R108). -/
theorem eq_of_size_ne_four {i : Instr} (h : i.size ≠ 4) : i = .cSspush ∨ i = .cSspopchk := by
  cases i
  case cSspush => exact .inl rfl
  case cSspopchk => exact .inr rfl
  all_goals exact absurd rfl h

theorem encode_wide {i : Instr} (h : i.size = 4) : encode i = wordBytes (encodeWord i) := by
  rw [encode, h]; rfl

theorem isLinkReg_ne_zero {r : RegIdx} (h : isLinkReg r = true) : r ≠ 0#5 := by
  rintro rfl; cases h

/-- The decoder reads a well-formed instruction of four bytes back from its word, format by format (R101 to R108). -/
theorem decodeWord_encodeWord {i : Instr} (h : i.wellFormed = true) (hs : i.size = 4) :
    decodeWord (encodeWord i) = .ok i := by
  cases i
  case csrrw | csrrs | csrrc | csrrwi | csrrsi | csrrci =>
    simp [encodeWord, decodeWord_iType_system, decodeSystem]
  case sfenceVma => simp [encodeWord, decodeWord_rType_system, decodeSystem]
  case sspush rs2 =>
    have hl : isLinkReg rs2 = true := h
    simp [encodeWord, decodeWord_rType_system, decodeSystem, hl]
  case sspopchk rs1 =>
    have hl : isLinkReg rs1 = true := h
    simp [encodeWord, decodeWord_iType_system, decodeSystem, hl, isLinkReg_ne_zero hl,
      show immMopR28.extractLsb' 5 7 ≠ funct7MopRr7 by decide]
  case ssrdp rd =>
    have hrd : rd ≠ 0#5 := by simpa [Instr.wellFormed] using h
    simp [encodeWord, decodeWord_iType_system, decodeSystem, hrd]
  case fence | cboInval | cboClean | cboFlush | cboZero =>
    simp [encodeWord, decodeWord_iType_miscMem, decodeMiscMem]
  case amoW funct5 _ _ _ _ _ | amoD funct5 _ _ _ _ _ =>
    have hf : funct5 ≠ ssamoswapFunct5 := by simpa [Instr.wellFormed] using h
    simp [encodeWord, decodeWord_rType_amo, decodeAmo, hf]
  case ssamoswapW | ssamoswapD => simp [encodeWord, decodeWord_rType_amo, decodeAmo]
  case lpad => simp [encodeWord, decodeWord_uType]
  case cSspush | cSspopchk => cases hs

/-- A well-formed instruction is what its bytes decode to, whatever follows them. -/
theorem decode_encode {i : Instr} (h : i.wellFormed = true) (rest : List Byte) :
    decode (encode i ++ rest) = .ok (i, rest) := by
  by_cases hs : i.size = 4
  case pos =>
    have hw : isWide (byteOf (encodeWord i) 0) = true := by rw [isWide_encodeWord, hs]; rfl
    have hd := decode_wide (b1 := byteOf (encodeWord i) 1) (b2 := byteOf (encodeWord i) 2)
      (b3 := byteOf (encodeWord i) 3) rest hw
    rw [wordOf_bytes, decodeWord_encodeWord h hs] at hd
    rw [encode_wide hs]; exact hd
  case neg => rcases eq_of_size_ne_four hs with rfl | rfl <;> rfl

/-! ## The fetch, case by case -/

/-- MISALIGNED_POLICY stops the fetch (R84). -/
theorem fetch_misaligned {s : State} {e : Exception} (h : misalignedFault s.cfg .fetch 2 s.pc = some e) :
    fetch s = .raises e := by simp [fetch, h]

/-- The translation of the fetch ends in a page fault (R165, R233). -/
theorem fetch_pageFault {s : State} {e : Exception} (ha : misalignedFault s.cfg .fetch 2 s.pc = none)
    (ht : translate .fetch s.priv s.pc s = .error e) : fetch s = .raises e := by simp [fetch, ha, ht]

section
variable {s s' : State} {pa : XWord} (ha : misalignedFault s.cfg .fetch 2 s.pc = none)
  (ht : translate .fetch s.priv s.pc s = .ok (pa, s'))
include ha ht

theorem fetch_unwritten (h : readBytes (fetchMemory s') pa 2 = none) : fetch s = .unwritten pa.toNat := by
  simp [fetch, ha, ht, h]

/-- Two bytes whose first is not wide (R100). -/
theorem fetch_narrow {b0 b1 : Byte} (h : readBytes (fetchMemory s') pa 2 = some [b0, b1]) (hn : isWide b0 = false) :
    fetch s = .bytes [b0, b1] s' := by simp [fetch, ha, ht, h, hn]

/-- Four bytes whose first is wide (R100). -/
theorem fetch_wide {b0 b1 b2 b3 : Byte} (h : readBytes (fetchMemory s') pa 4 = some [b0, b1, b2, b3])
    (hw : isWide b0 = true) : fetch s = .bytes [b0, b1, b2, b3] s' := by
  have h2 : readBytes (fetchMemory s') pa 2 = some [b0, b1] := readBytes_two_of_four h
  simp [fetch, ha, ht, h2, h, hw]

/-- The bytes of an instruction, of either length, are fetched whole. -/
theorem fetch_encode {i : Instr} (h : readBytes (fetchMemory s') pa i.size = some (encode i)) :
    fetch s = .bytes (encode i) s' := by
  by_cases hs : i.size = 4
  case pos =>
    rw [hs, encode_wide hs] at h
    rw [encode_wide hs]
    exact fetch_wide ha ht h (by rw [isWide_encodeWord, hs]; rfl)
  case neg => rcases eq_of_size_ne_four hs with rfl | rfl <;> exact fetch_narrow ha ht h rfl

end

/-! ## A step without an interrupt -/

section
variable {s : State} (hc : configLegal s.cfg = true) (hi : interruptTaken s = none)
include hc hi

theorem step_eq_stepInstr : step s = tickOutcome (stepInstr s) := by simp [step, hc, hi]

theorem step_of_decode {s' : State} {bs rest : List Byte} {i : Instr} (hf : fetch s = .bytes bs s')
    (hd : decode bs = .ok (i, rest)) : step s = tickOutcome (exec i s') := by
  simp [step_eq_stepInstr hc hi, stepInstr, hf, hd]

theorem step_of_decodeOther {s' : State} {bs : List Byte} {e : DecodeError} {i : HartInstr} {w : BitVec 32}
    (hf : fetch s = .bytes bs s') (he : decode bs = .error e) (hd : decodeOther bs = some (i, w)) :
    step s = tickOutcome (execHart i w s') := by
  simp [step_eq_stepInstr hc hi, stepInstr, hf, he, execOther, hd]

theorem step_of_raises {e : Exception} (hf : fetch s = .raises e) :
    step s = tickOutcome (.next (raise e s.pc s)) := by
  simp [step_eq_stepInstr hc hi, stepInstr, hf]

theorem step_of_unwritten {a : Nat} (hf : fetch s = .unwritten a) : step s = .fault (.unwrittenFetch a) := by
  simp [step_eq_stepInstr hc hi, stepInstr, hf, tickOutcome]

end

/-- Settles O4: each result of the fetch decides the step. -/
theorem stepRunsTheDecodedInstruction : Obligations.StepRunsTheDecodedInstruction := by
  intro s hc hi
  refine ⟨fun s' bs rest i hf hd => step_of_decode hc hi hf hd,
    fun s' bs e i w hf he hd => step_of_decodeOther hc hi hf he hd,
    fun e h => step_of_raises hc hi (fetch_misaligned h), fun ha => ?_⟩
  cases ht : translate .fetch s.priv s.pc s with
  | error e => exact step_of_raises hc hi (fetch_pageFault ha ht)
  | ok p => exact fun hr => step_of_unwritten hc hi (fetch_unwritten ha ht hr)

/-! ## What the fetch keeps -/

theorem fetchMemory_coherent {s : State} (h : s.cfg.fetchCoherent = true) : fetchMemory s = s.mem := if_pos h

/-- Each byte the fetch sees is the one in memory or one it has kept (R93, log 37). -/
theorem readByte_fetchMemory {s : State} (h : memoryWf s.fetchCache = true) (a : Nat) :
    readByte (fetchMemory s) a = readByte s.mem a ∨ readByte (fetchMemory s) a = readByte s.fetchCache a := by
  unfold fetchMemory
  split
  · exact .inl rfl
  · rw [readByte_overlay h]
    split
    · exact .inl rfl
    · exact .inr rfl

theorem ExecEffect.fetchCache_eq {i : Instr} {s t : State} (h : ExecEffect i s t) : t.fetchCache = s.fetchCache := by
  cases h with
  | raised e v => exact raise_fetchCache e v s
  | csrRead | csrWritten | updated => simp
  | closed | landingPad | shadowStack => rfl

theorem HartStep.fetchCache_eq {i : HartInstr} {s t : State} (h : HartStep i s t) : t.fetchCache = s.fetchCache := by
  cases h with
  | raised e w => exact raise_fetchCache ..
  | mop => simp
  | mret | sret | sretV | fenced => rfl

/-- Before its end, a step leaves what the fetch keeps alone. -/
theorem StepEffect.fetchCache_eq {s u : State} (h : StepEffect s u) : u.fetchCache = s.fetchCache := by
  cases h with
  | interrupt toS => exact takeTrap_fetchCache ..
  | fetchFault e => exact raise_fetchCache ..
  | ran hf _ h => obtain ⟨m, rfl, -⟩ := fetch_bytes hf; exact h.fetchCache_eq
  | hart hf _ _ h => obtain ⟨m, rfl, -⟩ := fetch_bytes hf; exact h.fetchCache_eq

/-- At the end of a step, a byte is dropped, or it is one kept before or the one memory has now (R93, log 37). -/
theorem readByte_tick_fetchCache {s : State} (h : memoryWf s.fetchCache = true) (a : Nat) :
    readByte (tick s).fetchCache a = none ∨ readByte (tick s).fetchCache a = readByte s.fetchCache a ∨
      readByte (tick s).fetchCache a = readByte s.mem a := by
  have hcache : (tick s).fetchCache = if s.cfg.fetchCoherent then s.fetchCache else refetched s := rfl
  rw [hcache]
  split
  · exact .inr (.inl rfl)
  · rcases readByte_keepBytes s.mem (dropAll s.fetchCache (Config.fetchDrops s.draws)) (Config.fetchKeeps s.draws) a
      with hkept | hmem
    · rw [readByte_dropAll h] at hkept
      split at hkept
      · exact .inl hkept
      · exact .inr (.inl hkept)
    · exact .inr (.inr hmem)

/-- Settles O5: an untranslated fetch sees the whole encoding at `pc`, which decodes to its instruction; and what the
fetch keeps changes only at the end of a step. -/
theorem stepRunsTheInstructionAtPc : Obligations.StepRunsTheInstructionAtPc := by
  intro s
  refine ⟨fun i hc hi hoff ha hwf hb => ?runs, fetchMemory_coherent,
    fun hwf a => ⟨readByte_fetchMemory hwf a, fun t ht => ?kept⟩⟩
  case runs =>
    have hf : fetch s = .bytes (encode i) s := fetch_encode ha (translate_off hoff .fetch s.pc) hb
    have hd : decode (encode i) = .ok (i, []) := by simpa using decode_encode hwf []
    exact step_of_decode hc hi hf hd
  case kept =>
    obtain ⟨-, u, rfl, hu⟩ := step_effect ht
    rw [← hu.fetchCache_eq] at hwf ⊢
    exact readByte_tick_fetchCache hwf a

end Sys2Proof.Machine
end

section
/-! PROOFS. The rights of a CSR number: which accesses are an illegal instruction, and the frame of the trap that a denied
access takes. -/

namespace Sys2Proof.Machine

/-! ## A CSR instruction that is denied -/

/-- No trap changes what R241 and R246 keep. -/
theorem trapFrame_raise (e : Exception) (info : XWord) (s : State) : trapFrame s (raise e info s) := by
  have hregs : sameRegs s (raise e info s) := getReg_raise e info s
  have hmem : sameMemory s (raise e info s) := fun _ => by rw [raise_mem]
  refine ⟨hregs, hmem, raise_environment e info s, ?_⟩
  simp [sameLogs]

/-- A denied access is the trap of its exception and nothing else (R246). -/
theorem exec_csr_denied {i : Instr} {n : CsrNum} {s : State} {e : Exception} (hn : csrNumberOf i = some n)
    (hd : csrDenied n (csrWritesOf i) s = some e) :
    ∃ t, exec i s = .next t ∧ t = raise e (instrInfo s.cfg (encodeWord i)) s ∧ trapFrame s t := by
  obtain ⟨reads, f, -, he⟩ := exec_csr hn s
  exact ⟨_, he.trans (csrAccess_denied hd), rfl, trapFrame_raise ..⟩

/-! ## The rights of the number (R111) -/

/-- A write of a read-only number, from any mode: every check before this one raises the same exception. -/
theorem csrDenied_of_readOnly {n : CsrNum} (hr : csrReadOnly n = true) (s : State) :
    csrDenied n true s = some .illegalInstruction := by
  unfold csrDenied
  cases csrLookup n s with
  | none => rfl
  | some r => simp [hr]

/-- An access below the level of the number, outside a virtualised mode: the level and every check before it raise the
same exception. -/
theorem csrDenied_of_level {n : CsrNum} {s : State} (hv : s.priv.virt = false)
    (hl : modeLevel s.cfg s.priv < csrLevel n) (writes : Bool) :
    csrDenied n writes s = some .illegalInstruction := by
  unfold csrDenied
  cases csrLookup n s with
  | none => rfl
  | some r => simp [hv, hl]

/-- Settles O18: either right denies the access with the same exception, whatever the number names. -/
theorem csrRightsAreEnforced : Obligations.CsrRightsAreEnforced := by
  rintro s i n hn (⟨hv, hl⟩ | ⟨hw, hr⟩)
  · exact exec_csr_denied hn (csrDenied_of_level hv hl _)
  · have hro : csrReadOnly n = true := by simpa [csrReadOnly] using hr
    exact exec_csr_denied hn (hw ▸ csrDenied_of_readOnly hro s)

end Sys2Proof.Machine
end

section
/-! PROOFS. The six CSR instructions on `menvcfg`: what the register that a number names shows and stores, and what
an access to it leaves. -/

namespace Sys2Proof.Machine

/-! ## The register behind a number of `menvcfg` -/

/-- A number of `menvcfg` names one of its two halves: a read shows the view through the number (R123), and a write is a
write of `menvcfg` with the value presented through it (R124). -/
theorem csrLookup_of_namesMenvcfg {s : State} {n : CsrNum} (hl : menvcfghNumberLegal s.cfg.csrMenvcfgh = true)
    (hu : s.cfg.uImplemented = true) (hn : namesMenvcfg s.cfg n) :
    ∃ r, (r = .menvcfg ∨ r = .menvcfgh) ∧ csrLookup n s = some r ∧ csrReadOnly n = false ∧
      readCsr r s = viewThrough s.cfg n s.menvcfg ∧
      ∀ w, writeCsr r w s = writeMenvcfg (presentedThrough s.cfg n s.menvcfg w) s := by
  rcases hn with rfl | ⟨rfl, hx⟩
  · exact ⟨.menvcfg, .inl rfl, csrLookup_menvcfg_number hu, by decide, rfl, fun _ => rfl⟩
  · have h0 : s.cfg.csrMenvcfgh ≠ 0x30A#12 :=
      ((menvcfghNumberLegal_cases hl).2.2 _ (by simp [machineNumbers])).symm
    exact ⟨.menvcfgh, .inr rfl, csrLookup_menvcfgh_number hu hx hl, csrReadOnly_menvcfgh_number hl,
      (if_neg h0).symm, fun w => by rw [presentedThrough, if_neg h0]; rfl⟩

/-- A view has XLEN bits (R123). -/
theorem trunc_viewThrough (c : HartConfig) (n : CsrNum) (v : BitVec 64) :
    trunc c (viewThrough c n v) = viewThrough c n v := by
  unfold viewThrough
  split
  · exact trunc_trunc c v
  · exact trunc_highView c v

/-! ## An access to `menvcfg` -/

/-- What a CSR instruction that names `menvcfg` or `menvcfgh` does in M-mode (R128 to R133): it stores its value where it
writes (R134), and leaves what the two frames say. -/
theorem exec_csr_of_namesMenvcfg {i : Instr} {n : CsrNum} {s : State} (hi : csrNumberOf i = some n)
    (hl : menvcfghNumberLegal s.cfg.csrMenvcfgh = true) (hm : s.priv = .m) (hu : s.cfg.uImplemented = true)
    (hn : namesMenvcfg s.cfg n) :
    ∃ t, exec i s = .next t ∧
      t.menvcfg = (if csrWritesOf i then
        swWrite s.cfg s.menvcfg (presentedThrough s.cfg n s.menvcfg (csrValueOf i (viewThrough s.cfg n s.menvcfg) s))
        else s.menvcfg) ∧
      csrFrame (csrRdOf i) (viewThrough s.cfg n s.menvcfg) s t ∧ menvcfgFrame s t := by
  obtain ⟨r, hr, hlook, hro, hread, hwrite⟩ := csrLookup_of_namesMenvcfg hl hu hn
  refine ⟨csrCompleted i r s, exec_csr_of_m hi hm hlook hro, ?_, ?_, menvcfgFrame_csrCompleted i hr s⟩
  · rw [csrCompleted, hread, hwrite]
    split <;> simp
  · have hf := csrFrame_csrCompleted i r s
    rwa [hread, trunc_viewThrough] at hf

/-- Settles O13: the three register forms are accesses to `menvcfg`; CSRRS and CSRRC write unless `rs1` is x0 (R134). -/
theorem registerFormsAccessMenvcfg : Obligations.RegisterFormsAccessMenvcfg := by
  intro s n rd rs1 hl hm hu hn
  have access {i : Instr} (hi : csrNumberOf i = some n) := exec_csr_of_namesMenvcfg hi hl hm hu hn
  refine ⟨?csrrw, ?csrrs, ?csrrc⟩
  case csrrw => exact access (i := .csrrw rd n rs1) rfl
  case csrrs => simpa [csrWritesOf, csrValueOf, csrRdOf] using access (i := .csrrs rd n rs1) rfl
  case csrrc => simpa [csrWritesOf, csrValueOf, csrRdOf] using access (i := .csrrc rd n rs1) rfl

/-- Settles O14: the three immediate forms are accesses to `menvcfg`; CSRRSI and CSRRCI write unless `uimm` is 0
(R134). -/
theorem immediateFormsAccessMenvcfg : Obligations.ImmediateFormsAccessMenvcfg := by
  intro s n rd uimm hl hm hu hn
  have access {i : Instr} (hi : csrNumberOf i = some n) := exec_csr_of_namesMenvcfg hi hl hm hu hn
  refine ⟨?csrrwi, ?csrrsi, ?csrrci⟩
  case csrrwi => exact access (i := .csrrwi rd n uimm) rfl
  case csrrsi => simpa [csrWritesOf, csrValueOf, csrRdOf] using access (i := .csrrsi rd n uimm) rfl
  case csrrci => simpa [csrWritesOf, csrValueOf, csrRdOf] using access (i := .csrrci rd n uimm) rfl

end Sys2Proof.Machine
end

section
/-! PROOFS. FENCE and the atomics under FIOM: the sets a FENCE hands on, what an atomic that is performed does, and
SSAMOSWAP and SSRDP where Zicfiss is active. -/

namespace Sys2Proof.Machine

/-! ## The frame of an instruction that writes one register -/

/-- `rd` and the program counter are no special registers. -/
theorem sameSpecial_advance_setReg {s t : State} (h : sameSpecial s t) (n : Nat) (rd : RegIdx) (v : XWord) :
    sameSpecial s (advance n (setReg rd v t)) := by
  simpa [sameSpecial, sameStatus, sameTrapRegs, sameEnvironment, sameUnits] using h

theorem sameSpecial_refl (s : State) : sameSpecial s s := by
  simp [sameSpecial, sameStatus, sameTrapRegs, sameEnvironment, sameUnits]

/-- Of the general registers only `rd` changes (R67). -/
theorem sameRegsBut_advance_setReg {s t : State} (h : sameRegs s t) (n : Nat) (rd : RegIdx) (v : XWord) :
    sameRegsBut rd s (advance n (setReg rd v t)) := fun q hq => by
  rw [getReg_advance, getReg_setReg_other hq, h q]

/-! ## FENCE -/

/-- R146 and R147 in one equation: device input adds memory reads and device output memory writes, where `fiom_active`
holds. -/
theorem effectiveSet_eq (s : State) (a : AccessSet) :
    effectiveSet s a = ⟨a.i, a.o, a.r || (fiomActive s && a.i), a.w || (fiomActive s && a.o)⟩ := by
  unfold effectiveSet impliedSet
  cases fiomActive s <;> simp

theorem exec_fence (fm : BitVec 4) (pred succ : AccessSet) (rs1 rd : RegIdx) (s : State) :
    exec (.fence fm pred succ rs1 rd) s = .next (advance 4
      { s with ordering := .fence fm (effectiveSet s pred) (effectiveSet s succ) :: s.ordering }) := rfl

/-- Settles O29: FENCE adds its two effective sets to the list the base ordering model is handed, and changes nothing
else but `pc`. -/
theorem fenceHandsOnItsEffectiveSets : Obligations.FenceHandsOnItsEffectiveSets := by
  intro s fm pred succ rs1 rd
  refine ⟨_, exec_fence fm pred succ rs1 rd s, ?_, rfl, fun _ => rfl, sameSpecial_refl s, fun _ => rfl, rfl⟩
  rw [advance_ordering, effectiveSet_eq, effectiveSet_eq]

/-! ## An atomic that is performed -/

/-- R149 and R150: the kind of its own region, and memory beside device I/O where the three parts of the condition
hold. -/
theorem orderedKinds_eq (s : State) (pa : XWord) (aq rl : Bool) :
    orderedKinds s pa aq rl =
      ⟨isDevice s.cfg pa, !isDevice s.cfg pa || (fiomActive s && (aq || rl))⟩ := by
  unfold orderedKinds
  cases isDevice s.cfg pa <;> rfl

/-- An atomic stores at most its own bytes. -/
theorem readByte_atomicMemory_outside {n : Nat} {pa : XWord} {b : Nat} (h : ¬ inSpan pa n b) (kind : AccessKind)
    (draw : Nat) (m : Memory) : readByte (atomicMemory n kind pa draw m) b = readByte m b := by
  cases kind with
  | fetch => rfl
  | load => rfl
  | store => exact readByte_writeBytes_outside m pa _ b (by rwa [length_freeBytes])

theorem atomicKind_lr : atomicKind 0b00010#5 = .load := rfl

/-- What an atomic of `n` bytes performed at `pa` makes of `s`, where `s'` is `s` after the translation of its
operand. -/
structure AtomicPerformed (n : Nat) (kind : AccessKind) (aq rl : Bool) (rd : RegIdx) (pa : XWord) (s s' t : State) :
    Prop where
  ordering : t.ordering = .atomic aq rl
    ⟨isDevice s.cfg pa, !isDevice s.cfg pa || (fiomActive s && (aq || rl))⟩ :: s.ordering
  regs : sameRegsBut rd s t
  memory : sameMemoryOutside pa n s' t
  loads : kind = .load → sameMemory s' t
  pc : t.pc = trunc s.cfg (s.pc + 4#64)
  special : sameSpecial s t
  cacheOps : t.cacheOps = s.cacheOps

/-- An atomic whose operand answers is performed: the translation has changed memory alone, and the atomic adds its own
bytes, `rd`, and the kinds it is ordered as. -/
theorem atomicAccess_performed {n : Nat} {kind : AccessKind} {rs1 : RegIdx} {s s' : State} {pa : XWord}
    (h : dataAccess kind n (getReg s rs1) s = .ok (pa, s')) (aq rl : Bool) (rd : RegIdx) :
    ∃ t, atomicAccess n kind aq rl rs1 rd s = .next t ∧ AtomicPerformed n kind aq rl rd pa s s' t := by
  refine ⟨_, atomicAccess_ok h, ?_⟩
  obtain ⟨m, rfl, -⟩ := translate_ok (dataAccess_ok h)
  constructor
  case ordering => simp [orderedKinds_eq]
  case regs => exact sameRegsBut_advance_setReg (fun _ => rfl) _ _ _
  case memory => exact fun b hb => by simp [readByte_atomicMemory_outside hb]
  case loads => rintro rfl b; simp [atomicMemory]
  case pc => simp
  case special =>
    apply sameSpecial_advance_setReg
    exact sameSpecial_refl s
  case cacheOps => simp

/-! ## The atomics of the base ISA -/

theorem exec_amoW (funct5 : BitVec 5) (aq rl : Bool) (rs2 rs1 rd : RegIdx) (s : State) :
    exec (.amoW funct5 aq rl rs2 rs1 rd) s = atomicAccess 4 (atomicKind funct5) aq rl rs1 rd s := rfl

theorem exec_amoD_rv64 {s : State} (hx : s.cfg.xlen = .rv64) (funct5 : BitVec 5) (aq rl : Bool)
    (rs2 rs1 rd : RegIdx) :
    exec (.amoD funct5 aq rl rs2 rs1 rd) s = atomicAccess 8 (atomicKind funct5) aq rl rs1 rd s := by
  simp only [exec, execAmoD, hx]

theorem exec_amoD_rv32 {s : State} (hx : s.cfg.xlen = .rv32) (funct5 : BitVec 5) (aq rl : Bool)
    (rs2 rs1 rd : RegIdx) :
    exec (.amoD funct5 aq rl rs2 rs1 rd) s =
      illegal (encodeWord (.amoD funct5 aq rl rs2 rs1 rd)) s := by
  simp only [exec, execAmoD, hx]

/-- Settles O34: both widths are the atomic access of their size, performed where the operand answers; an LR only
loads. -/
theorem atomicsAreOrderedByFiom : Obligations.AtomicsAreOrderedByFiom := by
  intro s s' pa funct5 aq rl rs2 rs1 rd
  have kindOfLr : funct5 = 0b00010#5 → atomicKind funct5 = .load := fun h => h ▸ atomicKind_lr
  refine ⟨fun h => ?word, fun hx h => ?doubleword, fun hx => exec_amoD_rv32 hx ..⟩
  case word =>
    obtain ⟨t, ht, p⟩ := atomicAccess_performed h aq rl rd
    exact ⟨t, (exec_amoW ..).trans ht, p.ordering, p.regs, p.memory, p.loads ∘ kindOfLr, p.pc, p.special,
      p.cacheOps⟩
  case doubleword =>
    obtain ⟨t, ht, p⟩ := atomicAccess_performed h aq rl rd
    exact ⟨t, (exec_amoD_rv64 hx ..).trans ht, p.ordering, p.regs, p.memory, p.loads ∘ kindOfLr, p.pc, p.special,
      p.cacheOps⟩

/-! ## Where Zicfiss is active -/

/-- SSE is read-only zero without Zicfiss (R53). -/
theorem zicfiss_of_sseOn {s : State} (h : sseOn s = true) : s.cfg.zicfiss = true := by
  simp only [sseOn, fieldSse, Bool.and_eq_true] at h
  exact h.1

/-- An active Zicfiss is one of a hart that has it, in a mode below M (R212, R219). -/
theorem shadowStack_of_active {s : State} (h : shadowStackActive s = true) : shadowStack s = .active := by
  have hsse : sseOn s = true := (Bool.and_eq_true_iff.1 h).1
  have hm : s.priv ≠ .m := fun hm => by simp [shadowStackActive, hm] at h
  simp [shadowStack, zicfiss_of_sseOn hsse, hm, h]

theorem exec_ssamoswapW_active {s : State} (h : shadowStackActive s = true) (aq rl : Bool) (rs2 rs1 rd : RegIdx) :
    exec (.ssamoswapW aq rl rs2 rs1 rd) s = atomicAccess 4 .store aq rl rs1 rd s := by
  simp only [exec, execSsamoswapW, ssamoswap, shadowStack_of_active h]

theorem exec_ssamoswapD_active {s : State} (h : shadowStackActive s = true) (hx : s.cfg.xlen = .rv64) (aq rl : Bool)
    (rs2 rs1 rd : RegIdx) :
    exec (.ssamoswapD aq rl rs2 rs1 rd) s = atomicAccess 8 .store aq rl rs1 rd s := by
  simp only [exec, execSsamoswapD, hx, ssamoswap, shadowStack_of_active h]

/-- "exists only with XLEN = 64" (R218), whether Zicfiss is active or not. -/
theorem exec_ssamoswapD_rv32 {s : State} (hx : s.cfg.xlen = .rv32) (aq rl : Bool) (rs2 rs1 rd : RegIdx) :
    exec (.ssamoswapD aq rl rs2 rs1 rd) s = illegal (encodeWord (.ssamoswapD aq rl rs2 rs1 rd)) s := by
  simp only [exec, execSsamoswapD, hx]

theorem exec_ssrdp_active {s : State} (h : shadowStackActive s = true) (rd : RegIdx) :
    exec (.ssrdp rd) s = .next (advance 4 (setReg rd s.ssp s)) := by
  simp only [exec, execSsrdp, shadowStack_of_active h]

/-- Settles O46: an active SSAMOSWAP is the atomic access of its size as a store, performed where the operand answers,
and SSRDP writes `ssp` to `rd`. -/
theorem activeZicfissCompletes : Obligations.ActiveZicfissCompletes := by
  intro s s' pa aq rl rs2 rs1 rd ha
  refine ⟨fun h => ?word, fun hx h => ?doubleword, fun hx => exec_ssamoswapD_rv32 hx .., ?ssrdp⟩
  case word =>
    obtain ⟨t, ht, p⟩ := atomicAccess_performed h aq rl rd
    exact ⟨t, (exec_ssamoswapW_active ha ..).trans ht, p.pc, p.ordering, p.regs, p.memory, p.special, p.cacheOps⟩
  case doubleword =>
    obtain ⟨t, ht, p⟩ := atomicAccess_performed h aq rl rd
    exact ⟨t, (exec_ssamoswapD_active ha hx ..).trans ht, p.pc, p.ordering, p.regs, p.memory, p.special, p.cacheOps⟩
  case ssrdp =>
    refine ⟨_, exec_ssrdp_active ha rd, by simp, ?_, sameRegsBut_advance_setReg (fun _ => rfl) _ _ _, ?_⟩
    · rw [getReg_advance, getReg_setReg_same]
    · exact ⟨sameSpecial_advance_setReg (sameSpecial_refl s) .., by simp [sameLogs], fun _ => by simp⟩

end Sys2Proof.Machine
end

section
/-! PROOFS. The translation-cache windows: what opens and what closes them; and how a PTE is judged that may be reserved
or needs A or D set. -/

namespace Sys2Proof.Machine

/-! ## What keeps a window open -/

/-- Neither of the two windows, picked by `pbmte` and `adue`, is open in `w` and closed in `v`. -/
def keepsOpen (pbmte adue : Windows → Bool) (w v : Windows) : Prop :=
  (pbmte w = true → pbmte v = true) ∧ (adue w = true → adue v = true)

/-- `keepsOpen` for the windows of the S-stage and the VS-stage. -/
abbrev keepsOpenS : Windows → Windows → Prop := keepsOpen Windows.pbmteS Windows.adueS

/-- `keepsOpen` for the windows of the G-stage. -/
abbrev keepsOpenG : Windows → Windows → Prop := keepsOpen Windows.pbmteG Windows.adueG

section
variable {pbmte adue : Windows → Bool} {w v : Windows}

theorem keepsOpen_of_eq (h : v = w) : keepsOpen pbmte adue w v := h ▸ ⟨id, id⟩

theorem not_keepsOpen (h : (pbmte w = true ∧ pbmte v = false) ∨ (adue w = true ∧ adue v = false)) :
    ¬ keepsOpen pbmte adue w v := by
  rintro ⟨hpbmte, hadue⟩
  rcases h with ⟨ho, hc⟩ | ⟨ho, hc⟩
  · exact absurd (hpbmte ho) (by simp [hc])
  · exact absurd (hadue ho) (by simp [hc])

end

/-- A write of `menvcfg` closes no G-stage window either (R161). -/
theorem writeMenvcfg_keepsOpenG (v : BitVec 64) (s : State) : keepsOpenG s.windows (writeMenvcfg v s).windows := by
  rw [writeMenvcfg_windows]
  exact ⟨fun h => by simp [openedWindows, h], fun h => by simp [openedWindows, h]⟩

/-- No CSR write closes a window. -/
theorem writeCsr_keepsOpen (r : CsrReg) (w : XWord) (s : State) :
    keepsOpenS s.windows (writeCsr r w s).windows ∧ keepsOpenG s.windows (writeCsr r w s).windows := by
  rcases writeCsr_menvcfg_cases r w s with ⟨-, h⟩ | ⟨-, v, h⟩
  · exact ⟨keepsOpen_of_eq h, keepsOpen_of_eq h⟩
  · rw [h]
    exact ⟨writeMenvcfg_closes_no_window v s, writeMenvcfg_keepsOpenG v s⟩

/-- Of the instructions of the table only the full SFENCE.VMA closes a window, and no G-stage one (R160, R161). -/
theorem ExecEffect.keepsOpen {i : Instr} {s t : State} (h : ExecEffect i s t) :
    (i = .sfenceVma 0#5 0#5 ∨ keepsOpenS s.windows t.windows) ∧ keepsOpenG s.windows t.windows := by
  have same (he : t.windows = s.windows) :
      (i = .sfenceVma 0#5 0#5 ∨ keepsOpenS s.windows t.windows) ∧ keepsOpenG s.windows t.windows :=
    ⟨.inr (keepsOpen_of_eq he), keepsOpen_of_eq he⟩
  cases h with
  | raised e v => exact same (raise_windows e v s)
  | csrRead | updated => exact same (by simp)
  | landingPad | shadowStack => exact same rfl
  | csrWritten rd v w =>
    rw [advance_windows, setReg_windows]
    exact ⟨.inr (writeCsr_keepsOpen _ w s).1, (writeCsr_keepsOpen _ w s).2⟩
  | closed hi => exact ⟨.inl hi, id, id⟩

/-- Of the other instructions only the full HFENCE.GVMA closes a window, and it closes G-stage ones (R161). -/
theorem HartStep.keepsOpen {i : HartInstr} {s t : State} (h : HartStep i s t) :
    keepsOpenS s.windows t.windows ∧ (i = .hfenceGvma 0#5 0#5 ∨ keepsOpenG s.windows t.windows) := by
  have same (he : t.windows = s.windows) :
      keepsOpenS s.windows t.windows ∧ (i = .hfenceGvma 0#5 0#5 ∨ keepsOpenG s.windows t.windows) :=
    ⟨keepsOpen_of_eq he, .inr (keepsOpen_of_eq he)⟩
  cases h with
  | raised e w => exact same (raise_windows ..)
  | mret | sret | sretV => exact same rfl
  | mop => exact same (by simp)
  | fenced w hS hG =>
    obtain ⟨hpbmte, hadue⟩ := hS
    refine ⟨⟨hpbmte.trans, hadue.trans⟩, ?_⟩
    by_cases hw : w = s.windows
    · exact .inr (keepsOpen_of_eq hw)
    · exact .inl (hG hw)

theorem fetch_windows {s s' : State} {bs : List Byte} (h : fetch s = .bytes bs s') : s'.windows = s.windows := by
  obtain ⟨m, rfl, -⟩ := fetch_bytes h
  rfl

/-- The step runs the full SFENCE.VMA. -/
def runsFullSfence (s : State) : Prop :=
  ∃ bs s' rest, fetch s = .bytes bs s' ∧ decode bs = .ok (.sfenceVma 0#5 0#5, rest)

/-- The step runs the full HFENCE.GVMA. -/
def runsFullHfence (s : State) : Prop :=
  ∃ bs s' e w, fetch s = .bytes bs s' ∧ decode bs = .error e ∧ decodeOther bs = some (.hfenceGvma 0#5 0#5, w)

/-- A step keeps the windows of each stage open, or runs the fence that closes them. -/
theorem StepEffect.keepsOpen {s u : State} (h : StepEffect s u) :
    (runsFullSfence s ∨ keepsOpenS s.windows u.windows) ∧ (runsFullHfence s ∨ keepsOpenG s.windows u.windows) := by
  cases h with
  | interrupt toS =>
    exact ⟨.inr (keepsOpen_of_eq (takeTrap_windows ..)), .inr (keepsOpen_of_eq (takeTrap_windows ..))⟩
  | fetchFault e => exact ⟨.inr (keepsOpen_of_eq (raise_windows ..)), .inr (keepsOpen_of_eq (raise_windows ..))⟩
  | @ran bs rest i s' _ hf hd h =>
    have hk := h.keepsOpen
    rw [fetch_windows hf] at hk
    obtain ⟨hS, hG⟩ := hk
    refine ⟨hS.imp_left ?_, .inr hG⟩
    rintro rfl
    exact ⟨bs, s', rest, hf, hd⟩
  | @hart bs e i w s' _ hf he hd h =>
    have hk := h.keepsOpen
    rw [fetch_windows hf] at hk
    obtain ⟨hS, hG⟩ := hk
    refine ⟨.inr hS, hG.imp_left ?_⟩
    rintro rfl
    exact ⟨bs, s', e, w, hf, he, hd⟩

/-- Settles O33: everything a step can do keeps the windows of a stage open, but for the one fence of the stage, and the
end of the step leaves them. -/
theorem onlyTheFullFenceClosesAWindow : Obligations.OnlyTheFullFenceClosesAWindow := by
  intro s t ht
  obtain ⟨-, u, rfl, hu⟩ := step_effect ht
  obtain ⟨hS, hG⟩ := hu.keepsOpen
  exact ⟨fun hc => hS.resolve_right (not_keepsOpen hc), fun hc => hG.resolve_right (not_keepsOpen hc)⟩

/-! ## The two fences -/

/-- What a fence of the translation caches leaves, and the program counter: everything but the windows. -/
def fenceFrame (s t : State) : Prop :=
  t.pc = trunc s.cfg (s.pc + 4#64) ∧ sameRegs s t ∧ sameStatus s t ∧ sameTrapRegs s t ∧ sameUnits s t ∧
  t.menvcfg = s.menvcfg ∧ t.senvcfg = s.senvcfg ∧ t.henvcfg = s.henvcfg ∧ t.vsSdt = s.vsSdt ∧
  sameMemory s t ∧ sameLogs s t

theorem fenceFrame_advance (w : Windows) (s : State) : fenceFrame s (advance 4 { s with windows := w }) := by
  have hregs : sameRegs s (advance 4 { s with windows := w }) := fun _ => rfl
  have hmem : sameMemory s (advance 4 { s with windows := w }) := fun _ => rfl
  simp [fenceFrame, sameStatus, sameTrapRegs, sameUnits, sameLogs, hregs, hmem]

theorem exec_sfenceVma (rs1 rs2 : RegIdx) (s : State) :
    exec (.sfenceVma rs1 rs2) s = .next (advance 4 { s with
      windows := if rs1 = 0#5 ∧ rs2 = 0#5 then ⟨false, s.windows.pbmteG, false, s.windows.adueG⟩ else s.windows }) := by
  simp only [exec, execSfenceVma]
  split <;> rfl

theorem execHart_hfenceGvma {s : State} (hh : s.cfg.hImplemented = true) (rs1 rs2 : RegIdx) (w : BitVec 32) :
    execHart (.hfenceGvma rs1 rs2) w s = .next (advance 4 { s with
      windows := if rs1 = 0#5 ∧ rs2 = 0#5 then ⟨s.windows.pbmteS, false, s.windows.adueS, false⟩ else s.windows }) := by
  simp only [execHart, hh, if_true]
  split <;> rfl

theorem execHart_hfenceGvma_absent {s : State} (hh : s.cfg.hImplemented = false) (rs1 rs2 : RegIdx) (w : BitVec 32) :
    execHart (.hfenceGvma rs1 rs2) w s = illegal w s := by
  simp [execHart, hh]

/-- Settles O30: SFENCE.VMA is an update of the windows and of `pc`. -/
theorem sfenceVmaClosesTheWindows : Obligations.SfenceVmaClosesTheWindows := fun s rs1 rs2 =>
  ⟨_, exec_sfenceVma rs1 rs2 s, rfl, fenceFrame_advance _ s⟩

/-- Settles O32: HFENCE.GVMA is an update of the windows and of `pc` where the hart has the hypervisor extension. -/
theorem hfenceGvmaClosesTheGStageWindows : Obligations.HfenceGvmaClosesTheGStageWindows := fun s rs1 rs2 w =>
  ⟨fun hh => ⟨_, execHart_hfenceGvma hh rs1 rs2 w, rfl, fenceFrame_advance _ s⟩,
    fun hh => execHart_hfenceGvma_absent hh rs1 rs2 w⟩

/-! ## What opens a window -/

/-- Where the register stays, no window opens. -/
theorem windowsAfter_of_menvcfg_eq {s t : State} (hc : t.cfg = s.cfg) (hm : t.menvcfg = s.menvcfg) :
    windowsAfter s t = s.windows := by
  simp [windowsAfter, svpbmtAvailable, adueActive, hc, hm]

/-- Settles O31: the windows are in the frame of an access to `menvcfg`, and without a write the register stays. -/
theorem menvcfgWriteOpensWindows : Obligations.MenvcfgWriteOpensWindows := by
  intro s i n hl hm hu hi hn
  obtain ⟨t, ht, hreg, ⟨-, -, -, -, hcfg, -⟩, ⟨-, -, hwin, -⟩⟩ := exec_csr_of_namesMenvcfg hi hl hm hu hn
  refine ⟨t, ht, hwin, fun hw => ?_⟩
  have hkept : t.menvcfg = s.menvcfg := by simpa [hw] using hreg
  exact ⟨hkept, hwin.trans (windowsAfter_of_menvcfg_eq hcfg hkept)⟩

/-! ## One PTE -/

theorem stageOf_eq_g (virt : Bool) (p : Pte) : (stageOf virt p == .g) = (virt && p.gStage) := by
  unfold stageOf
  cases virt <;> cases p.gStage <;> rfl

theorem stageOf_eq_vs_iff (virt : Bool) (p : Pte) : stageOf virt p = .vs ↔ virt = true ∧ p.gStage = false := by
  unfold stageOf
  cases virt <;> cases p.gStage <;> simp

/-- A or D is needed: A by any access, D by a store (R166). -/
theorem needsAd_iff (kind : AccessKind) (p : Pte) :
    needsAd kind p = true ↔ p.a = false ∨ (kind = .store ∧ p.d = false) := by
  simp [needsAd]

section
variable {kind : AccessKind} {virt : Bool} {p : Pte} {s : State}

/-- A reserved encoding is the page fault of the access and of the stage (R157, R216, R233). -/
theorem checkPte_of_reserved (h : pteReserved kind (stageOf virt p) p s = true) :
    checkPte kind virt p s = .error (pageFault kind (virt && p.gStage)) := by
  simp [checkPte, h, stageOf_eq_g]

/-- A PTE that is not reserved and has the bits it needs is accepted. -/
theorem checkPte_of_accepted (h : pteReserved kind (stageOf virt p) p s = false) (hn : needsAd kind p = false) :
    checkPte kind virt p s = .ok s := by
  simp [checkPte, h, hn]

/-- One that needs A or D is updated where hardware updates the tables of its stage, and else raises the page fault of
the access (R163 to R165). -/
theorem checkPte_of_needsAd (h : pteReserved kind (stageOf virt p) p s = false) (hn : needsAd kind p = true) :
    checkPte kind virt p s =
      if adueFor kind (stageOf virt p) s then .ok { s with mem := writeBytes s.mem p.address p.updated }
      else .error (pageFault kind (virt && p.gStage)) := by
  simp [checkPte, h, hn, stageOf_eq_g]

end

/-! ## The PBMT field -/

section
variable {kind : AccessKind} {stage : Stage} {p : Pte} {s : State}

theorem pteReserved_of_pbmt (hp : p.pbmt ≠ 0#2) (h : svpbmtFor kind stage s = false) :
    pteReserved kind stage p s = true := by
  simp [pteReserved, hp, h]

theorem pteReserved_of_xwr (hg : (stage == .g) = false) (hx : p.xwr = 0b010#3) (h : sseOn s = false) :
    pteReserved kind stage p s = true := by
  have hne : stage ≠ .g := by simpa using hg
  simp [pteReserved, hne, hx, h]

/-- Neither of the two ways to be reserved. -/
theorem pteReserved_eq_false (hp : p.pbmt = 0#2 ∨ svpbmtFor kind stage s = true)
    (hx : p.xwr ≠ 0b010#3 ∨ sseOn s = true ∨ (stage == .g) = true) : pteReserved kind stage p s = false := by
  have hpbmt : (p.pbmt != 0#2 && !svpbmtFor kind stage s) = false := by
    rcases hp with h | h <;> simp [h]
  have hxwr : (stage != .g && p.xwr == 0b010#3 && !sseOn s) = false := by
    rcases hx with h | h | h
    · simp [h]
    · simp [h]
    · simp [bne, h]
  rw [pteReserved, hpbmt, hxwr, Bool.or_false]

/-- In an open window one value judges the PBMT field, whatever the stage (R159, log 23). -/
theorem svpbmtFor_of_window (h : pbmteWindow stage s = true) :
    svpbmtFor kind stage s = (s.cfg.svpbmt && Config.windowPbmte s.draws kind) := by
  cases stage <;> exact congrArg (s.cfg.svpbmt && ·) (if_pos h)

end

/-- PBMTE of `henvcfg` reads 0 while that of `menvcfg` is 0 (R71). -/
theorem henvcfgView_pbmte_off {s : State} (h : svpbmtAvailable s = false) : (henvcfgView s).getLsbD 62 = false := by
  rw [getLsbD_henvcfgView, envMask_pbmte, h, Bool.and_false, Bool.and_false]

/-- ADUE of `henvcfg` likewise (R167). -/
theorem henvcfgView_adue_off {s : State} (h : adueActive s = false) : (henvcfgView s).getLsbD 61 = false := by
  rw [getLsbD_henvcfgView, envMask_adue, h, Bool.and_false, Bool.and_false]

section
variable {s : State} (hS : s.windows.pbmteS = false) (hG : s.windows.pbmteG = false)
include hS hG

/-- With PBMTE = 0 Svpbmt is available to no stage (R157). -/
theorem svpbmtFor_off (h : svpbmtAvailable s = false) (kind : AccessKind) (stage : Stage) :
    svpbmtFor kind stage s = false := by
  cases stage with
  | s | g => simp [svpbmtFor, hS, hG, h]
  | vs => simp only [svpbmtFor, hS, henvcfgView_pbmte_off h, Bool.false_eq_true, if_false, Bool.and_false]

/-- With PBMTE = 1 it is available to every stage, the VS-stage by `henvcfg` too (R155, R156). -/
theorem svpbmtFor_on (h : svpbmtAvailable s = true) {stage : Stage}
    (hvs : stage = .vs → (henvcfgView s).getLsbD 62 = true) (kind : AccessKind) : svpbmtFor kind stage s = true := by
  have hcfg : s.cfg.svpbmt = true := (Bool.and_eq_true_iff.1 h).1
  cases stage with
  | s | g => simp [svpbmtFor, hS, hG, h, hcfg]
  | vs => simp [svpbmtFor, hS, hvs rfl, hcfg]

end

/-- Settles O48: outside a window PBMTE says which PBMT fields are reserved, in one a value that depends on the draw and
the kind of the access alone. -/
theorem reservedPtesPageFault : Obligations.ReservedPtesPageFault := by
  intro s kind
  refine ⟨fun virt p => ⟨fun hav hS hG hp => ?pbmtOff, fun hsse hx hg => ?xwr, fun hp hn hg => ?gStage,
    fun hav hS hG hvs hx hn => ?pbmtOn⟩,
    s.cfg.svpbmt && Config.windowPbmte s.draws kind, fun m virt p hw hp hx hn => ?window⟩
  case pbmtOff => exact checkPte_of_reserved (pteReserved_of_pbmt hp (svpbmtFor_off hS hG hav kind _))
  case xwr =>
    rw [checkPte_of_reserved (pteReserved_of_xwr ((stageOf_eq_g virt p).trans hg) hx hsse), hg]
  case gStage =>
    exact checkPte_of_accepted (pteReserved_eq_false (.inl hp) (.inr (.inr ((stageOf_eq_g virt p).trans hg)))) hn
  case pbmtOn =>
    have hfor : svpbmtFor kind (stageOf virt p) s = true :=
      svpbmtFor_on hS hG hav (fun h => let ⟨hv, hg⟩ := (stageOf_eq_vs_iff virt p).1 h; hvs hv hg) kind
    rw [← stageOf_eq_g] at hx
    exact checkPte_of_accepted (pteReserved_eq_false (.inr hfor) hx) hn
  case window =>
    have hfor := svpbmtFor_of_window (kind := kind) (s := { s with mem := m }) hw
    cases hacc : s.cfg.svpbmt && Config.windowPbmte s.draws kind
    · exact checkPte_of_reserved (pteReserved_of_pbmt hp (hfor.trans hacc))
    · exact checkPte_of_accepted (pteReserved_eq_false (.inr (hfor.trans hacc)) (.inl hx)) hn

/-! ## The A and D bits -/

/-- ADUE, of `menvcfg` or of `henvcfg`, is 1 only on a hart with Svadu. -/
theorem svadu_of_stageAdue {stage : Stage} {s : State} (h : stageAdue stage s = true) : s.cfg.svadu = true := by
  have hactive : adueActive s = true := by
    cases stage with
    | s | g => exact h
    | vs =>
      by_contra hoff
      rw [stageAdue, henvcfgView_adue_off (by simpa using hoff)] at h
      cases h
  exact (Bool.and_eq_true_iff.1 hactive).1

/-- Outside its window the ADUE of a stage decides (R163 to R165, R167). -/
theorem adueFor_of_closed {stage : Stage} {s : State} (h : adueWindow stage s = false) (kind : AccessKind) :
    adueFor kind stage s = stageAdue stage s := by
  have hstage : adueFor kind stage s = (s.cfg.svadu && stageAdue stage s) := by
    cases stage <;> exact congrArg (s.cfg.svadu && ·) (if_neg (by simpa [adueWindow] using h))
  cases ha : stageAdue stage s
  · rw [hstage, ha, Bool.and_false]
  · rw [hstage, ha, svadu_of_stageAdue ha, Bool.true_and]

/-- In an open window one value decides, whatever the stage (R168, log 23). -/
theorem adueFor_of_window {stage : Stage} {s : State} (h : adueWindow stage s = true) (kind : AccessKind) :
    adueFor kind stage s = (s.cfg.svadu && Config.windowAdue s.draws kind) := by
  cases stage <;> exact congrArg (s.cfg.svadu && ·) (if_pos h)

/-- Settles O49: outside its window the ADUE of the stage decides, in one a value that depends on the draw and the kind
of the access alone; the update writes the bytes of the PTE. -/
theorem adueChoosesUpdateOrPageFault : Obligations.AdueChoosesUpdateOrPageFault := by
  intro s kind
  refine ⟨fun virt p hr hw hneed => ?closed,
    s.cfg.svadu && Config.windowAdue s.draws kind, fun m virt p hw hr hneed => ?window⟩
  case closed =>
    have hcheck := checkPte_of_needsAd hr ((needsAd_iff kind p).2 hneed)
    rw [adueFor_of_closed hw] at hcheck
    refine ⟨fun hon => ⟨_, hcheck.trans (if_pos hon), rfl, fun b hb => ?_, fun hlen j hj => ?_⟩,
      fun hoff => hcheck.trans (if_neg (by simp [hoff]))⟩
    · exact readByte_writeBytes_outside _ _ _ b hb
    · exact readByte_writeBytes_mem _ _ _ j hj hlen
  case window =>
    have hfor := adueFor_of_window (s := { s with mem := m }) hw kind
    rw [checkPte_of_needsAd hr ((needsAd_iff kind p).2 hneed), hfor]

end Sys2Proof.Machine
end

section
/-! PROOFS. CDE and STCE: the registers that Smcdeleg adds, `stimecmp` and its upper half, the timer bit of `mip` and
`sip`, and the supervisor timer interrupt. -/

namespace Sys2Proof.Machine

/-! ## The numbers that Smcdeleg adds -/

/-- CDE is 0 without U-mode (log 52), without Smcdeleg, and where its bit is clear (R175). -/
theorem smcdelegEnabled_eq_false_iff (s : State) :
    smcdelegEnabled s = false ↔
      s.cfg.uImplemented = false ∨ s.cfg.smcdeleg = false ∨ s.menvcfg.getLsbD s.cfg.posCde.val = false := by
  simp only [smcdelegEnabled, fieldCde, Bool.and_eq_false_iff]

/-- A number that Smcdeleg adds names a register exactly with CDE set (R177). -/
theorem csrLookup_smcdeleg {n : CsrNum} {s : State} (hn : csrNamed n s.cfg = none) (hd : n ∈ s.cfg.smcdelegCsrs) :
    csrLookup n s = existsIf (smcdelegEnabled s) .hart := by
  simp [csrLookup, hn, hd]

theorem csrDenied_of_absent {n : CsrNum} {s : State} (h : csrLookup n s = none) (writes : Bool) :
    csrDenied n writes s = some .illegalInstruction := by
  simp [csrDenied, h]

/-- In M-mode no check stops a read of a register that exists, of whatever number (R111, R120, R182). -/
theorem csrDenied_read_of_m {n : CsrNum} {s : State} {r : CsrReg} (hm : s.priv = .m) (hr : csrLookup n s = some r) :
    csrDenied n false s = none := by
  have hlevel : ¬ 3 < csrLevel n := Nat.not_lt.2 (Nat.le_of_lt_succ (n.extractLsb' 8 2).isLt)
  simp [csrDenied, hr, hm, Mode.belowM, modeLevel, hlevel]

/-- An access that does not write the register leaves every special register (R134). -/
theorem sameSpecial_csrCompleted_read {i : Instr} (hw : csrWritesOf i = false) (r : CsrReg) (s : State) :
    sameSpecial s (csrCompleted i r s) := by
  simpa [csrCompleted, hw] using sameSpecial_advance_setReg (sameSpecial_refl s) 4 (csrRdOf i) (readCsr r s)

/-- Settles O21: CDE decides whether the number names a register, and in M-mode a read of one completes. -/
theorem smcdelegCsrsExistOnlyWithCde : Obligations.SmcdelegCsrsExistOnlyWithCde := by
  intro s i n hi hn hd
  have hlook := csrLookup_smcdeleg hn hd
  refine ⟨fun hoff => ?absent, fun hu hc hbit hm hw => ?present⟩
  case absent =>
    rw [(smcdelegEnabled_eq_false_iff s).2 hoff] at hlook
    obtain ⟨t, ht, rfl, -⟩ := exec_csr_denied hi (csrDenied_of_absent hlook _)
    exact ht
  case present =>
    have hon : smcdelegEnabled s = true := by simp [smcdelegEnabled, fieldCde, hu, hc, hbit]
    rw [hon] at hlook
    have hdenied : csrDenied n (csrWritesOf i) s = none := hw ▸ csrDenied_read_of_m hm hlook
    refine ⟨_, exec_csr_completed hi hdenied hlook, ?_⟩
    obtain ⟨-, hregs, hpc, -, -, -, -, -, -, hmem, hlogs⟩ := csrFrame_csrCompleted i (substituted s.priv .hart) s
    exact ⟨hpc, hregs, sameSpecial_csrCompleted_read hw _ s, hlogs, hmem⟩

/-! ## The numbers of the timer registers -/

/-- A number below the machine level is not that of `menvcfgh` (R111). -/
theorem ne_menvcfghNumber_of_level {c : HartConfig} (hl : menvcfghNumberLegal c.csrMenvcfgh = true) {n : CsrNum}
    (hn : n.extractLsb' 8 2 ≠ 3#2) : n ≠ c.csrMenvcfgh := by
  rintro rfl
  exact hn (menvcfghNumberLegal_cases hl).1

section
variable {c : HartConfig} (hl : menvcfghNumberLegal c.csrMenvcfgh = true)
include hl

theorem csrNamed_stimecmp_number : csrNamed 0x14D#12 c = some (c.sstc, .stimecmp) := by
  have hne : 0x14D#12 ≠ c.csrMenvcfgh := ne_menvcfghNumber_of_level hl (by decide)
  simp [csrNamed, hne]

theorem csrNamed_stimecmph_number (hx : c.xlen = .rv32) : csrNamed 0x15D#12 c = some (c.sstc, .stimecmph) := by
  have hne : 0x15D#12 ≠ c.csrMenvcfgh := ne_menvcfghNumber_of_level hl (by decide)
  simp [csrNamed, hne, isRv32, hx]

theorem csrNamed_sip_number : csrNamed 0x144#12 c = some (c.sImplemented, .sip) := by
  have hne : 0x144#12 ≠ c.csrMenvcfgh := ne_menvcfghNumber_of_level hl (by decide)
  simp [csrNamed, hne]

theorem csrNamed_mip_number : csrNamed 0x344#12 c = some (true, .mip) := by
  have hne : 0x344#12 ≠ c.csrMenvcfgh := (menvcfghNumberLegal_cases hl).2.2 _ (by simp [machineNumbers])
  simp [csrNamed, hne]

end

theorem csrLookup_of_csrNamed {n : CsrNum} {s : State} {present : Bool} {r : CsrReg}
    (h : csrNamed n s.cfg = some (present, r)) : csrLookup n s = existsIf present r := by
  simp [csrLookup, h]

/-! ## Who may access a supervisor-level register -/

/-- In S-mode, and so in HS-mode, an access to `sip` is made, and with STCE one to `stimecmp` (R111, R181, R182). -/
theorem csrDenied_of_s {n : CsrNum} {s : State} {r : CsrReg} (hs : s.priv = .s) (hr : csrLookup n s = some r)
    (hlevel : csrLevel n = 1) (hro : csrReadOnly n = false)
    (hgate : r = .sip ∨ ((r = .stimecmp ∨ r = .stimecmph) ∧ stceOn s = true)) (writes : Bool) :
    csrDenied n writes s = none := by
  have hmode : ¬ modeLevel s.cfg s.priv < csrLevel n := by
    rw [hs, hlevel, modeLevel]
    split <;> decide
  rcases hgate with rfl | ⟨rfl | rfl, hstce⟩
  · simp [csrDenied, hr, hro, hmode]
  · simp [csrDenied, hr, hro, hmode, hstce]
  · simp [csrDenied, hr, hro, hmode, hstce]

/-- `sip` in M-mode and S-mode, and `stimecmp` in M-mode and, with STCE, in S-mode: the access completes on the hart's
own register (R181, R182). -/
theorem exec_csr_supervisor {i : Instr} {n : CsrNum} {s : State} {r : CsrReg} (hi : csrNumberOf i = some n)
    (hr : csrLookup n s = some r) (hlevel : csrLevel n = 1) (hro : csrReadOnly n = false)
    (hp : s.priv = .m ∨ s.priv = .s ∧ (r = .sip ∨ ((r = .stimecmp ∨ r = .stimecmph) ∧ stceOn s = true))) :
    exec i s = .next (csrCompleted i r s) := by
  rcases hp with hm | ⟨hs, hgate⟩
  · exact exec_csr_of_m hi hm hr hro
  · have hsub : substituted s.priv r = r := by simp [substituted, hs]
    rw [exec_csr_completed hi (csrDenied_of_s hs hr hlevel hro hgate _) hr, hsub]

/-! ## `stimecmp` -/

/-- R182: with STCE clear neither half of `stimecmp` can be accessed below M, whether the hart has Sstc or not. -/
theorem csrDenied_stimecmp_of_stceOff {n : CsrNum} {s : State} {r : CsrReg} (hr : r = .stimecmp ∨ r = .stimecmph)
    (hn : csrNamed n s.cfg = some (s.cfg.sstc, r)) (hp : s.priv ≠ .m) (hoff : stceOn s = false) (writes : Bool) :
    csrDenied n writes s = some .illegalInstruction := by
  have hbelow : s.priv.belowM = true := by
    cases h : s.priv with
    | m => exact absurd h hp
    | s | u | vs | vu => rfl
  have hlook := csrLookup_of_csrNamed hn
  cases hsstc : s.cfg.sstc <;> rw [hsstc, existsIf] at hlook
  case false => exact csrDenied_of_absent hlook writes
  case true => rcases hr with rfl | rfl <;> simp [csrDenied, hlook, hbelow, hoff]

/-- A number of `stimecmp`, with XLEN = 32 of `stimecmph` too, and the register and the view it gives (R181, R182). -/
theorem csrNamed_of_stimecmpNumber {s : State} {n : CsrNum} (hl : menvcfghNumberLegal s.cfg.csrMenvcfgh = true)
    (hn : n = 0x14D#12 ∨ (n = 0x15D#12 ∧ s.cfg.xlen = .rv32)) :
    ∃ r, (r = .stimecmp ∨ r = .stimecmph) ∧ csrNamed n s.cfg = some (s.cfg.sstc, r) ∧ csrReadOnly n = false ∧
      trunc s.cfg (readCsr r s) = if n = 0x14D#12 then lowView s.cfg s.stimecmp else highView s.stimecmp := by
  rcases hn with rfl | ⟨rfl, hx⟩
  · exact ⟨.stimecmp, .inl rfl, csrNamed_stimecmp_number hl, by decide, trunc_trunc ..⟩
  · exact ⟨.stimecmph, .inr rfl, csrNamed_stimecmph_number hl hx, by decide, trunc_highView ..⟩

/-- Settles O22: the STCE gate below M, and in M-mode an access that no gate stops. -/
theorem stimecmpBelowMWithStceClearIsIllegal : Obligations.StimecmpBelowMWithStceClearIsIllegal := by
  intro s i n hl hi hn
  obtain ⟨r, hr, hnamed, hro, hview⟩ := csrNamed_of_stimecmpNumber hl hn
  refine ⟨fun hp hoff => exec_csr_denied hi (csrDenied_stimecmp_of_stceOff hr hnamed hp hoff _), fun hm hsstc => ?_⟩
  rw [hsstc] at hnamed
  refine ⟨_, exec_csr_of_m hi hm (csrLookup_of_csrNamed hnamed) hro, ?_⟩
  rw [← hview]
  exact csrFrame_csrCompleted i r s

/-- A write of either half of `stimecmp` leaves the other special registers that a CSR write may change. -/
theorem csrCompleted_stimecmp_frame (i : Instr) {r : CsrReg} (hr : r = .stimecmp ∨ r = .stimecmph) (s : State) :
    sameEnvironment s (csrCompleted i r s) ∧ sameTrapRegs s (csrCompleted i r s) ∧
      (csrCompleted i r s).mstatus = s.mstatus := by
  rcases hr with rfl | rfl <;> cases hw : csrWritesOf i <;>
    simp [csrCompleted, hw, writeCsr, sameEnvironment, sameTrapRegs]

theorem csrCompleted_csrrw_stimecmp (rd : RegIdx) (n : CsrNum) (rs1 : RegIdx) (s : State) :
    (csrCompleted (.csrrw rd n rs1) .stimecmp s).stimecmp = presentLow s.cfg s.stimecmp (getReg s rs1) := by
  simp [csrCompleted, csrWritesOf, csrValueOf, writeCsr]

theorem csrCompleted_csrrw_stimecmph (rd : RegIdx) (n : CsrNum) (rs1 : RegIdx) (s : State) :
    (csrCompleted (.csrrw rd n rs1) .stimecmph s).stimecmp = presentHigh s.stimecmp (getReg s rs1) := by
  simp [csrCompleted, csrWritesOf, csrValueOf, writeCsr]

/-- Settles O23: CSRRW completes on either half, which shows its view and stores the value presented through it. -/
theorem stimecmpIsReadAndWritten : Obligations.StimecmpIsReadAndWritten := by
  intro s rd rs1 hl hsstc hp
  have access {n : CsrNum} {r : CsrReg} (hr : r = .stimecmp ∨ r = .stimecmph)
      (hn : csrNamed n s.cfg = some (s.cfg.sstc, r)) (hlevel : csrLevel n = 1) (hro : csrReadOnly n = false) :
      exec (.csrrw rd n rs1) s = .next (csrCompleted (.csrrw rd n rs1) r s) := by
    rw [hsstc] at hn
    exact exec_csr_supervisor rfl (csrLookup_of_csrNamed hn) hlevel hro
      (hp.imp_right fun ⟨hs, hstce⟩ => ⟨hs, .inr ⟨hr, hstce⟩⟩)
  refine ⟨⟨_, access (.inl rfl) (csrNamed_stimecmp_number hl) (by decide) (by decide),
      csrCompleted_csrrw_stimecmp .., ?low, csrCompleted_stimecmp_frame _ (.inl rfl) s⟩, fun hx =>
    ⟨_, access (.inr rfl) (csrNamed_stimecmph_number hl hx) (by decide) (by decide),
      csrCompleted_csrrw_stimecmph .., ?high, csrCompleted_stimecmp_frame _ (.inr rfl) s⟩⟩
  case low =>
    have hf := csrFrame_csrCompleted (.csrrw rd 0x14D#12 rs1) .stimecmp s
    rwa [readCsr, lowView, trunc_trunc] at hf
  case high =>
    have hf := csrFrame_csrCompleted (.csrrw rd 0x15D#12 rs1) .stimecmph s
    rwa [readCsr, trunc_highView] at hf

/-! ## The timer bit of `mip` and `sip` -/

/-- STIP in the words of R181: the comparison with STCE on, else software's bit (R184, R186). -/
theorem stipPending_eq (s : State) :
    stipPending s = if stceOn s then decide (s.stimecmp.toNat ≤ s.time.toNat) else s.mipStip := rfl

/-- The bit of `rd` that a completed access has read. -/
theorem getLsbD_rd_csrCompleted {i : Instr} (hrd : csrRdOf i ≠ 0#5) (r : CsrReg) (s : State) {k : Nat} (hk : k < 32) :
    (getReg (csrCompleted i r s) (csrRdOf i)).getLsbD k = (readCsr r s).getLsbD k := by
  obtain ⟨hreg, -⟩ := csrFrame_csrCompleted i r s
  simp [hreg, hrd, getLsbD_trunc, hk]

theorem readCsr_mip_stip (s : State) : (readCsr .mip s).getLsbD 5 = (s.cfg.sImplemented && stipPending s) := by
  rw [readCsr, getLsbD_placeBit (by decide), decide_eq_true rfl, Bool.and_true]

theorem readCsr_sip_stip (s : State) : (readCsr .sip s).getLsbD 5 = (s.midelegSti && stipPending s) := by
  rw [readCsr, getLsbD_placeBit (by decide), decide_eq_true rfl, Bool.and_true]

theorem csrCompleted_csrrw_mip (rd : RegIdx) (n : CsrNum) (rs1 : RegIdx) (s : State) :
    (csrCompleted (.csrrw rd n rs1) .mip s).mipStip = (if stceOn s then s.mipStip else (getReg s rs1).getLsbD 5) ∧
      (csrCompleted (.csrrw rd n rs1) .mip s).stimecmp = s.stimecmp := by
  simp [csrCompleted, csrWritesOf, csrValueOf, writeCsr]

/-- A write of `sip` changes nothing (R184). -/
theorem sameSpecial_csrCompleted_sip (i : Instr) (s : State) : sameSpecial s (csrCompleted i .sip s) := by
  cases hw : csrWritesOf i
  · exact sameSpecial_csrCompleted_read hw .sip s
  · simpa [csrCompleted, hw, writeCsr] using
      sameSpecial_advance_setReg (sameSpecial_refl s) 4 (csrRdOf i) (readCsr .sip s)

/-- Settles O24: both registers show STIP in bit 5, and only a write of `mip` may store it. -/
theorem timerPendingBitInMip : Obligations.TimerPendingBitInMip := by
  intro s rd rs1 hl hS
  have mip {i : Instr} (hi : csrNumberOf i = some 0x344#12) (hm : s.priv = .m) :
      exec i s = .next (csrCompleted i .mip s) :=
    exec_csr_of_m hi hm (csrLookup_of_csrNamed (csrNamed_mip_number hl)) (by decide)
  have sip {i : Instr} (hi : csrNumberOf i = some 0x144#12) (hp : s.priv = .m ∨ s.priv = .s) :
      exec i s = .next (csrCompleted i .sip s) := by
    have hnamed := csrNamed_sip_number hl
    rw [hS] at hnamed
    exact exec_csr_supervisor hi (csrLookup_of_csrNamed hnamed) (by decide) (by decide)
      (hp.imp_right fun hs => ⟨hs, .inl rfl⟩)
  refine ⟨fun hm => ⟨_, mip rfl hm, sameSpecial_csrCompleted_read rfl .mip s, fun hrd => ?readMip⟩,
    fun hm => ⟨_, mip rfl hm, csrCompleted_csrrw_mip ..⟩,
    fun hp => ⟨⟨_, sip rfl hp, sameSpecial_csrCompleted_sip _ s, fun hrd => ?readSip⟩,
      _, sip rfl hp, sameSpecial_csrCompleted_sip _ s⟩⟩
  case readMip =>
    have hbit := getLsbD_rd_csrCompleted (i := .csrrs rd 0x344#12 0#5) hrd .mip s (k := 5) (by decide)
    rwa [readCsr_mip_stip, hS, Bool.true_and, stipPending_eq] at hbit
  case readSip =>
    have hbit := getLsbD_rd_csrCompleted (i := .csrrs rd 0x144#12 0#5) hrd .sip s (k := 5) (by decide)
    rwa [readCsr_sip_stip, stipPending_eq] at hbit

/-! ## The supervisor timer interrupt -/

/-- With STCE = 0 neither `stimecmp` nor `time` makes anything pending (R183). -/
theorem stipPending_of_stceOff {s : State} (h : stceOn s = false) : stipPending s = s.mipStip := by
  rw [stipPending_eq, h]; rfl

theorem interruptTaken_of_not_pending {s : State} (h : stipPending s = false) : interruptTaken s = none := by
  simp [interruptTaken, h]

/-- Settles O54: STCE does not depend on the comparison, and nothing is taken that is not pending. -/
theorem noTimerInterruptWithStceClear : Obligations.NoTimerInterruptWithStceClear := by
  intro s cmp now hoff
  have hpending : stipPending { s with stimecmp := cmp, time := now } = s.mipStip := stipPending_of_stceOff hoff
  exact ⟨hpending, fun hclear => interruptTaken_of_not_pending (hpending.trans hclear)⟩

/-- Below S, where no enable of the mode masks it, a pending, enabled and delegated timer interrupt goes to S-mode
(R236, log 31). -/
theorem interruptTaken_below_s {s : State} (hS : s.cfg.sImplemented = true) (he : s.mieStie = true)
    (hd : s.midelegSti = true) (hpending : stipPending s = true) (hp : s.priv = .u ∨ s.priv.virt = true) :
    interruptTaken s = some true := by
  have hm : s.priv ≠ .m := by rintro h; simp [h, Mode.virt] at hp
  have hs : s.priv ≠ .s := by rintro h; simp [h, Mode.virt] at hp
  simp [interruptTaken, hS, he, hd, hpending, hm, hs]

theorem step_of_interrupt {s : State} {toS : Bool} (hc : configLegal s.cfg = true) (hi : interruptTaken s = some toS) :
    step s = .next (tick (takeTrap toS true supervisorTimerCode (interruptInfo s) s)) := by
  simp [step, hc, hi, tickOutcome]

/-- A trap into S-mode while SDT reads 0 is no double trap (R223, R239). -/
theorem takeTrap_toS {s : State} (hsdt : sdtView s = false) (interrupt : Bool) (code : Nat) (info : XWord) :
    takeTrap true interrupt code info s = enterS interrupt code info s := by
  simp [takeTrap, hsdt]

/-- Cause 5 with the top bit set (R236, R239). -/
theorem causeWord_supervisorTimer (c : HartConfig) :
    causeWord c true supervisorTimerCode = 5#64 ||| (1#64 <<< (xlenBits c - 1)) := by
  have hcode : trunc c 5#64 = 5#64 := by unfold trunc; split <;> rfl
  exact congrArg (· ||| 1#64 <<< (xlenBits c - 1)) hcode

/-- Settles O55: the comparison is pending, the interrupt is taken into S-mode, and the end of the step keeps what it
left. -/
theorem timerInterruptIsTaken : Obligations.TimerInterruptIsTaken := by
  intro s hc hS hstce hcmp he hd hp hsdt
  have hpending : stipPending s = true := by rw [stipPending_eq, hstce]; simpa using hcmp
  have hstep := step_of_interrupt hc (interruptTaken_below_s hS he hd hpending hp)
  rw [takeTrap_toS hsdt] at hstep
  exact ⟨_, hstep, rfl, rfl, causeWord_supervisorTimer s.cfg, rfl, rfl, fun _ => rfl, by simp [sameEnvironment],
    fun _ => rfl⟩

end Sys2Proof.Machine
end

section
/-! PROOFS. The cache-block instructions: what their enables deny in each mode, the guarded operation that each of them
is, and what an operation on the block leaves. -/

namespace Sys2Proof.Machine

/-! ## The enables -/

theorem cboDenied_of_m {s : State} (hp : s.priv = .m) (m sBit hBit : Bool) : cboDenied m sBit hBit s = none := by
  simp [cboDenied, hp]

/-- A clear field of `menvcfg` stops every mode below M alike (R191 to R194, D14). -/
theorem cboDenied_of_disabled {s : State} (hp : s.priv ≠ .m) (sBit hBit : Bool) :
    cboDenied false sBit hBit s = some .illegalInstruction := by
  unfold cboDenied
  split
  case h_1 hm => exact absurd hm hp
  all_goals rfl

/-- Below M the field and the gates of the mode are all that is checked (R190). -/
theorem cboDenied_of_lowerAllows {sBit hBit : Bool} {s : State} (h : lowerAllows sBit hBit s) :
    cboDenied true sBit hBit s = none := by
  obtain hp | ⟨hp, hS | rfl⟩ | ⟨hp, rfl⟩ | ⟨hp, rfl, rfl⟩ := h
  case inr.inl.inl => simp [cboDenied, hp, hS]
  all_goals simp [cboDenied, hp]

/-- U-mode under S-mode is stopped by `senvcfg` (R190). -/
theorem cboDenied_u_of_senvcfg_clear {s : State} (hp : s.priv = .u) (hS : s.cfg.sImplemented = true) (hBit : Bool) :
    cboDenied true false hBit s = some .illegalInstruction := by
  simp [cboDenied, hp, hS]

/-- A virtualised mode is stopped by `henvcfg`, and VU-mode by `senvcfg` too (R195, log 16). -/
theorem cboDenied_virt_of_gate_clear {sBit hBit : Bool} {s : State}
    (h : (s.priv.virt = true ∧ hBit = false) ∨ (s.priv = .vu ∧ sBit = false)) :
    cboDenied true sBit hBit s = some .virtualInstruction := by
  obtain ⟨hv, rfl⟩ | ⟨hp, rfl⟩ := h
  · cases hp : s.priv
    case vs | vu => simp [cboDenied, hp]
    all_goals simp [hp, Mode.virt] at hv
  · simp [cboDenied, hp]

theorem lowerAllows_belowM {sBit hBit : Bool} {s : State} (h : lowerAllows sBit hBit s) : s.priv.belowM = true := by
  obtain hp | ⟨hp, -⟩ | ⟨hp, -⟩ | ⟨hp, -⟩ := h <;> rw [hp] <;> rfl

/-! ## The guarded operation -/

theorem cboGuarded_denied (w : BitVec 32) (e : Exception) (op : CacheOp) (rs1 : RegIdx) (s : State) :
    cboGuarded w true (some e) op rs1 s = .next (raise e (instrInfo s.cfg w) s) := rfl

theorem cboGuarded_allowed (w : BitVec 32) (op : CacheOp) (rs1 : RegIdx) (s : State) :
    cboGuarded w true none op rs1 s = cboPerform op rs1 s := rfl

/-- An absent instruction is an illegal one, so it raises what a clear field of `menvcfg` raises. -/
theorem cboGuarded_of_disabled {s : State} (hp : s.priv ≠ .m) (w : BitVec 32) (present sBit hBit : Bool) (op : CacheOp)
    (rs1 : RegIdx) : cboGuarded w present (cboDenied false sBit hBit s) op rs1 s =
      .next (raise .illegalInstruction (instrInfo s.cfg w) s) := by
  rw [cboDenied_of_disabled hp]
  cases present <;> rfl

theorem exec_cboZero (rs1 : RegIdx) (s : State) : exec (.cboZero rs1) s =
    cboGuarded (encodeWord (.cboZero rs1)) s.cfg.zicboz
      (cboDenied (s.cfg.zicboz && s.menvcfg.getLsbD 7) ((senvcfgView s).getLsbD 7) ((henvcfgView s).getLsbD 7) s)
      .zero rs1 s := rfl

theorem exec_cboClean (rs1 : RegIdx) (s : State) : exec (.cboClean rs1) s =
    cboGuarded (encodeWord (.cboClean rs1)) s.cfg.zicbom
      (cboDenied (s.cfg.zicbom && s.menvcfg.getLsbD 6) ((senvcfgView s).getLsbD 6) ((henvcfgView s).getLsbD 6) s)
      .clean rs1 s := rfl

theorem exec_cboFlush (rs1 : RegIdx) (s : State) : exec (.cboFlush rs1) s =
    cboGuarded (encodeWord (.cboFlush rs1)) s.cfg.zicbom
      (cboDenied (s.cfg.zicbom && s.menvcfg.getLsbD 6) ((senvcfgView s).getLsbD 6) ((henvcfgView s).getLsbD 6) s)
      .flush rs1 s := rfl

/-- CBO.INVAL outside the states that hold the reserved CBIE below M (U2, log 39). -/
theorem exec_cboInval {s : State} (h : s.priv = .m ∨ fieldCbie s.cfg s.menvcfg ≠ 2#2) (rs1 : RegIdx) :
    exec (.cboInval rs1) s = cboGuarded (encodeWord (.cboInval rs1)) s.cfg.zicbom
      (cboDenied (fieldCbie s.cfg s.menvcfg != 0#2) ((senvcfgView s).extractLsb' 4 2 != 0#2)
        ((henvcfgView s).extractLsb' 4 2 != 0#2) s) (invalOp s) rs1 s := by
  refine if_neg ?_
  obtain hp | hc := h
  · simp [hp, Mode.belowM]
  · simp [hc]

theorem fieldCbie_of_zicbom {s : State} (hz : s.cfg.zicbom = true) :
    fieldCbie s.cfg s.menvcfg = s.menvcfg.extractLsb' 4 2 := if_pos hz

/-- Settles O37: with its field 0 each instruction is denied as illegal, as it is where the hart does not have it. -/
theorem disabledCboIsIllegal : Obligations.DisabledCboIsIllegal := by
  intro s rs1 hp
  refine ⟨fun h => ?zero, fun h => ?clean, fun h => ?flush, fun h => ?inval⟩
  case zero => rw [exec_cboZero, h, Bool.and_false, cboGuarded_of_disabled hp]
  case clean => rw [exec_cboClean, h, Bool.and_false, cboGuarded_of_disabled hp]
  case flush => rw [exec_cboFlush, h, Bool.and_false, cboGuarded_of_disabled hp]
  case inval =>
    have hc : fieldCbie s.cfg s.menvcfg = 0#2 := by rw [fieldCbie, rawCbie, h, ite_self]
    rw [exec_cboInval (.inr (by rw [hc]; decide)), hc]
    exact cboGuarded_of_disabled hp ..

/-! ## The four instructions by their enables -/

/-- The operation of each cache-block instruction (R191 to R194), as `cboRs1` is its register; the last row is
CBO.INVAL's, and no other instruction is asked about. -/
def cboOp : Instr → State → CacheOp
  | .cboZero _, _ => .zero
  | .cboClean _, _ => .clean
  | .cboFlush _, _ => .flush
  | _, s => invalOp s

/-- A cache-block instruction that the hart has is its operation behind its enables. Where CBIE has to enable it, it is
1 or 3; in M-mode no field is looked at. -/
theorem exec_of_cboEnables {i : Instr} {s : State} {m sBit hBit : Bool} (h : cboEnables i s = some (m, sBit, hBit))
    (hm : s.priv = .m ∨ m = true) :
    exec i s = cboGuarded (encodeWord i) true (cboDenied m sBit hBit s) (cboOp i s) (cboRs1 i) s := by
  unfold cboEnables at h
  split at h
  case h_5 => cases h
  all_goals
    obtain ⟨hz, h⟩ := Option.ite_none_right_eq_some.1 h
    cases h
  case h_1 => rw [exec_cboZero, hz, Bool.true_and]; rfl
  case h_2 => rw [exec_cboClean, hz, Bool.true_and]; rfl
  case h_3 => rw [exec_cboFlush, hz, Bool.true_and]; rfl
  case h_4 =>
    obtain hp | hc := hm
    · rw [exec_cboInval (.inl hp), hz, cboDenied_of_m hp, cboDenied_of_m hp]; rfl
    · have enabled : ∀ b : BitVec 2, (b == 1#2 || b == 3#2) = true → b ≠ 2#2 ∧ (b != 0#2) = true := by decide
      obtain ⟨hne, hset⟩ := enabled _ hc
      rw [exec_cboInval (.inr (by rwa [fieldCbie_of_zicbom hz])), fieldCbie_of_zicbom hz, hz, hset, hc]; rfl

/-- Settles O40: `menvcfg` enables the instruction, and the gate of the mode denies it. -/
theorem lowerGatesStopCacheBlockInstructions : Obligations.LowerGatesStopCacheBlockInstructions := by
  intro s i sBit hBit h
  have hexec := exec_of_cboEnables h (.inr rfl)
  refine ⟨?user, fun hgate => ?virtualised⟩
  case user =>
    rintro hp hS rfl
    rw [hexec, cboDenied_u_of_senvcfg_clear hp hS, cboGuarded_denied]
  case virtualised => rw [hexec, cboDenied_virt_of_gate_clear hgate, cboGuarded_denied]

theorem exec_of_cboRuns {i : Instr} {s : State} (h : cboRuns i s) : exec i s = cboPerform (cboOp i s) (cboRs1 i) s := by
  obtain ⟨m, sBit, hBit, he, hp | ⟨rfl, hl⟩⟩ := h
  · rw [exec_of_cboEnables he (.inl hp), cboDenied_of_m hp, cboGuarded_allowed]
  · rw [exec_of_cboEnables he (.inr rfl), cboDenied_of_lowerAllows hl, cboGuarded_allowed]

/-! ## An operation that is performed -/

/-- An operation writes at most the bytes of its block. -/
theorem readByte_blockEffect_outside {op : CacheOp} {block : XWord} {s : State} {b : Nat}
    (h : ¬ inSpan block (2 ^ blockBits op s.cfg) b) : readByte (blockEffect op block s) b = readByte s.mem b := by
  cases op with
  | zero => exact readByte_writeBytes_outside _ _ _ b (by rwa [List.length_replicate])
  | clean => rfl
  | flush => rfl
  | inval => exact readByte_writeBytes_outside _ _ _ b (by rwa [length_freeBytes])

/-- A block of CBO.ZERO has at most 2^63 bytes, so it does not meet itself. -/
theorem readByte_blockEffect_zero {block : XWord} {s : State} {b : Nat}
    (h : inSpan block (2 ^ blockBits .zero s.cfg) b) : readByte (blockEffect .zero block s) b = some 0#8 := by
  obtain ⟨k, hk, rfl⟩ := h
  have hsize : 2 ^ blockBits .zero s.cfg ≤ 2 ^ 64 := Nat.pow_le_pow_right (by decide) s.cfg.zeroBlockBits.isLt.le
  rw [blockEffect, readByte_writeBytes_mem _ _ _ k (by rwa [List.length_replicate]) (by rwa [List.length_replicate]),
    List.getElem_replicate]

/-- What an operation performed on the block of `pa` makes of `s`, where `s'` is `s` after the translation of x[rs1]. -/
structure CboPerformed (op : CacheOp) (pa : XWord) (s s' t : State) : Prop where
  cacheOps : t.cacheOps = ⟨op, blockBase op s.cfg pa⟩ :: s.cacheOps
  zeroes : op = .zero → ∀ b, inSpan (blockBase op s.cfg pa) (2 ^ blockBits op s.cfg) b → readByte t.mem b = some 0#8
  keeps : op = .clean ∨ op = .flush → sameMemory s' t
  outside : sameMemoryOutside (blockBase op s.cfg pa) (2 ^ blockBits op s.cfg) s' t
  frame : t.pc = trunc s.cfg (s.pc + 4#64) ∧ sameRegs s t ∧ sameSpecial s t ∧ t.ordering = s.ordering

/-- An instruction that its enables let run and whose address translates is performed: the translation has changed
memory alone, and the operation adds its block and its event. -/
theorem cboPerformed_of_cboRuns {i : Instr} {op : CacheOp} {s s' : State} {pa : XWord} (hr : cboRuns i s)
    (ht : translate .store (dataMode s) (getReg s (cboRs1 i)) s = .ok (pa, s')) (hop : cboOp i s = op) :
    ∃ t, exec i s = .next t ∧ CboPerformed op pa s s' t := by
  refine ⟨_, (exec_of_cboRuns hr).trans (cboPerform_ok ht), ?_⟩
  obtain ⟨m, rfl, -⟩ := translate_ok ht
  rw [hop]
  constructor
  case cacheOps => rfl
  case zeroes => rintro rfl b hb; exact readByte_blockEffect_zero hb
  case keeps => rintro (rfl | rfl) b <;> rfl
  case outside => exact fun b hb => readByte_blockEffect_outside hb
  case frame => exact ⟨rfl, fun _ => rfl, sameSpecial_refl s, rfl⟩

/-- Settles O38: each of the three runs and performs its operation. -/
theorem enabledCboIsExecuted : Obligations.EnabledCboIsExecuted := by
  intro s s' pa rs1 ht
  refine ⟨fun hz hm => ?zero, fun hz hm => ⟨?clean, ?flush⟩⟩
  case zero =>
    have hr : cboRuns (.cboZero rs1) s := ⟨_, _, _, if_pos hz, hm⟩
    obtain ⟨t, he, p⟩ := cboPerformed_of_cboRuns hr ht rfl
    exact ⟨t, he, p.cacheOps, p.zeroes rfl, p.outside, p.frame⟩
  case clean =>
    have hr : cboRuns (.cboClean rs1) s := ⟨_, _, _, if_pos hz, hm⟩
    obtain ⟨t, he, p⟩ := cboPerformed_of_cboRuns hr ht rfl
    exact ⟨t, he, p.cacheOps, p.keeps (.inl rfl), p.frame⟩
  case flush =>
    have hr : cboRuns (.cboFlush rs1) s := ⟨_, _, _, if_pos hz, hm⟩
    obtain ⟨t, he, p⟩ := cboPerformed_of_cboRuns hr ht rfl
    exact ⟨t, he, p.cacheOps, p.keeps (.inr rfl), p.frame⟩

/-! ## Flush or invalidate -/

/-- In M-mode the parameter decides (R197, D25). -/
theorem invalOp_of_m {s : State} (hp : s.priv = .m) :
    invalOp s = if s.cfg.forceUpgradeCboInvalToFlush then .flush else .inval := by
  simp [invalOp, hp, Mode.belowM]

/-- Below M CBIE decides (R194). -/
theorem invalOp_of_belowM {s : State} (hp : s.priv.belowM = true) (hz : s.cfg.zicbom = true) :
    invalOp s = if s.menvcfg.extractLsb' 4 2 = 1#2 then .flush else .inval := by
  simp only [invalOp, hp, if_true, fieldCbie_of_zicbom hz]

/-- The enables of a CBO.INVAL whose operation is the one that `forced` in M-mode and `cbie` below M select. -/
def invalSelected (s : State) (forced : Bool) (cbie : BitVec 2) : Prop :=
  (s.priv = .m ∧ s.cfg.forceUpgradeCboInvalToFlush = forced) ∨
    (s.menvcfg.extractLsb' 4 2 = cbie ∧
      lowerAllows ((senvcfgView s).extractLsb' 4 2 != 0#2) ((henvcfgView s).extractLsb' 4 2 != 0#2) s)

theorem cboRuns_cboInval {s : State} {forced : Bool} {cbie : BitVec 2} (hz : s.cfg.zicbom = true)
    (h : invalSelected s forced cbie) (hc : cbie = 1#2 ∨ cbie = 3#2) (rs1 : RegIdx) : cboRuns (.cboInval rs1) s := by
  refine ⟨_, _, _, if_pos hz, h.imp (·.1) fun ⟨hcbie, hl⟩ => ⟨?_, hl⟩⟩
  rw [hcbie]
  obtain rfl | rfl := hc <;> rfl

theorem invalOp_of_selected {s : State} {forced : Bool} {cbie : BitVec 2} {op : CacheOp} (hz : s.cfg.zicbom = true)
    (h : invalSelected s forced cbie) (hforced : (if forced then CacheOp.flush else .inval) = op)
    (hcbie : (if cbie = 1#2 then CacheOp.flush else .inval) = op) : invalOp s = op := by
  obtain ⟨hp, rfl⟩ | ⟨rfl, hl⟩ := h
  · rw [invalOp_of_m hp, hforced]
  · rw [invalOp_of_belowM (lowerAllows_belowM hl) hz, hcbie]

/-- Settles O39: CBO.INVAL runs, by CBIE or in M-mode, and performs the operation it selects. -/
theorem cboInvalFlushesOrInvalidates : Obligations.CboInvalFlushesOrInvalidates := by
  intro s s' pa rs1 hz ht
  refine ⟨fun h => ?flush, fun h => ?inval⟩
  case flush =>
    have hr := cboRuns_cboInval hz h (.inl rfl) rs1
    obtain ⟨t, he, p⟩ := cboPerformed_of_cboRuns hr ht (invalOp_of_selected hz h rfl rfl)
    exact ⟨t, he, p.cacheOps, p.keeps (.inr rfl), p.frame⟩
  case inval =>
    have hr := cboRuns_cboInval hz h (.inr rfl) rs1
    obtain ⟨t, he, p⟩ := cboPerformed_of_cboRuns hr ht (invalOp_of_selected hz h rfl rfl)
    exact ⟨t, he, p.cacheOps, p.outside, p.frame⟩

end Sys2Proof.Machine
end

section
/-! PROOFS. Landing pads, shadow stacks and traps: ELP while LPE is off, what the words of Zicfiss do with SSE = 0, which
modes have Zicfiss, and the trap that is delegated, doubled or not. -/

namespace Sys2Proof.Machine

/-! ## ELP while LPE is off -/

/-- The governed mode with LPE = 0, where R209 and R210 speak. -/
def governedLpeOff (s : State) : Prop := s.priv = lpMode s.cfg ∧ lpeOn s = false

theorem elpIdle_iff (s : State) : elpIdle s = true ↔ (governedLpeOff s → s.elp = .noLpExpected) := by
  simp only [elpIdle, governedLpeOff, Bool.or_eq_true, Bool.not_eq_true', Bool.and_eq_false_imp, beq_iff_eq]
  cases lpeOn s <;> by_cases hp : s.priv = lpMode s.cfg <;> simp [hp]

/-- LPE does not govern M-mode (R206). -/
theorem not_governedLpeOff_of_m {s : State} (hm : s.priv = .m) : ¬ governedLpeOff s := by
  rintro ⟨hp, -⟩
  rw [hm, lpMode] at hp
  split at hp <;> cases hp

/-- The condition depends on the mode, the configuration and `menvcfg` alone. -/
theorem governedLpeOff_congr {s t : State} (hp : t.priv = s.priv) (hc : t.cfg = s.cfg) (hm : t.menvcfg = s.menvcfg) :
    governedLpeOff t ↔ governedLpeOff s := by
  simp only [governedLpeOff, lpeOn, hp, hc, hm]

/-- What an instruction or a trap that leads from `s` to `t` may do to ELP. -/
inductive ElpStep (s t : State) : Prop where
  | kept (he : t.elp = s.elp) (hp : t.priv = s.priv) (hc : t.cfg = s.cfg) (hm : t.menvcfg = s.menvcfg)
  | entered (he : t.elp = elpEntering t.priv s) (hc : t.cfg = s.cfg) (hm : t.menvcfg = s.menvcfg)
  | ungoverned (hs : ¬ governedLpeOff s) (ht : ¬ governedLpeOff t)

/-- Leaving the governed mode, or staying in it, keeps an idle ELP (log 21). -/
theorem elpEntering_of_governed {s : State} (hg : governedLpeOff s) (he : s.elp = .noLpExpected) (mode : Mode) :
    elpEntering mode s = .noLpExpected := by
  unfold elpEntering
  split
  · rfl
  · exact (if_pos hg).trans he

theorem ElpStep.elp_idle {s t : State} (h : ElpStep s t) (hg : governedLpeOff s) (he : s.elp = .noLpExpected) :
    t.elp = .noLpExpected := by
  cases h with
  | kept hkept => exact hkept.trans he
  | entered hentered => exact hentered.trans (elpEntering_of_governed hg he _)
  | ungoverned hs => exact absurd hg hs

theorem ElpStep.keeps_elpIdle {s t : State} (h : ElpStep s t) (hs : elpIdle s = true) : elpIdle t = true := by
  rw [elpIdle_iff] at *
  intro ht
  cases h with
  | kept he hp hc hm => exact he.trans (hs ((governedLpeOff_congr hp hc hm).1 ht))
  | entered he hc hm =>
    obtain ⟨hp, hl⟩ := ht
    rw [lpeOn, hc, hm] at hl
    exact he.trans (elpEntering_idle t.priv s (hc ▸ hp) hl)
  | ungoverned _ hn => exact absurd ht hn

theorem elpStep_takeTrap (toS interrupt : Bool) (code : Nat) (info : XWord) (s : State) :
    ElpStep s (takeTrap toS interrupt code info s) := by
  rcases takeTrap_cases toS interrupt code info s with ⟨-, h⟩ | ⟨-, -, h⟩ | ⟨-, -, h⟩ <;> rw [h] <;>
    exact .entered rfl rfl rfl

theorem elpStep_raise (e : Exception) (info : XWord) (s : State) : ElpStep s (raise e info s) :=
  elpStep_takeTrap ..

/-- A CSR write leaves ELP, and only M-mode writes `menvcfg` (R120), which LPE does not govern. -/
theorem elpStep_writeCsr {n : CsrNum} {writes : Bool} {r : CsrReg} {s : State} (hd : csrDenied n writes s = none)
    (hr : csrLookup n s = some r) (rd : RegIdx) (v w : XWord) :
    ElpStep s (advance 4 (setReg rd v (writeCsr (substituted s.priv r) w s))) := by
  rcases writeCsr_menvcfg_cases (substituted s.priv r) w s with ⟨hkept, -⟩ | ⟨hreg, -⟩
  · exact .kept (by simp) (by simp) (by simp) (by simpa using hkept)
  · obtain ⟨hlow, hhigh⟩ := substituted_menvcfg s.priv r
    have hm : s.priv = .m := priv_of_not_denied hd hr (hreg.imp hlow.1 hhigh.1)
    exact .ungoverned (not_governedLpeOff_of_m hm) (not_governedLpeOff_of_m (by simpa using hm))

theorem ExecEffect.elpStep {i : Instr} {s t : State} (h : ExecEffect i s t) : ElpStep s t := by
  cases h with
  | raised e v => exact elpStep_raise e v s
  | csrRead | updated => exact .kept (by simp) (by simp) (by simp) (by simp)
  | csrWritten rd v w _ hd hr => exact elpStep_writeCsr hd hr rd v w
  | closed | shadowStack => exact .kept rfl rfl rfl rfl
  | landingPad elp hg => exact .ungoverned hg hg

theorem HartStep.elpStep {i : HartInstr} {s t : State} (h : HartStep i s t) : ElpStep s t := by
  cases h with
  | raised e w => exact elpStep_raise ..
  | mret | sret | sretV => exact .entered rfl rfl rfl
  | mop => exact .kept (by simp) (by simp) (by simp) (by simp)
  | fenced => exact .kept rfl rfl rfl rfl

/-- The A and D bits that a fetch sets are no part of the invariant of R209. -/
theorem elpIdle_fetch {s s' : State} {bs : List Byte} (hf : fetch s = .bytes bs s') (hs : elpIdle s = true) :
    elpIdle s' = true := by
  obtain ⟨m, rfl, -⟩ := fetch_bytes hf
  exact hs

theorem StepEffect.keeps_elpIdle {s u : State} (h : StepEffect s u) (hs : elpIdle s = true) : elpIdle u = true := by
  cases h with
  | interrupt toS => exact (elpStep_takeTrap ..).keeps_elpIdle hs
  | fetchFault e => exact (elpStep_raise ..).keeps_elpIdle hs
  | ran hf _ h => exact h.elpStep.keeps_elpIdle (elpIdle_fetch hf hs)
  | hart hf _ _ h => exact h.elpStep.keeps_elpIdle (elpIdle_fetch hf hs)

/-- The part of the invariant that R209 states is kept by every step on its own. -/
theorem step_keeps_elpIdle {s t : State} (h : step s = .next t) (hs : elpIdle s = true) : elpIdle t = true := by
  obtain ⟨-, u, rfl, hu⟩ := step_effect h
  exact hu.keeps_elpIdle hs

/-- Settles O42: whatever an instruction does, it keeps ELP, enters a mode by `elpEntering`, or is not governed; so it
leaves an idle ELP in the governed mode, and a step keeps ELP idle where R209 wants it. -/
theorem elpStaysIdleWithLpeClear : Obligations.ElpStaysIdleWithLpeClear := by
  refine ⟨fun s t hp hl he => ⟨fun i h => ?table, fun i w h => ?other⟩, fun s t hi h hp hl => ?step⟩
  case table => exact (exec_effect h).elpStep.elp_idle ⟨hp, hl⟩ he
  case other => exact (execHart_effect h).elpStep.elp_idle ⟨hp, hl⟩ he
  case step =>
    obtain ⟨-, -, hidle, -⟩ := (invariant_iff s).1 hi
    exact (elpIdle_iff t).1 (step_keeps_elpIdle h hidle) ⟨hp, hl⟩

/-! ## Instructions that do nothing, or write 0 to `rd` -/

theorem sameButRegs_advance_setReg (n : Nat) (rd : RegIdx) (v : XWord) (s : State) :
    sameButRegs s (advance n (setReg rd v s)) :=
  ⟨sameSpecial_advance_setReg (sameSpecial_refl s) n rd v, by simp [sameLogs], fun _ => by simp⟩

/-- A no-op of `n` bytes. -/
theorem advance_frame (n : Nat) (s : State) :
    (advance n s).pc = trunc s.cfg (s.pc + BitVec.ofNat 64 n) ∧ sameRegs s (advance n s) ∧
      sameButRegs s (advance n s) := by
  have hkept := sameButRegs_advance_setReg n 0#5 0#64 s
  rw [setReg_zero] at hkept
  exact ⟨rfl, fun _ => rfl, hkept⟩

/-- What MOP.R and MOP.RR do (R215). -/
theorem advance_setReg_zero_frame (n : Nat) (rd : RegIdx) (s : State) :
    (advance n (setReg rd 0#64 s)).pc = trunc s.cfg (s.pc + BitVec.ofNat 64 n) ∧
      getReg (advance n (setReg rd 0#64 s)) rd = 0#64 ∧ sameRegsBut rd s (advance n (setReg rd 0#64 s)) ∧
      sameButRegs s (advance n (setReg rd 0#64 s)) := by
  refine ⟨by simp, ?_, sameRegsBut_advance_setReg (fun _ => rfl) n rd _, sameButRegs_advance_setReg ..⟩
  rw [getReg_advance, getReg_setReg_same, trunc_zero, ite_self]

theorem exec_lpad_of_governed {s : State} (hg : governedLpeOff s) (label : BitVec 20) :
    exec (.lpad label) s = .next (advance 4 s) := if_pos (.inl hg)

/-- Settles O41: LPAD is the no-op of four bytes. -/
theorem lpadIsANoOpWithLpeClear : Obligations.LpadIsANoOpWithLpeClear := fun s label hp hl =>
  ⟨_, exec_lpad_of_governed ⟨hp, hl⟩ label, advance_frame 4 s⟩

/-! ## SSE = 0 below M -/

theorem shadowStackActive_of_sseOff {s : State} (h : sseOn s = false) : shadowStackActive s = false := by
  simp [shadowStackActive, h]

section
variable {s : State} (hm : s.priv ≠ .m) (hsse : sseOn s = false)
include hm hsse

/-- Below M the words revert, whether the hart has Zicfiss or not (R213, R214, log 18). -/
theorem shadowStack_of_sseOff : shadowStack s = .reverted := by
  simp [shadowStack, hm, shadowStackActive_of_sseOff hsse]

theorem shadowStackOp_of_sseOff (size : Nat) : shadowStackOp size s = .next (advance size s) := by
  simp only [shadowStackOp, shadowStack_of_sseOff hm hsse]

theorem exec_ssrdp_of_sseOff (rd : RegIdx) : exec (.ssrdp rd) s = .next (advance 4 (setReg rd 0#64 s)) := by
  simp only [exec, execSsrdp, shadowStack_of_sseOff hm hsse]

/-- Both widths of SSAMOSWAP raise the illegal-instruction exception before anything else (R218). -/
theorem ssamoswap_of_sseOff (word : BitVec 32) (n : Nat) (aq rl : Bool) (rs1 rd : RegIdx) :
    ssamoswap word n aq rl rs1 rd s = illegal word s := by
  have hdenied : zicfissDenied s = .illegalInstruction := by simp [zicfissDenied, hsse]
  simp only [ssamoswap, shadowStack_of_sseOff hm hsse, hdenied, illegal]

theorem exec_ssamoswapD_of_sseOff (aq rl : Bool) (rs2 rs1 rd : RegIdx) :
    exec (.ssamoswapD aq rl rs2 rs1 rd) s = illegal (encodeWord (.ssamoswapD aq rl rs2 rs1 rd)) s := by
  cases hx : s.cfg.xlen with
  | rv32 => exact exec_ssamoswapD_rv32 hx ..
  | rv64 => simp only [exec, execSsamoswapD, hx, ssamoswap_of_sseOff hm hsse]

end

/-- Settles O43: the pushes and pop checks are no-ops of four bytes, SSRDP and every MOP write 0 to `rd`. -/
theorem revertedWordsFollowZimop : Obligations.RevertedWordsFollowZimop := by
  refine ⟨fun s r rd hm hsse => ⟨?push, ?popchk, ?rdp⟩, fun s w n m rs2 rs1 rd => ⟨?mopR, ?mopRr⟩⟩
  case push => exact ⟨_, shadowStackOp_of_sseOff hm hsse 4, advance_frame 4 s⟩
  case popchk => exact ⟨_, shadowStackOp_of_sseOff hm hsse 4, advance_frame 4 s⟩
  case rdp => exact ⟨_, exec_ssrdp_of_sseOff hm hsse rd, advance_setReg_zero_frame 4 rd s⟩
  case mopR => exact ⟨_, rfl, advance_setReg_zero_frame 4 rd s⟩
  case mopRr => exact ⟨_, rfl, advance_setReg_zero_frame 4 rd s⟩

/-- Settles O44: each of the halfwords is the no-op of two bytes. -/
theorem revertedHalfwordsFollowZcmop : Obligations.RevertedHalfwordsFollowZcmop := by
  refine ⟨fun s hm hsse => ⟨?push, ?popchk⟩, fun s w k => ?mop⟩
  case push => exact ⟨_, shadowStackOp_of_sseOff hm hsse 2, advance_frame 2 s⟩
  case popchk => exact ⟨_, shadowStackOp_of_sseOff hm hsse 2, advance_frame 2 s⟩
  case mop => exact ⟨_, rfl, advance_frame 2 s⟩

/-- Settles O45: both widths are illegal instructions, a trap that changes no more than any trap. -/
theorem ssamoswapWithSseClearIsIllegal : Obligations.SsamoswapWithSseClearIsIllegal := by
  intro s aq rl rs2 rs1 rd hm hsse
  exact ⟨⟨_, ssamoswap_of_sseOff hm hsse _ 4 aq rl rs1 rd, rfl, trapFrame_raise ..⟩,
    ⟨_, exec_ssamoswapD_of_sseOff hm hsse aq rl rs2 rs1 rd, rfl, trapFrame_raise ..⟩⟩

/-! ## The modes that have Zicfiss -/

theorem readCsr_senvcfg_sse (s : State) : (readCsr .senvcfg s).getLsbD 3 = (senvcfgView s).getLsbD 3 :=
  getLsbD_lowView_reached (.inl (by decide)) _

theorem readCsr_henvcfg_sse (s : State) : (readCsr .henvcfg s).getLsbD 3 = (henvcfgView s).getLsbD 3 :=
  getLsbD_lowView_reached (.inl (by decide)) _

/-- Settles O47: SSE of `menvcfg` first, then what each mode asks of SSE in `senvcfg` and `henvcfg` as they read. -/
theorem zicfissIsActiveBySse : Obligations.ZicfissIsActiveBySse := by
  intro s
  rw [readCsr_senvcfg_sse, readCsr_henvcfg_sse]
  refine ⟨shadowStackActive_of_sseOff, fun hsse hp => ?s, fun hp => ?m, fun hsse hp => ?u, fun hsse hp => ?vs,
    fun hsse hp => ?vu⟩
  case m => simp [shadowStackActive, hp]
  case s | u | vs | vu => simp [shadowStackActive, hsse, hp]

/-! ## Traps into S-mode -/

theorem belowM_of_ne_m {mode : Mode} (h : mode ≠ .m) : mode.belowM = true := by
  cases mode with
  | m => exact absurd rfl h
  | s | u | vs | vu => rfl

/-- No trap changes what R241 and R246 keep, wherever it is taken. -/
theorem trapFrame_takeTrap (toS interrupt : Bool) (code : Nat) (info : XWord) (s : State) :
    trapFrame s (takeTrap toS interrupt code info s) := by
  have hregs : sameRegs s (takeTrap toS interrupt code info s) := getReg_takeTrap toS interrupt code info s
  have hmem : sameMemory s (takeTrap toS interrupt code info s) := fun _ => by rw [takeTrap_mem]
  refine ⟨hregs, hmem, ?_⟩
  simp [sameEnvironment, sameLogs]

/-- The handler's address in the words of R239. -/
theorem handlerPc_eq (c : HartConfig) (tvec : XWord) (interrupt : Bool) (code : Nat) :
    handlerPc c tvec interrupt code = trunc c ((tvec &&& ~~~3#64)
      + (if interrupt = true ∧ tvec.extractLsb' 0 2 = 1#2 then BitVec.ofNat 64 (4 * code) else 0#64)) := by
  simp [handlerPc, maskIf]

/-- The exceptions that go to S-mode (R242). -/
theorem raise_of_delegated {e : Exception} {s : State} (hS : s.cfg.sImplemented = true) (hm : s.priv ≠ .m)
    (hd : s.medeleg.getLsbD e.code = true) (info : XWord) : raise e info s = takeTrap true false e.code info s := by
  have hdelegated : delegated e.code s = true := by simp [delegated, hS, belowM_of_ne_m hm, hd]
  rw [raise, hdelegated]

/-- Settles O51: while SDT reads 0 the trap is `enterS`, which saves, enters and disables as R239 says. -/
theorem trapToSupervisorMode : Obligations.TrapToSupervisorMode := by
  refine ⟨fun s interrupt code info hsdt => ?trap, fun s e info hS hm hd => raise_of_delegated hS hm hd info⟩
  case trap =>
    have hframe := trapFrame_takeTrap true interrupt code info s
    rw [takeTrap_toS hsdt] at hframe ⊢
    exact ⟨rfl, rfl, rfl, rfl, rfl, handlerPc_eq .., rfl, rfl, rfl, hframe⟩

/-- With DTE on and SDT set the trap into S-mode is one to M-mode, of cause 16 and with a free trap value (R223, R234). -/
theorem takeTrap_double {s : State} (hdte : dteOn s = true) (hsdt : s.mstatus.sdt = true) (interrupt : Bool)
    (code : Nat) (info : XWord) :
    takeTrap true interrupt code info s = enterM false 16 (trunc s.cfg (Config.freeWord s.draws)) s := by
  simp [takeTrap, sdtView, hdte, hsdt, Exception.code]

theorem causeWord_doubleTrap (c : HartConfig) : causeWord c false 16 = 16#64 := by
  have hcode : trunc c 16#64 = 16#64 := by unfold trunc; split <;> rfl
  exact BitVec.or_zero.trans hcode

/-- A trap that is no interrupt goes to BASE (R239). -/
theorem handlerPc_exception (c : HartConfig) (tvec : XWord) (code : Nat) :
    handlerPc c tvec false code = trunc c (tvec &&& ~~~3#64) := by
  simp [handlerPc_eq]

/-- Settles O52: the double trap is `enterM` with cause 16, which leaves the S-level registers. -/
theorem doubleTrapGoesToMachineMode : Obligations.DoubleTrapGoesToMachineMode := by
  intro s interrupt code info hdte hsdt
  have hframe := trapFrame_takeTrap true interrupt code info s
  rw [takeTrap_double hdte hsdt] at hframe ⊢
  exact ⟨rfl, causeWord_doubleTrap s.cfg, rfl, rfl, handlerPc_exception .., rfl, rfl, rfl, hframe⟩

end Sys2Proof.Machine
end

section
/-! PROOFS. CSR instructions that complete, on every register: who may access one with no check of its own, what
becomes of the special registers, and what the status, interrupt, translation and vector registers store. -/

namespace Sys2Proof.Machine

/-! ## Who may access a register -/

/-- The registers that `csrDenied` checks by themselves, beside their number (R120, R182; logs 6, 69). -/
def checkedCsrs : List CsrReg := [.menvcfg, .menvcfgh, .stimecmp, .stimecmph, .ssp]

/-- Every other register is accessed by the rights of its number alone (R111). -/
theorem csrDenied_of_rights {n : CsrNum} {writes : Bool} {s : State} {r : CsrReg} (hr : csrLookup n s = some r)
    (hc : r ∉ checkedCsrs) (hlevel : csrLevel n ≤ modeLevel s.cfg s.priv)
    (hro : (writes && csrReadOnly n) = false) : csrDenied n writes s = none := by
  simp only [checkedCsrs, List.mem_cons, List.not_mem_nil, or_false, not_or] at hc
  obtain ⟨hmenvcfg, hmenvcfgh, hstimecmp, hstimecmph, hssp⟩ := hc
  simp [csrDenied, hr, hmenvcfg, hmenvcfgh, hstimecmp, hstimecmph, hssp, hro, Nat.not_lt.2 hlevel]

/-! ## The special registers after a CSR instruction -/

/-- An access that writes leaves the special registers as its write does (R128 to R133). -/
theorem sameSpecial_csrCompleted_write {i : Instr} (hw : csrWritesOf i = true) (r : CsrReg) (s : State) :
    sameSpecial (writeCsr r (csrValueOf i (readCsr r s) s) s) (csrCompleted i r s) := by
  rw [csrCompleted, if_pos hw]
  exact sameSpecial_advance_setReg (sameSpecial_refl _) ..

/-! ## The numbers of the counters (R247) -/

/-- The two parts of a number. -/
theorem extractLsb'_number (hi : BitVec 7) (k : BitVec 5) :
    BitVec.extractLsb' (n := 12) 5 7 (hi ++ k) = hi ∧ BitVec.extractLsb' (n := 12) 0 5 (hi ++ k) = k :=
  ⟨BitVec.extractLsb'_append_eq_left, BitVec.extractLsb'_append_eq_right⟩

/-- A number is told apart from every one with other bits 11:5. -/
theorem append_ne_of_extractLsb' {hi : BitVec 7} {m : CsrNum} (h : m.extractLsb' 5 7 ≠ hi) (k : BitVec 5) :
    (hi ++ k : BitVec 12) ≠ m := by
  rintro rfl
  exact h (extractLsb'_number hi k).1

/-- A read-only number is not that of `menvcfgh` (R111). -/
theorem ne_menvcfghNumber_of_readOnly {c : HartConfig} (hl : menvcfghNumberLegal c.csrMenvcfgh = true) {n : CsrNum}
    (hn : csrReadOnly n = true) : n ≠ c.csrMenvcfgh := by
  rintro rfl
  rw [csrReadOnly_menvcfgh_number hl] at hn
  cases hn

/-- The numbers of the counters and of their upper halves are read-only, and for every mode. -/
theorem counterNumber_rights {hi : BitVec 7} (h : hi = 0b1100000#7 ∨ hi = 0b1100100#7) (k : BitVec 5) :
    csrReadOnly (hi ++ k) = true ∧ csrLevel (hi ++ k) = 0 := by
  rcases h with rfl | rfl <;> revert k <;> decide

/-- But for number 1, no counter has the number of `time` or of its upper half. -/
theorem counterNumber_ne_time : ∀ k : BitVec 5, k ≠ 1#5 →
    (0b1100000#7 ++ k : BitVec 12) ≠ 0xC01#12 ∧ (0b1100100#7 ++ k : BitVec 12) ≠ 0xC81#12 := by
  decide

/-- The registers of the counters: nothing checks them by themselves, and the virtual supervisor has no copies. -/
def isCounter : CsrReg → Bool
  | .time | .timeh | .counter _ | .counterh _ => true
  | _ => false

theorem not_checked_of_isCounter {r : CsrReg} (h : isCounter r = true) : r ∉ checkedCsrs := by
  intro hc
  simp only [checkedCsrs, List.mem_cons, List.not_mem_nil, or_false] at hc
  rcases hc with rfl | rfl | rfl | rfl | rfl <;> cases h

theorem substituted_of_isCounter {r : CsrReg} (h : isCounter r = true) (mode : Mode) : substituted mode r = r := by
  unfold substituted
  split
  · cases r <;> cases h <;> rfl
  · rfl

section
variable {c : HartConfig} (hl : menvcfghNumberLegal c.csrMenvcfgh = true) (k : BitVec 5)
include hl

/-- The register of each number, and what it reads: `time` is the counter of number 1. -/
theorem csrNamed_counter : ∃ r, csrNamed (0b1100000#7 ++ k) c = some (true, r) ∧ isCounter r = true ∧
    ∀ s, readCsr r s = lowView s.cfg (counterValue s k) := by
  have hne := ne_menvcfghNumber_of_readOnly hl (counterNumber_rights (.inl rfl) k).1
  by_cases hk : k = 1#5
  · subst hk
    exact ⟨.time, by simpa [csrNamed] using hne, rfl, fun _ => rfl⟩
  · refine ⟨.counter k, ?_, rfl, fun _ => rfl⟩
    simp [csrNamed, hne, append_ne_of_extractLsb', (counterNumber_ne_time k hk).1, extractLsb'_number]

theorem csrNamed_counterh (hx : c.xlen = .rv32) :
    ∃ r, csrNamed (0b1100100#7 ++ k) c = some (true, r) ∧ isCounter r = true ∧
      ∀ s, readCsr r s = highView (counterValue s k) := by
  have hne := ne_menvcfghNumber_of_readOnly hl (counterNumber_rights (.inr rfl) k).1
  by_cases hk : k = 1#5
  · subst hk
    exact ⟨.timeh, by simpa [csrNamed, isRv32, hx] using hne, rfl, fun _ => rfl⟩
  · refine ⟨.counterh k, ?_, rfl, fun _ => rfl⟩
    simp [csrNamed, hne, append_ne_of_extractLsb', (counterNumber_ne_time k hk).2, extractLsb'_number, isRv32, hx]

end

/-- A read of a counter completes in every mode (log 57). -/
theorem exec_csr_counter {i : Instr} {n : CsrNum} {s : State} {r : CsrReg} (hi : csrNumberOf i = some n)
    (hw : csrWritesOf i = false) (hnamed : csrNamed n s.cfg = some (true, r)) (hlevel : csrLevel n = 0)
    (hr : isCounter r = true) :
    ∃ t, exec i s = .next t ∧ csrFrame (csrRdOf i) (trunc s.cfg (readCsr r s)) s t ∧ sameSpecial s t := by
  have hlook : csrLookup n s = some r := csrLookup_of_csrNamed hnamed
  have hdenied : csrDenied n (csrWritesOf i) s = none :=
    csrDenied_of_rights hlook (not_checked_of_isCounter hr) (by rw [hlevel]; exact Nat.zero_le _)
      (by rw [hw, Bool.false_and])
  refine ⟨_, exec_csr_completed hi hdenied hlook, ?_⟩
  rw [substituted_of_isCounter hr]
  exact ⟨csrFrame_csrCompleted i r s, sameSpecial_csrCompleted_read hw r s⟩

/-- Settles O19: an access that is not denied is `csrCompleted` on the register that its mode reaches, and nothing
denies a read of a counter. -/
theorem csrInstructionsComplete : Obligations.CsrInstructionsComplete := by
  refine ⟨fun s i n hi hd => ?completes, fun s i k hl hw => ⟨fun hi => ?counter, fun hx hi => ?counterh⟩⟩
  case completes =>
    obtain ⟨r, hr⟩ := csrLookup_of_not_denied hd
    exact ⟨r, _, hr, exec_csr_completed hi hd hr, csrFrame_csrCompleted .., (sameSpecial_csrCompleted_write · ..),
      (sameSpecial_csrCompleted_read · ..)⟩
  case counter =>
    obtain ⟨r, hnamed, hr, hread⟩ := csrNamed_counter hl k
    have hexec := exec_csr_counter hi hw hnamed (counterNumber_rights (.inl rfl) k).2 hr
    rwa [hread, lowView, trunc_trunc] at hexec
  case counterh =>
    obtain ⟨r, hnamed, hr, hread⟩ := csrNamed_counterh hl k hx
    have hexec := exec_csr_counter hi hw hnamed (counterNumber_rights (.inr rfl) k).2 hr
    rwa [hread, trunc_highView] at hexec

/-! ## What a CSR instruction changes -/

/-- A write changes no special register but its own, and `menvcfg` what it frees (U11). -/
theorem sameButCsr_writeCsr (r : CsrReg) (w : XWord) (s : State) : sameButCsr r s (writeCsr r w s) := by
  cases r <;> simp [sameButCsr, writeCsr]

theorem sameButCsr_refl (r : CsrReg) (s : State) : sameButCsr r s s := by
  simp [sameButCsr]

/-- `rd` and the program counter are no special registers. -/
theorem sameButCsr_advance_setReg {r : CsrReg} {s t : State} (h : sameButCsr r s t) (n : Nat) (rd : RegIdx)
    (v : XWord) : sameButCsr r s (advance n (setReg rd v t)) := by
  simpa [sameButCsr] using h

theorem sameButCsr_csrCompleted (i : Instr) (r : CsrReg) (s : State) : sameButCsr r s (csrCompleted i r s) := by
  apply sameButCsr_advance_setReg
  split
  · exact sameButCsr_writeCsr ..
  · exact sameButCsr_refl ..

/-! ## The numbers of the status, interrupt, translation and vector registers -/

section
variable {c : HartConfig} (hl : menvcfghNumberLegal c.csrMenvcfgh = true)
include hl

theorem csrNamed_machine_numbers :
    csrNamed 0x300#12 c = some (true, .mstatus) ∧ csrNamed 0x304#12 c = some (true, .mie) ∧
    csrNamed 0x303#12 c = some (c.sImplemented, .mideleg) ∧ csrNamed 0x305#12 c = some (true, .mtvec) ∧
    csrNamed 0x341#12 c = some (true, .mepc) := by
  have hne : ∀ m ∈ machineNumbers, m ≠ c.csrMenvcfgh := (menvcfghNumberLegal_cases hl).2.2
  simp only [machineNumbers, List.forall_mem_cons] at hne
  simp [csrNamed, hne]

theorem csrNamed_supervisor_numbers :
    csrNamed 0x100#12 c = some (c.sImplemented, .sstatus) ∧ csrNamed 0x104#12 c = some (c.sImplemented, .sie) ∧
    csrNamed 0x180#12 c = some (c.sImplemented, .satp) ∧ csrNamed 0x105#12 c = some (c.sImplemented, .stvec) ∧
    csrNamed 0x141#12 c = some (c.sImplemented, .sepc) := by
  have hne : ∀ n : CsrNum, n.extractLsb' 8 2 ≠ 3#2 → n ≠ c.csrMenvcfgh := fun _ => ne_menvcfghNumber_of_level hl
  simp [csrNamed, hne]

end

/-! ## CSRRW on them -/

/-- In M-mode and S-mode an access to a supervisor-level register with no check of its own completes on the hart's
register (R111). -/
theorem exec_csr_unchecked {i : Instr} {n : CsrNum} {s : State} {r : CsrReg} (hi : csrNumberOf i = some n)
    (hr : csrLookup n s = some r) (hc : r ∉ checkedCsrs) (hlevel : csrLevel n = 1) (hro : csrReadOnly n = false)
    (hp : s.priv = .m ∨ s.priv = .s) : exec i s = .next (csrCompleted i r s) := by
  rcases hp with hm | hs
  · exact exec_csr_of_m hi hm hr hro
  · have hmode : csrLevel n ≤ modeLevel s.cfg s.priv := by
      rw [hlevel, hs, modeLevel]
      split <;> decide
    have hsub : substituted s.priv r = r := by simp [substituted, hs]
    rw [exec_csr_completed hi (csrDenied_of_rights hr hc hmode (by simp [hro])) hr, hsub]

theorem csrCompleted_csrrw (rd : RegIdx) (n : CsrNum) (rs1 : RegIdx) (r : CsrReg) (s : State) :
    csrCompleted (.csrrw rd n rs1) r s = advance 4 (setReg rd (readCsr r s) (writeCsr r (getReg s rs1) s)) := rfl

/-- A CSRRW that completes: the old view in `rd`, the frame, and what `writeCsr` stores. -/
theorem csrrw_stores {rd : RegIdx} {n : CsrNum} {rs1 : RegIdx} {s : State} {r : CsrReg} {stored : State → Prop}
    (he : exec (.csrrw rd n rs1) s = .next (csrCompleted (.csrrw rd n rs1) r s))
    (hs : stored (csrCompleted (.csrrw rd n rs1) r s)) :
    ∃ t, exec (.csrrw rd n rs1) s = .next t ∧ csrFrame rd (trunc s.cfg (readCsr r s)) s t ∧ sameButCsr r s t ∧
      stored t :=
  ⟨_, he, csrFrame_csrCompleted .., sameButCsr_csrCompleted .., hs⟩

/-! ## What is stored -/

/-- The two-bit mode that is stored: one that the hart has, else the old one (log 6). -/
theorem modeBits_modeOfBits {c : HartConfig} (hS : c.sImplemented = true) (old : Mode) (b : BitVec 2) :
    modeBits (modeOfBits c old b) =
      if b = 2#2 ∨ (b = 0#2 ∧ c.uImplemented = false) then modeBits old else b := by
  have hs : modeBits (if old.virt then .vs else .s) = 1#2 := by split <;> rfl
  have hu : modeBits (if old.virt then .vu else .u) = 0#2 := by split <;> rfl
  have values : ∀ b : BitVec 2, b = 0#2 ∨ b = 1#2 ∨ b = 2#2 ∨ b = 3#2 := by decide
  rcases values b with rfl | rfl | rfl | rfl
  · cases hU : c.uImplemented <;> simp [modeOfBits, hU, hu]
  · simp [modeOfBits, hS, hs]
  · simp [modeOfBits]
  · simp [modeOfBits, modeBits]

/-- What a write of `w` to `mstatus` or `sstatus` makes of the S-level fields of `f`, as `g` (R222, R239). -/
structure SstatusStored (w : XWord) (s : State) (f g : Mstatus) : Prop where
  sie : g.sie = w.getLsbD 1
  spie : g.spie = w.getLsbD 5
  spp : modeBits g.spp = if w.getLsbD 8 then 1#2 else if s.cfg.uImplemented then 0#2 else modeBits f.spp
  sdt : g.sdt = if dteOn s then w.getLsbD 24 else f.sdt
  machine : g.mie = f.mie ∧ g.mpie = f.mpie ∧ g.mpp = f.mpp ∧ g.mprv = f.mprv

theorem sstatusStored_writeSstatusFields {s : State} (hS : s.cfg.sImplemented = true) (w : XWord) (f : Mstatus) :
    SstatusStored w s f (writeSstatusFields w s f) := by
  rw [writeSstatusFields, if_pos hS]
  refine ⟨rfl, rfl, ?_, rfl, rfl, rfl, rfl, rfl⟩
  rw [modeBits_modeOfBits hS]
  cases w.getLsbD 8 <;> cases s.cfg.uImplemented <;> simp

theorem sstatusStored_sstatus {s : State} (hS : s.cfg.sImplemented = true) (rd : RegIdx) (n : CsrNum) (rs1 : RegIdx) :
    SstatusStored (getReg s rs1) s s.mstatus (csrCompleted (.csrrw rd n rs1) .sstatus s).mstatus := by
  rw [csrCompleted_csrrw, advance_mstatus, setReg_mstatus]
  exact sstatusStored_writeSstatusFields hS ..

/-- A write of `mstatus` stores the M-level fields, and then those of `sstatus`. -/
theorem sstatusStored_mstatus {s : State} (hS : s.cfg.sImplemented = true) (rd : RegIdx) (n : CsrNum) (rs1 : RegIdx) :
    SstatusStored (getReg s rs1) s
      { s.mstatus with
        mie := (getReg s rs1).getLsbD 3
        mpie := (getReg s rs1).getLsbD 7
        mpp := modeOfBits s.cfg s.mstatus.mpp ((getReg s rs1).extractLsb' 11 2)
        mprv := s.cfg.uImplemented && (getReg s rs1).getLsbD 17 }
      (csrCompleted (.csrrw rd n rs1) .mstatus s).mstatus := by
  rw [csrCompleted_csrrw, advance_mstatus, setReg_mstatus]
  exact sstatusStored_writeSstatusFields hS ..

/-- With MODE read-only zero a write of `satp` leaves it Bare (R15). -/
theorem atpOn_satpWrite {c : HartConfig} (h : c.satpModeReadOnlyZero = true) (w : XWord) :
    atpOn c (satpWrite c w) = false := by
  rw [satpWrite, if_pos h]
  cases hx : c.xlen with
  | rv32 => simp [atpOn, hx]
  | rv64 => simp [atpOn, hx, BitVec.extractLsb'_and]

/-- Settles O27: CSRRW completes on each register, and stores what `writeCsr` does of it. -/
theorem statusAndTrapCsrsStoreTheirFields : Obligations.StatusAndTrapCsrsStoreTheirFields := by
  intro s rd rs1 hl hS v old
  obtain ⟨hmstatus, hmie, hmideleg, hmtvec, hmepc⟩ := csrNamed_machine_numbers hl
  obtain ⟨hsstatus, hsie, hsatp, hstvec, hsepc⟩ := csrNamed_supervisor_numbers hl
  rw [hS] at hmideleg hsstatus hsie hsatp hstvec hsepc
  refine ⟨fun hm => ?machine, fun hp => ?supervisor⟩
  case machine =>
    have access {n : CsrNum} {r : CsrReg} (hn : csrNamed n s.cfg = some (true, r)) (hro : csrReadOnly n = false) :
        exec (.csrrw rd n rs1) s = .next (csrCompleted (.csrrw rd n rs1) r s) :=
      exec_csr_of_m rfl hm (csrLookup_of_csrNamed hn) hro
    refine ⟨csrrw_stores (access hmstatus (by decide)) ?mstatus, csrrw_stores (access hmie (by decide)) ?mie,
      csrrw_stores (access hmideleg (by decide)) ?mideleg, csrrw_stores (access hmtvec (by decide)) ?mtvec,
      csrrw_stores (access hmepc (by decide)) ?mepc⟩
    case mstatus =>
      obtain ⟨hsie, hspie, hspp, hsdt, hmie, hmpie, hmpp, hmprv⟩ := sstatusStored_mstatus hS rd 0x300#12 rs1
      exact ⟨hmie, hmpie, hmprv, by rw [hmpp, modeBits_modeOfBits hS], hsie, hspie, hspp, hsdt⟩
    case mie | mideleg | mtvec | mepc => simp [csrCompleted_csrrw, writeCsr, hS, v]
  case supervisor =>
    have access {n : CsrNum} {r : CsrReg} (hn : csrNamed n s.cfg = some (true, r)) (hc : r ∉ checkedCsrs)
        (hlevel : csrLevel n = 1) (hro : csrReadOnly n = false) :
        exec (.csrrw rd n rs1) s = .next (csrCompleted (.csrrw rd n rs1) r s) :=
      exec_csr_unchecked rfl (csrLookup_of_csrNamed hn) hc hlevel hro hp
    refine ⟨csrrw_stores (access hsstatus (by decide) (by decide) (by decide)) ?sstatus,
      csrrw_stores (access hsie (by decide) (by decide) (by decide)) ?sie,
      csrrw_stores (access hsatp (by decide) (by decide) (by decide)) ?satp,
      csrrw_stores (access hstvec (by decide) (by decide) (by decide)) ?stvec,
      csrrw_stores (access hsepc (by decide) (by decide) (by decide)) ?sepc⟩
    case sstatus =>
      obtain ⟨hsie, hspie, hspp, hsdt, hmachine⟩ := sstatusStored_sstatus hS rd 0x100#12 rs1
      exact ⟨hsie, hspie, hspp, hsdt, hmachine⟩
    case satp =>
      refine ⟨fun hoff => ?_, fun hon => ?_⟩
      · simp [csrCompleted_csrrw, writeCsr, satpWrite, hoff, trunc_getReg, v]
      · simp [csrCompleted_csrrw, writeCsr, atpOn_satpWrite hon]
    case sie | stvec | sepc => simp [csrCompleted_csrrw, writeCsr, v]

end Sys2Proof.Machine
end

section
/-! PROOFS. Accesses that fault or complete, traps to M-mode, and returns. -/

namespace Sys2Proof.Machine

/-! ## MISALIGNED_POLICY -/

/-- An operand that is aligned, or performed misaligned, is a translation in the mode the access has (R84, R169). -/
theorem dataAccess_of_performed {n : Nat} {va : XWord} {s : State}
    (h : va.toNat % n = 0 ∨ s.cfg.misaligned = .perform) (kind : AccessKind) :
    dataAccess kind n va s = translate kind (dataMode s) va s := by
  apply dataAccess_eq
  unfold misalignedFault
  split
  case isTrue => rfl
  case isFalse hmis =>
    have hperform := h.resolve_left hmis
    rw [hperform]

/-- A misaligned operand that is not performed raises the exception of the policy before any translation (R84). -/
theorem dataAccess_of_misaligned {n : Nat} {va : XWord} {s : State} (h : va.toNat % n ≠ 0) :
    (s.cfg.misaligned = .addressMisaligned →
      dataAccess .load n va s = .error .loadAddressMisaligned ∧
      dataAccess .store n va s = .error .storeAddressMisaligned) ∧
    (s.cfg.misaligned = .accessFault →
      dataAccess .load n va s = .error .loadAccessFault ∧ dataAccess .store n va s = .error .storeAccessFault) := by
  refine ⟨fun hp => ?_, fun hp => ?_⟩ <;> simp [dataAccess, misalignedFault, h, hp]

/-! ## Accesses that fault -/

/-- Settles O36: an atomic, an active SSAMOSWAP and a cache-block instruction raise what the access of x[rs1] raises,
and are performed where it answers. -/
theorem translatedAccessCompletesOrPageFaults : Obligations.TranslatedAccessCompletesOrPageFaults := by
  intro s funct5 aq rl rs2 rs1 rd
  refine ⟨?word, fun hx => ?doubleword, fun e ha => ⟨fun h => ?swapW, fun hx h => ?swapD⟩,
    fun kind n va => ⟨fun h => dataAccess_of_performed h kind, fun h => (dataAccess_of_misaligned h).1,
      fun h => (dataAccess_of_misaligned h).2⟩, fun i hr => ?block⟩
  case word =>
    cases h : dataAccess (atomicKind funct5) 4 (getReg s rs1) s with
    | error e => exact (exec_amoW ..).trans (atomicAccess_error h)
    | ok p =>
      obtain ⟨t, ht, hperformed⟩ := atomicAccess_performed h aq rl rd
      exact ⟨t, (exec_amoW ..).trans ht, hperformed.pc⟩
  case doubleword =>
    cases h : dataAccess (atomicKind funct5) 8 (getReg s rs1) s with
    | error e => exact (exec_amoD_rv64 hx ..).trans (atomicAccess_error h)
    | ok p =>
      obtain ⟨t, ht, hperformed⟩ := atomicAccess_performed h aq rl rd
      exact ⟨t, (exec_amoD_rv64 hx ..).trans ht, hperformed.pc⟩
  case swapW => exact (exec_ssamoswapW_active ha ..).trans (atomicAccess_error h)
  case swapD => exact (exec_ssamoswapD_active ha hx ..).trans (atomicAccess_error h)
  case block =>
    cases h : translate .store (dataMode s) (getReg s (cboRs1 i)) s with
    | error e => exact (exec_of_cboRuns hr).trans (cboPerform_error h)
    | ok p =>
      obtain ⟨t, ht, hperformed⟩ := cboPerformed_of_cboRuns hr h rfl
      exact ⟨t, ht, hperformed.frame.1⟩

/-! ## Traps to M-mode -/

/-- The exceptions that go to M-mode (R242). -/
theorem raise_of_not_delegated {e : Exception} {s : State}
    (h : s.cfg.sImplemented = false ∨ s.priv = .m ∨ s.medeleg.getLsbD e.code = false) (info : XWord) :
    raise e info s = takeTrap false false e.code info s := by
  have hdelegated : delegated e.code s = false := by
    rcases h with hS | hm | hbit
    · simp [delegated, hS]
    · exact delegated_of_m hm _
    · simp [delegated, hbit]
  rw [raise, hdelegated]

/-- Settles O50: the trap is `enterM`, which saves, enters and disables as R239 says. -/
theorem trapToMachineMode : Obligations.TrapToMachineMode := by
  refine ⟨fun s interrupt code info => ?trap, fun s e info h => raise_of_not_delegated h info⟩
  case trap =>
    exact ⟨rfl, rfl, rfl, rfl, rfl, handlerPc_eq .., rfl, rfl, rfl, trapFrame_takeTrap false interrupt code info s⟩

/-! ## Returns -/

theorem execHart_mret_of_m {s : State} (hm : s.priv = .m) (w : BitVec 32) :
    execHart .mret w s = .next (trapReturnM s) := if_pos hm

/-- A return that its mode may not execute (log 33). -/
theorem execHart_mret_of_ne_m {s : State} (hm : s.priv ≠ .m) (w : BitVec 32) :
    execHart .mret w s = illegal w s := if_neg hm

theorem execHart_sret_of_vs {s : State} (hp : s.priv = .vs) (w : BitVec 32) :
    execHart .sret w s = .next (trapReturnV s) := if_pos hp

theorem execHart_sret_of_vu {s : State} (hp : s.priv = .vu) (w : BitVec 32) :
    execHart .sret w s = .next (raise .virtualInstruction (instrInfo s.cfg w) s) := by
  simp [execHart, hp]

theorem execHart_sret_of_allowed {s : State} (hp : s.priv = .s ∨ s.priv = .m) (hS : s.cfg.sImplemented = true)
    (w : BitVec 32) : execHart .sret w s = .next (trapReturnS s) := by
  rcases hp with hp | hp <;> simp [execHart, hp, hS]

theorem execHart_sret_of_denied {s : State} (h : s.priv = .u ∨ (s.cfg.sImplemented = false ∧ s.priv.virt = false))
    (w : BitVec 32) : execHart .sret w s = illegal w s := by
  rcases h with hp | ⟨hS, hv⟩
  · simp [execHart, hp]
  · have hvs : s.priv ≠ .vs := fun hp => by simp [hp, Mode.virt] at hv
    have hvu : s.priv ≠ .vu := fun hp => by simp [hp, Mode.virt] at hv
    simp [execHart, hvs, hvu, hS]

/-- No return changes what R241 keeps. -/
theorem trapFrame_trapReturnM (s : State) : trapFrame s (trapReturnM s) := by
  refine ⟨fun _ => rfl, fun _ => rfl, ?_⟩
  simp [sameEnvironment, sameLogs]

theorem trapFrame_trapReturnS (s : State) : trapFrame s (trapReturnS s) := by
  refine ⟨fun _ => rfl, fun _ => rfl, ?_⟩
  simp [sameEnvironment, sameLogs]

/-- But for SDT of `vsstatus` (log 30). -/
theorem trapFrame_trapReturnV (s : State) : trapFrame s { trapReturnV s with vsSdt := s.vsSdt } := by
  refine ⟨fun _ => rfl, fun _ => rfl, ?_⟩
  simp [sameEnvironment, sameLogs]

theorem sameTrapRegs_trapReturnV (s : State) : sameTrapRegs s (trapReturnV s) := by
  simp [sameTrapRegs]

theorem virtualReturnMode_virt (s : State) : (virtualReturnMode s).virt = true := by
  unfold virtualReturnMode
  split <;> rfl

/-- While DTE is off a return leaves SDT (R240, log 30). -/
theorem sdtAfterReturn_of_dteOff {s : State} (h : dteOn s = false) : sdtAfterReturn s = s.mstatus.sdt := by
  simp [sdtAfterReturn, h]

theorem trapReturnV_vsSdt_of_dteOff {s : State} (h : dteOn s = false) : (trapReturnV s).vsSdt = s.vsSdt := by
  simp [trapReturnV, h]

theorem leastMode_of_sImplemented {c : HartConfig} (h : c.sImplemented = true) :
    leastMode c = if c.uImplemented then .u else .s := by
  simp [leastMode, h]

/-- Settles O53: which of the three returns it is, or the exception that the mode makes it, and what each writes. -/
theorem trapReturnsRestore : Obligations.TrapReturnsRestore := by
  intro s w
  refine ⟨fun hm => ⟨_, execHart_mret_of_m hm w, ?mret⟩, fun hp hS => ⟨_, execHart_sret_of_allowed hp hS w, ?sret⟩,
    fun hp => ⟨_, execHart_sret_of_vs hp w, ?sretV⟩, fun hp => execHart_sret_of_vu hp w,
    fun h => execHart_sret_of_denied h w, fun hm => execHart_mret_of_ne_m hm w⟩
  case mret =>
    exact ⟨rfl, rfl, rfl, rfl, rfl, rfl, rfl, rfl, sdtAfterReturn_of_dteOff, rfl, rfl, rfl, rfl, rfl, rfl, rfl,
      trapFrame_trapReturnM s⟩
  case sret =>
    exact ⟨rfl, rfl, rfl, leastMode_of_sImplemented hS, rfl, rfl, rfl, rfl, sdtAfterReturn_of_dteOff, rfl, rfl, rfl,
      rfl, rfl, rfl, rfl, trapFrame_trapReturnS s⟩
  case sretV =>
    exact ⟨virtualReturnMode_virt s, rfl, trapReturnV_vsSdt_of_dteOff, trapFrame_trapReturnV s,
      sameTrapRegs_trapReturnV s⟩

end Sys2Proof.Machine
end

section
/-! PROOFS. M-mode is not governed (R244): with MPRV clear, what an instruction does there commutes with setting
`menvcfg` to another value. -/

namespace Sys2Proof.Machine

/-- The hart with another value in `menvcfg`. -/
def setMenvcfg (v : BitVec 64) (s : State) : State := { s with menvcfg := v }

/-- An update of the next state of an outcome. -/
def onNext (f : State → State) : Host.Outcome State Fault Refusal → Host.Outcome State Fault Refusal
  | .next s => .next (f s)
  | .fault r => .fault r
  | .refused r => .refused r

/-! ## Operations that do not look at `menvcfg` -/

theorem setMenvcfg_cfg (v : BitVec 64) (s : State) : (setMenvcfg v s).cfg = s.cfg := rfl

theorem advance_setMenvcfg (n : Nat) (v : BitVec 64) (s : State) :
    advance n (setMenvcfg v s) = setMenvcfg v (advance n s) := rfl

theorem setReg_setMenvcfg (rd : RegIdx) (w : XWord) (v : BitVec 64) (s : State) :
    setReg rd w (setMenvcfg v s) = setMenvcfg v (setReg rd w s) := by
  unfold setReg
  split <;> rfl

theorem dataAccess_of_misalignedFault {kind : AccessKind} {n : Nat} {va : XWord} {s : State} {e : Exception}
    (h : misalignedFault s.cfg kind n va = some e) : dataAccess kind n va s = .error e := by
  simp [dataAccess, h]

theorem exec_ssamoswapD_rv64 {s : State} (hx : s.cfg.xlen = .rv64) (aq rl : Bool) (rs2 rs1 rd : RegIdx) :
    exec (.ssamoswapD aq rl rs2 rs1 rd) s =
      ssamoswap (encodeWord (.ssamoswapD aq rl rs2 rs1 rd)) 8 aq rl rs1 rd s := by
  simp only [exec, execSsamoswapD, hx]

/-! ## What M-mode makes of the fields -/

section
variable {s : State} (hm : s.priv = .m)
include hm

/-- FIOM (R145). -/
theorem fiomActive_of_m : fiomActive s = false := by
  simp [fiomActive, hm, Mode.belowM]

theorem effectiveSet_of_m (a : AccessSet) : effectiveSet s a = a := by
  simp [effectiveSet, fiomActive_of_m hm]

theorem orderedKinds_of_m (pa : XWord) (aq rl : Bool) :
    orderedKinds s pa aq rl = ⟨isDevice s.cfg pa, !isDevice s.cfg pa⟩ := by
  rw [orderedKinds_eq, fiomActive_of_m hm, Bool.false_and, Bool.or_false]

/-- LPE (R206): neither M-mode nor a trap into it is governed. -/
theorem elpEntering_of_m : elpEntering .m s = if s.cfg.zicfilp then Config.freeElp s.draws else s.elp := by
  have hlp : Mode.m ≠ lpMode s.cfg := by
    unfold lpMode
    split <;> decide
  simp [elpEntering, hm, hlp]

theorem exec_lpad_of_m (label : BitVec 20) :
    exec (.lpad label) s = .next (if s.cfg.zicfilp then landingPadBehaviour s else advance 4 s) := by
  have hg : ¬ (s.priv = lpMode s.cfg ∧ lpeOn s = false) := not_governedLpeOff_of_m hm
  simp only [exec, execLpad, hg, false_or]
  cases s.cfg.zicfilp <;> rfl

/-- SSE (R219, log 19). -/
theorem shadowStack_of_m : shadowStack s = if s.cfg.zicfiss then .ungoverned else .reverted := by
  cases hz : s.cfg.zicfiss <;> simp [shadowStack, hm, hz]

theorem zicfissDenied_of_m : zicfissDenied s = .illegalInstruction := by
  simp [zicfissDenied, hm, Mode.virt]

/-- With MPRV clear M-mode has its own privilege, whose accesses are not translated (R169). -/
theorem translate_dataMode_of_m (hmprv : s.mstatus.mprv = false) (kind : AccessKind) (va : XWord) :
    translate kind (dataMode s) va s = .ok (va, s) :=
  translate_off (by simp [dataMode, translationOn, hm, hmprv]) kind va

/-! ## Traps -/

theorem enterM_setMenvcfg (interrupt : Bool) (code : Nat) (info : XWord) (v : BitVec 64) :
    enterM interrupt code info (setMenvcfg v s) = setMenvcfg v (enterM interrupt code info s) := by
  have help : elpEntering .m (setMenvcfg v s) = elpEntering .m s :=
    (elpEntering_of_m (s := setMenvcfg v s) hm).trans (elpEntering_of_m hm).symm
  rw [enterM, help]
  rfl

theorem raise_setMenvcfg (e : Exception) (info : XWord) (v : BitVec 64) :
    raise e info (setMenvcfg v s) = setMenvcfg v (raise e info s) := by
  rw [raise_eq_enterM (delegated_of_m hm _), raise_eq_enterM (delegated_of_m (s := setMenvcfg v s) hm _),
    enterM_setMenvcfg hm]

theorem illegal_setMenvcfg (w : BitVec 32) (v : BitVec 64) :
    illegal w (setMenvcfg v s) = onNext (setMenvcfg v) (illegal w s) :=
  congrArg Host.Outcome.next (raise_setMenvcfg hm ..)

/-! ## The effects of an enabled extension -/

theorem landingPadBehaviour_setMenvcfg (v : BitVec 64) :
    landingPadBehaviour (setMenvcfg v s) = setMenvcfg v (landingPadBehaviour s) := by
  have hdraws : (setMenvcfg v s).draws = s.draws := rfl
  rw [landingPadBehaviour, landingPadBehaviour, hdraws]
  cases (Config.hartEffect s.draws).trap with
  | some p => exact raise_setMenvcfg hm ..
  | none => rfl

theorem shadowStackBehaviour_setMenvcfg (size : Nat) (v : BitVec 64) :
    shadowStackBehaviour size (setMenvcfg v s) = setMenvcfg v (shadowStackBehaviour size s) := by
  have hdraws : (setMenvcfg v s).draws = s.draws := rfl
  rw [shadowStackBehaviour, shadowStackBehaviour, hdraws]
  cases (Config.hartEffect s.draws).trap with
  | some p => exact raise_setMenvcfg hm ..
  | none => rfl

theorem shadowStack_setMenvcfg (v : BitVec 64) : shadowStack (setMenvcfg v s) = shadowStack s :=
  (shadowStack_of_m (s := setMenvcfg v s) hm).trans (shadowStack_of_m hm).symm

theorem shadowStackOp_setMenvcfg (size : Nat) (v : BitVec 64) :
    shadowStackOp size (setMenvcfg v s) = onNext (setMenvcfg v) (shadowStackOp size s) := by
  rw [shadowStackOp, shadowStackOp, shadowStack_setMenvcfg hm]
  cases shadowStack s with
  | reverted => rfl
  | active | ungoverned => exact congrArg Host.Outcome.next (shadowStackBehaviour_setMenvcfg hm ..)

theorem execSsrdp_setMenvcfg (rd : RegIdx) (v : BitVec 64) :
    execSsrdp rd (setMenvcfg v s) = onNext (setMenvcfg v) (execSsrdp rd s) := by
  rw [execSsrdp, execSsrdp, shadowStack_setMenvcfg hm]
  cases shadowStack s <;> simp only [setReg_setMenvcfg] <;> rfl

/-! ## Accesses to memory -/

section
variable (hmprv : s.mstatus.mprv = false)
include hmprv

theorem atomicAccess_setMenvcfg (n : Nat) (kind : AccessKind) (aq rl : Bool) (rs1 rd : RegIdx) (v : BitVec 64) :
    atomicAccess n kind aq rl rs1 rd (setMenvcfg v s) =
      onNext (setMenvcfg v) (atomicAccess n kind aq rl rs1 rd s) := by
  cases hf : misalignedFault s.cfg kind n (getReg s rs1) with
  | some e =>
    rw [atomicAccess_error (dataAccess_of_misalignedFault hf),
      atomicAccess_error (s := setMenvcfg v s) (dataAccess_of_misalignedFault (s := setMenvcfg v s) hf)]
    exact congrArg Host.Outcome.next (raise_setMenvcfg hm ..)
  | none =>
    have hs := (dataAccess_eq hf).trans (translate_dataMode_of_m hm hmprv kind _)
    have ht := (dataAccess_eq (s := setMenvcfg v s) hf).trans
      (translate_dataMode_of_m (s := setMenvcfg v s) hm hmprv kind _)
    rw [atomicAccess_ok hs, atomicAccess_ok ht, orderedKinds_of_m hm, orderedKinds_of_m (s := setMenvcfg v s) hm]
    rw [onNext, ← advance_setMenvcfg, ← setReg_setMenvcfg]
    rfl

/-- Whatever the enables of a cache-block instruction are, they are not looked at (R190). -/
theorem cboGuarded_setMenvcfg (w : BitVec 32) (present m sBit hBit m' sBit' hBit' : Bool) (op : CacheOp) (rs1 : RegIdx)
    (v : BitVec 64) :
    cboGuarded w present (cboDenied m' sBit' hBit' (setMenvcfg v s)) op rs1 (setMenvcfg v s) =
      onNext (setMenvcfg v) (cboGuarded w present (cboDenied m sBit hBit s) op rs1 s) := by
  rw [cboDenied_of_m hm, cboDenied_of_m (s := setMenvcfg v s) hm]
  cases present with
  | false => exact illegal_setMenvcfg hm w v
  | true =>
    rw [cboGuarded_allowed, cboGuarded_allowed, cboPerform_ok (translate_dataMode_of_m hm hmprv .store _),
      cboPerform_ok (translate_dataMode_of_m (s := setMenvcfg v s) hm hmprv .store _)]
    rfl

theorem ssamoswap_setMenvcfg (w : BitVec 32) (n : Nat) (aq rl : Bool) (rs1 rd : RegIdx) (v : BitVec 64) :
    ssamoswap w n aq rl rs1 rd (setMenvcfg v s) = onNext (setMenvcfg v) (ssamoswap w n aq rl rs1 rd s) := by
  rw [ssamoswap, ssamoswap, shadowStack_setMenvcfg hm, zicfissDenied_of_m hm,
    zicfissDenied_of_m (s := setMenvcfg v s) hm]
  cases shadowStack s with
  | reverted => exact illegal_setMenvcfg hm w v
  | active | ungoverned => exact atomicAccess_setMenvcfg hm hmprv ..

/-- The instructions of the table but the CSR instructions. -/
theorem exec_setMenvcfg {i : Instr} (hn : csrNumberOf i = none) (v : BitVec 64) :
    exec i (setMenvcfg v s) = onNext (setMenvcfg v) (exec i s) := by
  have hm' : (setMenvcfg v s).priv = .m := hm
  cases i
  case csrrw | csrrs | csrrc | csrrwi | csrrsi | csrrci => cases hn
  case fence =>
    rw [exec_fence, exec_fence]
    simp only [effectiveSet_of_m hm, effectiveSet_of_m hm']
    rfl
  case amoW => exact atomicAccess_setMenvcfg hm hmprv ..
  case amoD =>
    cases hx : s.cfg.xlen with
    | rv32 =>
      rw [exec_amoD_rv32 hx, exec_amoD_rv32 (s := setMenvcfg v s) hx, illegal_setMenvcfg hm]
    | rv64 =>
      rw [exec_amoD_rv64 hx, exec_amoD_rv64 (s := setMenvcfg v s) hx, atomicAccess_setMenvcfg hm hmprv]
  case sfenceVma => rw [exec_sfenceVma, exec_sfenceVma]; rfl
  case cboInval =>
    rw [exec_cboInval (.inl hm), exec_cboInval (.inl hm'), invalOp_of_m hm, invalOp_of_m hm']
    exact cboGuarded_setMenvcfg hm hmprv ..
  case cboClean | cboFlush | cboZero => exact cboGuarded_setMenvcfg hm hmprv ..
  case lpad =>
    rw [exec_lpad_of_m hm, exec_lpad_of_m hm', landingPadBehaviour_setMenvcfg hm, setMenvcfg_cfg]
    cases s.cfg.zicfilp <;> rfl
  case ssamoswapW => exact ssamoswap_setMenvcfg hm hmprv ..
  case ssamoswapD =>
    cases hx : s.cfg.xlen with
    | rv32 => rw [exec_ssamoswapD_rv32 hx, exec_ssamoswapD_rv32 (s := setMenvcfg v s) hx, illegal_setMenvcfg hm]
    | rv64 =>
      rw [exec_ssamoswapD_rv64 hx, exec_ssamoswapD_rv64 (s := setMenvcfg v s) hx, ssamoswap_setMenvcfg hm hmprv]
  case sspush | sspopchk => exact shadowStackOp_setMenvcfg hm 4 v
  case ssrdp rd => exact execSsrdp_setMenvcfg hm rd v
  case cSspush | cSspopchk => exact shadowStackOp_setMenvcfg hm 2 v

end

/-- HFENCE.GVMA and the MOPs. -/
theorem execHart_setMenvcfg {i : HartInstr} (hmret : i ≠ .mret) (hsret : i ≠ .sret) (w : BitVec 32) (v : BitVec 64) :
    execHart i w (setMenvcfg v s) = onNext (setMenvcfg v) (execHart i w s) := by
  cases i
  case mret => exact absurd rfl hmret
  case sret => exact absurd rfl hsret
  case hfenceGvma =>
    cases hh : s.cfg.hImplemented with
    | false =>
      rw [execHart_hfenceGvma_absent hh, execHart_hfenceGvma_absent (s := setMenvcfg v s) hh, illegal_setMenvcfg hm]
    | true =>
      rw [execHart_hfenceGvma hh, execHart_hfenceGvma (s := setMenvcfg v s) hh]
      rfl
  case mopR | mopRr => simp only [execHart, setReg_setMenvcfg]; rfl
  case cMop => rfl

end

/-- Settles O59: setting `menvcfg` before an instruction in M-mode is setting it after. -/
theorem machineModeIsNotGoverned : Obligations.MachineModeIsNotGoverned := fun s v hm hmprv =>
  ⟨fun i hn => (exec_setMenvcfg hm hmprv hn v).trans (by cases exec i s <;> rfl),
    fun i w hmret hsret => (execHart_setMenvcfg hm hmret hsret w v).trans (by cases execHart i w s <;> rfl)⟩

end Sys2Proof.Machine
end

section
/-! PROOFS. `time` and the configuration: everything a step does leaves both, and its end moves `time` upwards alone. -/

namespace Sys2Proof.Machine

/-! ## Before the end of a step -/

/-- No instruction of the table writes `time` (R270) or the configuration (log 1). -/
theorem ExecEffect.time_cfg_eq {i : Instr} {s t : State} (h : ExecEffect i s t) : t.time = s.time ∧ t.cfg = s.cfg := by
  cases h with
  | raised e v => exact ⟨raise_time e v s, raise_cfg e v s⟩
  | csrRead | csrWritten | updated => simp
  | closed | landingPad | shadowStack => exact ⟨rfl, rfl⟩

theorem HartStep.time_cfg_eq {i : HartInstr} {s t : State} (h : HartStep i s t) : t.time = s.time ∧ t.cfg = s.cfg := by
  cases h with
  | raised e w => exact ⟨raise_time .., raise_cfg ..⟩
  | mop => simp
  | mret | sret | sretV | fenced => exact ⟨rfl, rfl⟩

/-- An interrupt, a fetch and the instruction it gives leave `time` and the configuration. -/
theorem StepEffect.time_cfg_eq {s u : State} (h : StepEffect s u) : u.time = s.time ∧ u.cfg = s.cfg := by
  cases h with
  | interrupt toS => exact ⟨takeTrap_time .., takeTrap_cfg ..⟩
  | fetchFault e => exact ⟨raise_time .., raise_cfg ..⟩
  | ran hf _ h => obtain ⟨m, rfl, -⟩ := fetch_bytes hf; exact h.time_cfg_eq
  | hart hf _ _ h => obtain ⟨m, rfl, -⟩ := fetch_bytes hf; exact h.time_cfg_eq

/-! ## The end of a step -/

/-- A drawn value that is smaller is not taken (log 32). -/
theorem time_le_tick_time (s : State) : s.time ≤ (tick s).time := by
  have htime : (tick s).time = if s.time ≤ Config.timeDraw s.draws then Config.timeDraw s.draws else s.time := rfl
  rw [htime]
  split
  · assumption
  · exact BitVec.le_refl s.time

/-- Settles O60: the state before the end of the step has the `time` and the configuration of `s`, and `tick` keeps the
one from decreasing and leaves the other. -/
theorem timeDoesNotDecrease : Obligations.TimeDoesNotDecrease := by
  intro s t ht
  obtain ⟨-, u, rfl, hu⟩ := step_effect ht
  obtain ⟨htime, hcfg⟩ := hu.time_cfg_eq
  rw [← htime, tick_cfg]
  exact ⟨time_le_tick_time u, hcfg⟩

end Sys2Proof.Machine
end

section
/-! PROOFS. The encoding in both directions: the bytes of a well-formed instruction decode to it, and bytes that decode
are its encoding. -/

namespace Sys2Proof.Machine

/-- Settles O1: the decoder reads an encoding back, format by format. -/
theorem decodeOfEncodeIsTheInstruction : Obligations.DecodeOfEncodeIsTheInstruction :=
  fun _ rest h => decode_encode h rest

/-! ## A word of a row is the encoding of what it decodes to -/

/-- `w` is the word of the well-formed instruction `i`, of four bytes. -/
def isWordOf (i : Instr) (w : BitVec 32) : Prop := i.wellFormed = true ∧ i.size = 4 ∧ encodeWord i = w

/-- The format with a 12-bit immediate is the other one, with the immediate in two parts (R101, R104). -/
theorem iType_append (f7 : BitVec 7) (rs2 rs1 : RegIdx) (f3 : BitVec 3) (rd : RegIdx) (op : BitVec 7) :
    iType (f7 ++ rs2) rs1 f3 rd op = rType f7 rs2 rs1 f3 rd op := rfl

theorem immediate_of_fields (w : BitVec 32) : w.extractLsb' 25 7 ++ w.extractLsb' 20 5 = w.extractLsb' 20 12 :=
  BitVec.extractLsb'_append_extractLsb'_eq_extractLsb' rfl

/-- The value of funct3 that is left for the Zimop encodings (R102, R105, R108). -/
theorem funct3_eq_four : ∀ f3 : BitVec 3, f3 ∉ [1#3, 2#3, 3#3, 5#3, 6#3, 7#3, 0#3] → f3 = 4#3 := by
  decide

theorem isWordOf_decodeSystem {f7 : BitVec 7} {rs2 rs1 rd : RegIdx} {f3 : BitVec 3} {i : Instr}
    (h : decodeSystem f7 (f7 ++ rs2) rs2 rs1 f3 rd = .ok i) : isWordOf i (rType f7 rs2 rs1 f3 rd opSystem) := by
  rw [← iType_append]
  unfold decodeSystem at h
  iterate 6 -- the six CSR instructions
    split at h
    next hf => subst hf; cases h; exact ⟨rfl, rfl, rfl⟩
  split at h
  next hf =>
    split at h <;> cases h
    next hsfence => obtain ⟨rfl, rfl⟩ := hsfence; subst hf; exact ⟨rfl, rfl, rfl⟩
  next =>
    obtain rfl : f3 = 4#3 := funct3_eq_four f3 (by simp [*])
    split at h
    next hpush => obtain ⟨rfl, rfl, rfl, hlink⟩ := hpush; cases h; exact ⟨hlink, rfl, rfl⟩
    split at h
    next hpop => obtain ⟨himm, rfl, hlink⟩ := hpop; cases h; rw [himm]; exact ⟨hlink, rfl, rfl⟩
    split at h <;> cases h
    next hrdp => obtain ⟨himm, rfl, hrd⟩ := hrdp; rw [himm]; exact ⟨bne_iff_ne.2 hrd, rfl, rfl⟩

theorem isWordOf_decodeMiscMem {imm : BitVec 12} {rs1 rd : RegIdx} {f3 : BitVec 3} {i : Instr}
    (h : decodeMiscMem imm rs1 f3 rd = .ok i) : isWordOf i (iType imm rs1 f3 rd opMiscMem) := by
  unfold decodeMiscMem at h
  split at h
  next hf => subst hf; cases h; exact ⟨rfl, rfl, by rw [encodeWord, fenceImm_of_fields]⟩
  split at h
  next hf =>
    iterate 4 -- the four cache-block instructions
      split at h
      next hcbo => obtain ⟨rfl, rfl⟩ := hcbo; subst hf; cases h; exact ⟨rfl, rfl, rfl⟩
    cases h
  next => cases h

theorem isWordOf_decodeAmo {f7 : BitVec 7} {rs2 rs1 rd : RegIdx} {f3 : BitVec 3} {i : Instr}
    (h : decodeAmo f7 rs2 rs1 f3 rd = .ok i) : isWordOf i (rType f7 rs2 rs1 f3 rd opAmo) := by
  have hf7 := amoFunct7_of_fields f7
  simp only [decodeAmo] at h
  iterate 2 -- the two widths
    split at h
    next hf =>
      subst hf
      split at h <;> cases h
      next hswap => rw [hswap] at hf7; exact ⟨rfl, rfl, by rw [encodeWord, hf7]⟩
      next hclass => exact ⟨bne_iff_ne.2 hclass, rfl, by rw [encodeWord, hf7]⟩
  cases h

/-- A word that decodes is that of a well-formed instruction (R101 to R108). -/
theorem isWordOf_decodeWord {w : BitVec 32} {i : Instr} (h : decodeWord w = .ok i) : isWordOf i w := by
  simp only [decodeWord] at h
  split at h
  next hop =>
    rw [← immediate_of_fields] at h
    rw [← rType_of_fields w, hop]
    exact isWordOf_decodeSystem h
  split at h
  next hop =>
    rw [← iType_of_fields w, hop]
    exact isWordOf_decodeMiscMem h
  split at h
  next hop =>
    rw [← rType_of_fields w, hop]
    exact isWordOf_decodeAmo h
  split at h
  next hop =>
    split at h <;> cases h
    next hrd => exact ⟨rfl, rfl, by rw [encodeWord, ← hop, ← hrd, uType_of_fields]⟩
  next => cases h

/-! ## Bytes that decode -/

theorem wordBytes_wordOf (b0 b1 b2 b3 : Byte) : wordBytes (wordOf b0 b1 b2 b3) = [b0, b1, b2, b3] := by
  simp [wordBytes]

/-- The two bytes of a halfword, the low one first. -/
theorem bytes_of_halfwordOf {b0 b1 : Byte} {h : BitVec 16} (hh : halfwordOf b0 b1 = h) :
    [b0, b1] = [h.extractLsb' 0 8, h.extractLsb' 8 8] := by
  rw [← hh, halfwordOf, BitVec.extractLsb'_append_eq_right, BitVec.extractLsb'_append_eq_left]

/-- A halfword that decodes is the encoding of one of the two instructions of two bytes (R108). -/
theorem encode_of_decodeHalfword {b0 b1 : Byte} {i : Instr} (h : decodeHalfword (halfwordOf b0 b1) = .ok i) :
    i.wellFormed = true ∧ encode i = [b0, b1] := by
  unfold decodeHalfword at h
  split at h
  next hpush => cases h; rw [bytes_of_halfwordOf hpush]; exact ⟨rfl, rfl⟩
  split at h <;> cases h
  next hpop => rw [bytes_of_halfwordOf hpop]; exact ⟨rfl, rfl⟩

theorem encode_of_decodeWord {b0 b1 b2 b3 : Byte} {i : Instr} (h : decodeWord (wordOf b0 b1 b2 b3) = .ok i) :
    i.wellFormed = true ∧ encode i = [b0, b1, b2, b3] := by
  obtain ⟨hwf, hsize, hword⟩ := isWordOf_decodeWord h
  exact ⟨hwf, by rw [encode_wide hsize, hword, wordBytes_wordOf]⟩

/-- Settles O2: bits 1:0 of the first byte say which of the two lengths was decoded (R100). -/
theorem encodeOfDecodeIsTheBytes : Obligations.EncodeOfDecodeIsTheBytes := by
  intro bs rest i h
  match bs, h with
  | b0 :: b1 :: tail, h =>
    cases hwide : isWide b0
    case false =>
      rw [decode_narrow tail hwide] at h
      split at h <;> cases h
      next hd => obtain ⟨hwf, henc⟩ := encode_of_decodeHalfword hd; exact ⟨hwf, by rw [henc]; rfl⟩
    case true =>
      match tail, h with
      | b2 :: b3 :: tail', h =>
        rw [decode_wide tail' hwide] at h
        split at h <;> cases h
        next hd => obtain ⟨hwf, henc⟩ := encode_of_decodeWord hd; exact ⟨hwf, by rw [henc]; rfl⟩
      | [], h | [_], h => simp [decode, hwide] at h

/-- A word of the table decodes to the instruction whose encoding its bytes begin with. -/
theorem decodeTableWord_of_encode {nbits w : Nat} {i : Instr} (rest : List Byte) (hwf : i.wellFormed = true)
    (hbytes : tableBytes nbits w = encode i ++ rest) : decodeTableWord nbits w = some i := by
  rw [decodeTableWord, hbytes, decode_encode hwf]

/-- Settles O3: the bytes of each word are the encoding of its instruction, those of the halfword followed by zeros. -/
theorem specWordsDecode : Obligations.SpecWordsDecode := by
  have word {w : Nat} {i : Instr} (hwf : i.wellFormed = true) (hbytes : tableBytes 32 w = encode i ++ []) :=
    decodeTableWord_of_encode [] hwf hbytes
  exact ⟨word rfl rfl, word rfl rfl, word rfl rfl, word rfl rfl, word rfl rfl, word rfl rfl, word rfl rfl,
    word rfl rfl, word rfl rfl, word rfl rfl, decodeTableWord_of_encode [0#8, 0#8] rfl rfl⟩

end Sys2Proof.Machine
end

section
/-! PROOFS. The register and the predicates it defines: WMASK, the laws of the software-write function, reset and
`fiom_active`. -/

namespace Sys2Proof.Machine

/-! ## A value by its bits -/

/-- Two values are equal where CBIE and every other bit agree. -/
theorem eq_of_rawCbie_of_bits {v w : BitVec 64} (hcbie : rawCbie v = rawCbie w)
    (hbits : ∀ i, i ≠ 4 → i ≠ 5 → v.getLsbD i = w.getLsbD i) : v = w := by
  obtain ⟨h4, h5⟩ := (rawCbie_eq_iff v _).1 hcbie
  apply BitVec.eq_of_getLsbD_eq
  intro i _
  by_cases hi4 : i = 4
  · subst hi4; simpa [rawCbie] using h4
  by_cases hi5 : i = 5
  · subst hi5; simpa [rawCbie] using h5
  exact hbits i hi4 hi5

/-- The legal values of R66 are those that meet the invariants of R60. -/
theorem legalValue_iff_registerInvariants (c : HartConfig) (v : BitVec 64) :
    legalValue c v = true ↔ registerInvariants c v := by
  rw [legalValue_iff, registerInvariants, and_not_eq_zero_iff]
  rfl

theorem getLsbD_and_wmask_of_legal {c : HartConfig} {v : BitVec 64} (hv : legalValue c v = true) (i : Nat) :
    (v.getLsbD i && (wmask c).getLsbD i) = v.getLsbD i := by
  have hmask := ((legalValue_iff c v).1 hv).1 i
  cases hi : v.getLsbD i
  · rfl
  · rw [hmask hi]; rfl

/-! ## The software-write function -/

theorem wmask_cbie_of_zicbom {c : HartConfig} (hz : c.zicbom = true) :
    (wmask c).getLsbD 4 = true ∧ (wmask c).getLsbD 5 = true :=
  (rawCbie_eq_iff _ _).1 (rawCbie_wmask_of_zicbom hz)

/-- A write stores 0 in every bit outside WMASK (R56). -/
theorem getLsbD_swWrite_of_not_wmask {c : HartConfig} {i : Nat} (hi : (wmask c).getLsbD i = false)
    (old v : BitVec 64) : (swWrite c old v).getLsbD i = false := by
  by_cases hcbie : i = 4 ∨ i = 5
  · have hz : c.zicbom = false := by
      cases hz : c.zicbom
      · rfl
      · obtain ⟨h4, h5⟩ := wmask_cbie_of_zicbom hz
        rcases hcbie with rfl | rfl
        · exact h4.symm.trans hi
        · exact h5.symm.trans hi
    obtain ⟨h4, h5⟩ := (rawCbie_eq_iff (swWrite c old v) 0#2).1 (by rw [rawCbie_swWrite, hz]; rfl)
    rcases hcbie with rfl | rfl
    · exact h4
    · exact h5
  · rw [getLsbD_swWrite c old v i (fun h => hcbie (.inl h)) (fun h => hcbie (.inr h)), hi, Bool.and_false]

/-- A legal value is stored as it is, where no two fields share a bit (log 38). -/
theorem swWrite_of_legal {c : HartConfig} (hd : fieldsDistinct c = true) {v : BitVec 64} (hv : legalValue c v = true)
    (old : BitVec 64) : swWrite c old v = v := by
  refine eq_of_rawCbie_of_bits ?_ fun i h4 h5 => ?_
  · cases hz : c.zicbom
    · rw [rawCbie_swWrite, hz, rawCbie_of_no_zicbom hd hz hv]; rfl
    · exact rawCbie_swWrite_storable hz (legalValue_cbieStorable hv) old
  · rw [getLsbD_swWrite c old v i h4 h5, getLsbD_and_wmask_of_legal hv]

/-- A write done twice is the write. -/
theorem swWrite_swWrite (c : HartConfig) (old v : BitVec 64) : swWrite c (swWrite c old v) v = swWrite c old v := by
  refine eq_of_rawCbie_of_bits ?_ fun i h4 h5 => ?_
  · rw [rawCbie_swWrite, rawCbie_swWrite]
    cases hz : c.zicbom
    · rfl
    · cases hst : cbieStorable c (rawCbie v) <;> simp [writtenCbie, rawCbie_swWrite, hz, hst]
  · rw [getLsbD_swWrite c _ v i h4 h5, getLsbD_swWrite c _ v i h4 h5]

/-- Settles O10: a write leaves the bit 0, and so does the first invariant of R60. -/
theorem bitsOutsideWmaskStayZero : Obligations.BitsOutsideWmaskStayZero := by
  intro c i hi
  refine ⟨getLsbD_swWrite_of_not_wmask hi, fun s hc hs => ?_⟩
  rw [← getLsbD_and_wmask_of_legal hs i, hc, hi, Bool.and_false]

/-- Settles O12: the four laws of R127, of which writing a legal value back is a write of a legal value. -/
theorem swWriteLaws : Obligations.SwWriteLaws := by
  intro c old v
  refine ⟨fun h => legalValue_swWrite h v, fun hd h => swWrite_of_legal hd h old, swWrite_swWrite c old v,
    fun old' i h4 h5 => ?_⟩
  rw [getLsbD_swWrite c _ v i h4 h5, getLsbD_swWrite c _ v i h4 h5]

/-- Settles O9: WMASK of both configurations is a closed value. -/
theorem wmaskOfBaseAndFull : Obligations.WmaskOfBaseAndFull := ⟨by decide, by decide⟩

/-! ## Reset -/

theorem resetOf_menvcfg (c : HartConfig) (r : BitVec 64) : (State.resetOf c r).menvcfg = swWrite c 0#64 r := rfl

/-- Settles O6: a draw is made legal by the write rule, which stores a legal draw as it is. -/
theorem resetRegisterIsAnyLegalValue : Obligations.ResetRegisterIsAnyLegalValue := by
  intro c v hd
  simp only [resetOf_menvcfg, ← legalValue_iff_registerInvariants]
  constructor
  · rintro ⟨r, rfl⟩
    exact legalValue_reset c r
  · intro hv
    exact ⟨v, swWrite_of_legal hd hv 0#64⟩

/-- Settles O7: the fields of the reset state. -/
theorem resetStartsInMachineMode : Obligations.ResetStartsInMachineMode := fun _ _ => ⟨rfl, rfl, rfl, rfl⟩

/-! ## FIOM -/

theorem belowM_iff (mode : Mode) : mode.belowM = true ↔ mode ≠ .m := by
  refine ⟨?_, belowM_of_ne_m⟩
  rintro h rfl
  cases h

/-- Settles O28: the mode, and the field as it reads (R145, R151). -/
theorem fiomIsActiveExactlyBelowM : Obligations.FiomIsActiveExactlyBelowM := by
  intro s
  rw [fiomActive, fieldFiom, Bool.and_eq_true, Bool.and_eq_true, belowM_iff, Bool.not_eq_true']

end Sys2Proof.Machine
end

section
/-! PROOFS. CSR instructions that are denied because of what their number names, the one register a CSR write changes,
and the registers that read back what is written. -/

namespace Sys2Proof.Machine

/-! ## The two names of `menvcfg` -/

/-- What the two numbers name, whatever the number of `menvcfgh` is (R1, R110, log 38). -/
theorem csrNamed_of_menvcfgNumber {n : CsrNum} {c : HartConfig} (hn : n = 0x30A#12 ∨ n = c.csrMenvcfgh) :
    (n = 0x30A#12 ∧ csrNamed n c = some (c.uImplemented, .menvcfg)) ∨
    (n ≠ 0x30A#12 ∧ csrNamed n c = some (c.uImplemented && isRv32 c, .menvcfgh)) := by
  by_cases h0 : n = 0x30A#12
  · exact .inl ⟨h0, by simp [csrNamed, h0]⟩
  · obtain rfl := hn.resolve_left h0
    exact .inr ⟨h0, by simp [csrNamed, h0]⟩

/-- Below M neither number can be accessed, whether the hart has its register or not (R120). -/
theorem csrDenied_menvcfg_below_m {n : CsrNum} {s : State} (hn : n = 0x30A#12 ∨ n = s.cfg.csrMenvcfgh)
    (hp : s.priv ≠ .m) (writes : Bool) : csrDenied n writes s = some .illegalInstruction := by
  obtain ⟨present, r, hr, hnamed⟩ : ∃ present r, (r = .menvcfg ∨ r = .menvcfgh) ∧
      csrNamed n s.cfg = some (present, r) := by
    rcases csrNamed_of_menvcfgNumber hn with ⟨-, h⟩ | ⟨-, h⟩
    · exact ⟨_, _, .inl rfl, h⟩
    · exact ⟨_, _, .inr rfl, h⟩
  have hlook := csrLookup_of_csrNamed hnamed
  cases present with
  | false => exact csrDenied_of_absent hlook writes
  | true =>
    replace hlook : csrLookup n s = some r := hlook
    rcases hr with rfl | rfl <;> simp [csrDenied, hlook, belowM_of_ne_m hp]

/-- Settles O16: the access is denied, and a denied access is its trap and nothing else. -/
theorem menvcfgBelowMIsIllegal : Obligations.MenvcfgBelowMIsIllegal := fun _ _ _ hi hn hp =>
  exec_csr_denied hi (csrDenied_menvcfg_below_m hn hp _)

/-! ## Registers that do not exist -/

/-- Without U-mode neither number of `menvcfg` names a register (R41, R121). -/
theorem csrLookup_menvcfg_without_u {n : CsrNum} {s : State} (hn : n = 0x30A#12 ∨ n = s.cfg.csrMenvcfgh)
    (hu : s.cfg.uImplemented = false) : csrLookup n s = none := by
  rcases csrNamed_of_menvcfgNumber hn with ⟨-, h⟩ | ⟨-, h⟩ <;> rw [csrLookup_of_csrNamed h, hu] <;> rfl

/-- With XLEN = 64 there is no `menvcfgh` (R63). -/
theorem csrLookup_menvcfgh_rv64 {s : State} (hl : menvcfghNumberLegal s.cfg.csrMenvcfgh = true)
    (hx : s.cfg.xlen = .rv64) : csrLookup s.cfg.csrMenvcfgh s = none := by
  have h0 : s.cfg.csrMenvcfgh ≠ 0x30A#12 := ((menvcfghNumberLegal_cases hl).2.2 _ (by simp [machineNumbers])).symm
  rcases csrNamed_of_menvcfgNumber (.inr rfl : _ ∨ s.cfg.csrMenvcfgh = s.cfg.csrMenvcfgh) with ⟨h, -⟩ | ⟨-, h⟩
  · exact absurd h h0
  · simp [csrLookup_of_csrNamed h, isRv32, hx, existsIf]

/-- Without Sstc there is no `stimecmp` (R185). -/
theorem csrLookup_stimecmp_without_sstc {s : State} (hl : menvcfghNumberLegal s.cfg.csrMenvcfgh = true)
    (hs : s.cfg.sstc = false) : csrLookup 0x14D#12 s = none := by
  rw [csrLookup_of_csrNamed (csrNamed_stimecmp_number hl), hs]
  rfl

/-- Settles O17: each case names no register, and an access to none is denied before every other check. -/
theorem absentCsrIsIllegal : Obligations.AbsentCsrIsIllegal := by
  intro s i n hl hi habsent
  have hlook : csrLookup n s = none := by
    rcases habsent with h | ⟨hu, hn⟩ | ⟨hx, rfl⟩ | ⟨hs, rfl⟩
    · exact h
    · exact csrLookup_menvcfg_without_u hn hu
    · exact csrLookup_menvcfgh_rv64 hl hx
    · exact csrLookup_stimecmp_without_sstc hl hs
  exact exec_csr_denied hi (csrDenied_of_absent hlook _)

/-! ## What a CSR instruction leaves -/

/-- Settles O20: an access that is not denied is `csrCompleted`, whose write is that of one register. -/
theorem csrWriteChangesOnlyTheNamedRegister : Obligations.CsrWriteChangesOnlyTheNamedRegister := by
  intro s t i n hi hd ht
  obtain ⟨r, hr⟩ := csrLookup_of_not_denied hd
  rw [exec_csr_completed hi hd hr] at ht
  cases ht
  exact ⟨r, hr, sameButCsr_csrCompleted ..⟩

/-! ## Registers that read back what is written -/

/-- Each of the registers that store every value (log 50) reads back the XLEN bits written. -/
theorem readCsr_writeCsr_same {r : CsrReg} (hr : r ∈ [.medeleg, .hgatp, .mcause, .mtval, .scause, .stval, .ssp])
    (w : XWord) (s : State) : readCsr r (writeCsr r w s) = trunc s.cfg w := by
  simp only [List.mem_cons, List.not_mem_nil, or_false] at hr
  rcases hr with rfl | rfl | rfl | rfl | rfl | rfl | rfl <;> exact trunc_trunc s.cfg w

/-- A plain register reads as before where another one was written. -/
theorem readCsr_of_sameButCsr {r q : CsrReg} {s t : State} (h : sameButCsr r s t) (hc : t.cfg = s.cfg)
    (hq : q ∈ [.medeleg, .hgatp, .mcause, .mtval, .scause, .stval, .ssp, .mepc, .sepc, .mtvec, .stvec, .satp])
    (hne : r ≠ q) : readCsr q t = readCsr q s := by
  obtain ⟨-, -, hsatp, hhgatp, hmedeleg, -, -, -, hmtvec, hmepc, hmcause, hmtval, hstvec, hsepc, hscause, hstval,
    hssp⟩ := h
  simp only [List.mem_cons, List.not_mem_nil, or_false] at hq
  rcases hq with rfl | rfl | rfl | rfl | rfl | rfl | rfl | rfl | rfl | rfl | rfl | rfl <;> simp [readCsr, *]

/-- Settles O26: a write reads back at its own register, and is in the frame of every other one. -/
theorem plainCsrsReadBack : Obligations.PlainCsrsReadBack := by
  intro s w r q hr hq
  split
  next hqr => subst hqr; exact readCsr_writeCsr_same hr w s
  next hqr => exact readCsr_of_sameButCsr (sameButCsr_writeCsr r w s) (writeCsr_cfg r w s) hq (Ne.symm hqr)

end Sys2Proof.Machine
end

section
/-! PROOFS. The whole machine: every step keeps the invariants, and `menvcfg` changes only by a CSR instruction that
names it in M-mode. -/

namespace Sys2Proof.Machine

/-! ## What changes `menvcfg` -/

/-- The two numbers of `menvcfg` and its upper half (R59). -/
def isMenvcfgNumber (c : HartConfig) (n : CsrNum) : Prop := n = 0x30A#12 ∨ n = c.csrMenvcfgh

/-- From `s` to `t` the register is kept, or `access` holds and it is written in M-mode, by `sw_write`. -/
def menvcfgWrittenBy (access : Prop) (s t : State) : Prop :=
  t.menvcfg = s.menvcfg ∨ (s.priv = .m ∧ access ∧ ∃ v, t.menvcfg = swWrite s.cfg s.menvcfg v)

/-- In VS-mode too, only the two numbers of the register reach it (log 43). -/
theorem menvcfg_of_substituted {mode : Mode} {r : CsrReg}
    (h : substituted mode r = .menvcfg ∨ substituted mode r = .menvcfgh) : r = .menvcfg ∨ r = .menvcfgh := by
  obtain ⟨hlow, hhigh⟩ := substituted_menvcfg mode r
  exact h.imp hlow.1 hhigh.1

/-- A write that is not denied reaches `menvcfg` only by its numbers, and only in M-mode (R59, R120). -/
theorem menvcfgWrittenBy_writeCsr {n : CsrNum} {writes : Bool} {r : CsrReg} {s : State}
    (hd : csrDenied n writes s = none) (hr : csrLookup n s = some r) (w : XWord) :
    menvcfgWrittenBy (isMenvcfgNumber s.cfg n) s (writeCsr (substituted s.priv r) w s) := by
  rcases writeCsr_menvcfg_cases (substituted s.priv r) w s with ⟨hkept, -⟩ | ⟨hreg, v, hv⟩
  · exact .inl hkept
  · have hr' := menvcfg_of_substituted hreg
    exact .inr ⟨priv_of_not_denied hd hr hr', csrLookup_menvcfg hr hr', v, by rw [hv, writeMenvcfg_menvcfg]⟩

theorem ExecEffect.menvcfgWrittenBy {i : Instr} {s t : State} (h : ExecEffect i s t) :
    menvcfgWrittenBy (∃ n, csrNumberOf i = some n ∧ isMenvcfgNumber s.cfg n) s t := by
  cases h with
  | raised e v => exact .inl (raise_menvcfg e v s)
  | csrRead | updated => exact .inl (by simp)
  | csrWritten rd v w hn hd hr =>
    rcases menvcfgWrittenBy_writeCsr hd hr w with hkept | ⟨hm, hnumber, value, hvalue⟩
    · exact .inl (by simpa using hkept)
    · exact .inr ⟨hm, ⟨_, hn, hnumber⟩, value, by simpa using hvalue⟩
  | closed | landingPad | shadowStack => exact .inl rfl

/-- No instruction that is no row of the table changes `menvcfg` (D30). -/
theorem HartStep.menvcfg_eq {i : HartInstr} {s t : State} (h : HartStep i s t) : t.menvcfg = s.menvcfg := by
  cases h with
  | raised => exact raise_menvcfg ..
  | mop => simp
  | mret | sret | sretV | fenced => rfl

/-- The next instruction is a CSR instruction that names `menvcfg` or its upper half. -/
def fetchesMenvcfgAccess (s : State) : Prop :=
  ∃ bs s' i rest n, fetch s = .bytes bs s' ∧ decode bs = .ok (i, rest) ∧ csrNumberOf i = some n ∧
    isMenvcfgNumber s.cfg n

/-- Nothing a step does changes the register but such an instruction (R59, D30). -/
theorem StepEffect.menvcfgWrittenBy {s u : State} (h : StepEffect s u) :
    menvcfgWrittenBy (fetchesMenvcfgAccess s) s u := by
  cases h with
  | interrupt => exact .inl (takeTrap_menvcfg ..)
  | fetchFault => exact .inl (raise_menvcfg ..)
  | ran hf hd h =>
    obtain ⟨m, rfl, -⟩ := fetch_bytes hf
    rcases h.menvcfgWrittenBy with hkept | ⟨hm, ⟨n, hn, hnumber⟩, value⟩
    · exact .inl hkept
    · exact .inr ⟨hm, ⟨_, _, _, _, n, hf, hd, hn, hnumber⟩, value⟩
  | hart hf _ _ h =>
    obtain ⟨m, rfl, -⟩ := fetch_bytes hf
    exact .inl h.menvcfg_eq

/-- Settles O58: the end of a step leaves the register, and before it only such a CSR instruction writes it. -/
theorem onlyMachineModeCsrInstructionsChangeMenvcfg : Obligations.OnlyMachineModeCsrInstructionsChangeMenvcfg := by
  intro s t h hne
  obtain ⟨-, u, rfl, hu⟩ := step_effect h
  rcases hu.menvcfgWrittenBy with hkept | ⟨hm, haccess, -⟩
  · exact absurd hkept hne
  · exact ⟨hm, haccess⟩

/-- Settles O56: what a step stores in the register is a software write, which keeps a legal value legal. -/
theorem stepKeepsMenvcfgLegal : Obligations.StepKeepsMenvcfgLegal := by
  refine ⟨fun c r => (legalValue_iff_registerInvariants c _).1 (legalValue_reset c r), fun s t hs h => ?_⟩
  obtain ⟨-, u, rfl, hu⟩ := step_effect h
  rw [← legalValue_iff_registerInvariants] at hs ⊢
  rw [tick_cfg, tick_menvcfg, hu.time_cfg_eq.2]
  rcases hu.menvcfgWrittenBy with hkept | ⟨-, -, v, hv⟩
  · rw [hkept]; exact hs
  · rw [hv]; exact legalValue_swWrite hs v

/-! ## Every step keeps the invariants -/

/-- The timer interrupt goes to S-mode only where the hart has it, and from a mode below M (R236, log 31). -/
theorem interruptTaken_toS {s : State} (h : interruptTaken s = some true) :
    s.cfg.sImplemented = true ∧ s.priv ≠ .m := by
  unfold interruptTaken at h
  split at h
  next hpending =>
    simp only [Bool.and_eq_true] at hpending
    refine ⟨hpending.1.2, fun hm => ?_⟩
    simp [hm] at h
  next => cases h

theorem fits_pc {s : State} (h : invariant s = true) : fits s.cfg s.pc = true := by
  obtain ⟨-, -, -, hwidths, -⟩ := (invariant_iff s).1 h
  simp only [widthsOk, Bool.and_eq_true] at hwidths
  simp [hwidths]

/-- ELP is no invariant's concern outside the governed mode with LPE off (R209). -/
theorem invariant_elp {s : State} (h : invariant s = true) (hg : ¬ governedLpeOff s) (elp : Elp) :
    invariant { s with elp := elp } = true := by
  rw [invariant_iff] at *
  obtain ⟨hlegal, hmodes, -, hrest⟩ := h
  exact ⟨hlegal, hmodes, (elpIdle_iff _).2 fun hg' => absurd hg' hg, hrest⟩

theorem ExecEffect.keeps_invariant {i : Instr} {s t : State} (h : ExecEffect i s t) (hs : invariant s = true) :
    invariant t = true := by
  obtain ⟨-, -, -, -, hmem, -⟩ := (invariant_iff s).1 hs
  cases h with
  | raised e v hv => exact invariant_raise hs e hv
  | csrRead rd v => exact invariant_advance (invariant_setReg hs rd v) 4
  | @csrWritten n r rd v w _ hd hr =>
    have hwritten := invariant_writeCsr hs (substituted s.priv r)
      (fun h => priv_of_not_denied hd hr (menvcfg_of_substituted h)) w
    exact invariant_advance (invariant_setReg hwritten rd v) 4
  | updated size rd v m ord ops hm =>
    have hlogs := invariant_cacheOps (invariant_ordering (invariant_mem hs (hm hmem)) ord) ops
    exact invariant_advance (invariant_setReg hlogs rd v) size
  | closed => exact invariant_advance (invariant_windows hs _) 4
  | landingPad elp hg => exact invariant_advance (invariant_elp hs hg elp) 4
  | shadowStack size p m hm =>
    have hssp : invariant (writeCsr .ssp p s) = true := invariant_writeCsr hs .ssp (by simp) p
    exact invariant_advance (invariant_mem hssp (hm hmem)) size

theorem HartStep.keeps_invariant {i : HartInstr} {s t : State} (h : HartStep i s t) (hs : invariant s = true) :
    invariant t = true := by
  cases h with
  | raised e w => exact invariant_raise hs e (fits_instrInfo ..)
  | mret => exact invariant_trapReturnM hs
  | sret hS => exact invariant_trapReturnS hs hS
  | sretV hv => exact invariant_trapReturnV hs hv
  | mop size rd => exact invariant_advance (invariant_setReg hs rd _) size
  | fenced w => exact invariant_advance (invariant_windows hs w) 4

theorem invariant_fetch {s s' : State} {bs : List Byte} (hf : fetch s = .bytes bs s') (hs : invariant s = true) :
    invariant s' = true := by
  obtain ⟨-, -, -, -, hmem, -⟩ := (invariant_iff s).1 hs
  obtain ⟨m, rfl, hm⟩ := fetch_bytes hf
  exact invariant_mem hs (hm hmem)

theorem StepEffect.keeps_invariant {s u : State} (h : StepEffect s u) (hs : invariant s = true) :
    invariant u = true := by
  cases h with
  | interrupt toS hi => exact invariant_takeTrap hs _ _ _ (fits_trunc ..) fun htoS => interruptTaken_toS (htoS ▸ hi)
  | fetchFault e => exact invariant_raise hs e (fits_pc hs)
  | ran hf _ h => exact h.keeps_invariant (invariant_fetch hf hs)
  | hart hf _ _ h => exact h.keeps_invariant (invariant_fetch hf hs)

/-- Settles O57: whatever a step does keeps the invariants, and so does its end. -/
theorem stepKeepsTheInvariant : Obligations.StepKeepsTheInvariant := by
  intro s t hs h
  obtain ⟨-, u, rfl, hu⟩ := step_effect h
  exact invariant_tick (hu.keeps_invariant hs)

end Sys2Proof.Machine
end
